-- ==== Sys2Proof/Word.lean ====
section
/-! DEFINITION. The two bit-vector types the LNCE's words are made of. -/

namespace Sys2Proof

/-- A register word or a command word (REG_WIDTH, ADDR_WIDTH = 32, 00_scope.md R20). -/
abbrev Word := BitVec 32

/-- One byte of host memory (00_scope.md R32). -/
abbrev Byte := BitVec 8

end Sys2Proof
end

