-- ==== Sys2Proof/Syntax.lean ====
section
/-! DEFINITION. The instructions: one constructor per row of spec/opcode_table.json. -/

namespace Sys2Proof

/-- The eleven legal command words, the illegal words, and the two control words (30_encoding.md R301, R302, R307,
R308). A command has no operand fields: its operands are the registers latched at issue (R305). The three rows with
fields keep every bit of their word, the ignored ones too. -/
inductive Instr where
  /-- NOP, CMD 0x00000000 (40_sequencer.md R430). -/
  | nop
  /-- BWT, CMD 0x00000001 (41_bwt.md R501). -/
  | bwt
  /-- UNBWT, CMD 0x00000002 (42_unbwt.md R601). -/
  | unbwt
  /-- HUFF with PATH auto, CMD 0x00000003 (43_huffman.md R719). -/
  | huff
  /-- HUFF with PATH bit-level, CMD 0x00000013 (43_huffman.md R719). -/
  | huffBit
  /-- HUFF with PATH automaton, CMD 0x00000023 (43_huffman.md R719). -/
  | huffFsm
  /-- PUFF with PATH auto, CMD 0x00000004 (43_huffman.md R721). -/
  | puff
  /-- PUFF with PATH bit-level, CMD 0x00000014 (43_huffman.md R721). -/
  | puffBit
  /-- PUFF with PATH automaton, CMD 0x00000024 (43_huffman.md R721). -/
  | puffFsm
  /-- ARITH, CMD 0x00000005 (44_arith.md R820). -/
  | arith
  /-- UNARITH, CMD 0x00000006 (44_arith.md R840). -/
  | unarith
  /-- Any other command word, by its fields OP [3:0], PATH [5:4] and RSV [31:6] (40_sequencer.md R431). -/
  | illegal (op : BitVec 4) (path : BitVec 2) (rsv : BitVec 26)
  /-- A write to CTRL: IE [0], SRST [1] and the ignored bits [31:2] (40_sequencer.md R440). -/
  | ctrlWrite (ie srst : Bool) (ignored : BitVec 30)
  /-- A write to STATUS: DONE_CLR [1], OVERRUN_CLR [3] and the ignored bits 0, 2 and [31:4] (40_sequencer.md R442). -/
  | statusW1c (doneClr overrunClr ignored0 ignored2 : Bool) (ignored : BitVec 28)
deriving DecidableEq, Repr

end Sys2Proof
end

