-- ==== Sys2Proof/WellFormed.lean ====
section
/-! DEFINITION. Which instruction terms stand for a word of their own. -/

namespace Sys2Proof

/-- The fields of a command word make it one of the eleven legal words (30_encoding.md R304's four conditions). -/
def legalFields (op : BitVec 4) (path : BitVec 2) (rsv : BitVec 26) : Bool :=
  rsv == 0 && op.toNat ≤ 6 && path != 3 && (path == 0 || op == 3 || op == 4)

/-- An `illegal` term is well formed when its fields are those of an illegal word (30_encoding.md R307); every other
term is, since its fields have exactly their widths. -/
def Instr.wf : Instr → Bool
  | .illegal op path rsv => !legalFields op path rsv
  | .nop | .bwt | .unbwt | .huff | .huffBit | .huffFsm | .puff | .puffBit | .puffFsm | .arith | .unarith => true
  | .ctrlWrite _ _ _ | .statusW1c _ _ _ _ _ => true

end Sys2Proof
end

