-- ==== Sys2Proof/Decode.lean ====
section
/-! DEFINITION. From the words the host writes to the instructions, and back. -/

namespace Sys2Proof

/-- The three registers whose writes are instructions (30_encoding.md R300, R308). -/
inductive Port where
  | cmd
  | ctrl
  | status
deriving DecidableEq, Repr

/-- The offset of the register in the register block (10_state.md R101). -/
def Port.offset : Port → Nat
  | .ctrl => 0x04
  | .cmd => 0x08
  | .status => 0x0C

/-- Why a register write is no instruction. -/
inductive DecodeError where
  /-- The offset is not a multiple of four below 0x100 (20_memory.md R220). -/
  | notARegister (offset : Nat)
  /-- The register is not CMD, CTRL or STATUS: the write stores a value or is ignored (40_sequencer.md R403, R444). -/
  | notAnOperation (offset : Nat)
deriving DecidableEq, Repr

/-- `legal(w)` (30_encoding.md R304). -/
def legal (w : Word) : Bool :=
  w.extractLsb' 6 26 == 0 && (w.extractLsb' 0 4).toNat ≤ 6 && w.extractLsb' 4 2 != 3 &&
  (w.extractLsb' 4 2 == 0 || w.extractLsb' 0 4 == 3 || w.extractLsb' 0 4 == 4)

/-- The opcode table's fully fixed rows, a command word and its instruction each (30_encoding.md R301, R302, R309). -/
def opcodeRows : List (Word × Instr) :=
  [(0x00000000, .nop), (0x00000001, .bwt), (0x00000002, .unbwt),
   (0x00000003, .huff), (0x00000013, .huffBit), (0x00000023, .huffFsm),
   (0x00000004, .puff), (0x00000014, .puffBit), (0x00000024, .puffFsm),
   (0x00000005, .arith), (0x00000006, .unarith)]

/-- The instruction of a command word: its row of the table, or the catch-all row ILLEGAL (30_encoding.md R304, R307). -/
def decodeCmd (w : Word) : Instr :=
  match opcodeRows.find? (fun row => row.1 == w) with
  | some row => row.2
  | none => .illegal (w.extractLsb' 0 4) (w.extractLsb' 4 2) (w.extractLsb' 6 26)

/-- The instruction of a word written to CTRL (30_encoding.md R308). -/
def decodeCtrl (v : Word) : Instr :=
  .ctrlWrite (v.getLsbD 0) (v.getLsbD 1) (v.extractLsb' 2 30)

/-- The instruction of a word written to STATUS (30_encoding.md R308). -/
def decodeStatus (v : Word) : Instr :=
  .statusW1c (v.getLsbD 1) (v.getLsbD 3) (v.getLsbD 0) (v.getLsbD 2) (v.extractLsb' 4 28)

/-- The instruction of a word written to a port. Total on every word. -/
def decodePort : Port → Word → Instr
  | .cmd, w => decodeCmd w
  | .ctrl, w => decodeCtrl w
  | .status, w => decodeStatus w

/-- The instruction of a 32-bit write at an offset of the register block, or why it is none. -/
def decodeAt (offset : Nat) (w : Word) : Except DecodeError Instr :=
  if offset % 4 != 0 || 0x100 ≤ offset then .error (.notARegister offset)
  else if offset = Port.ctrl.offset then .ok (decodeCtrl w)
  else if offset = Port.cmd.offset then .ok (decodeCmd w)
  else if offset = Port.status.offset then .ok (decodeStatus w)
  else .error (.notAnOperation offset)

/-- The register an instruction is written to (spec/opcode_table.json, column format). -/
def Instr.port : Instr → Port
  | .ctrlWrite _ _ _ => .ctrl
  | .statusW1c _ _ _ _ _ => .status
  | .nop | .bwt | .unbwt | .huff | .huffBit | .huffFsm | .puff | .puffBit | .puffFsm | .arith | .unarith => .cmd
  | .illegal _ _ _ => .cmd

/-- One bit as a vector. -/
def bit (b : Bool) : BitVec 1 := BitVec.ofBool b

/-- The word of an instruction: the fields of 30_encoding.md R300 and R308 laid out most significant first. -/
def encode : Instr → Word
  | .nop => 0x00000000
  | .bwt => 0x00000001
  | .unbwt => 0x00000002
  | .huff => 0x00000003
  | .huffBit => 0x00000013
  | .huffFsm => 0x00000023
  | .puff => 0x00000004
  | .puffBit => 0x00000014
  | .puffFsm => 0x00000024
  | .arith => 0x00000005
  | .unarith => 0x00000006
  | .illegal op path rsv => rsv ++ path ++ op
  | .ctrlWrite ie srst ignored => ignored ++ bit srst ++ bit ie
  | .statusW1c doneClr overrunClr ignored0 ignored2 ignored =>
      ignored ++ bit overrunClr ++ bit ignored2 ++ bit doneClr ++ bit ignored0

/-- The host's reading of a row of the opcode table: a 32-bit word written to CMD (30_encoding.md R300, R306). A word
alone cannot say that it is written to CTRL or STATUS instead (DESIGN CHOICE, log 16). -/
def decodeTableWord (nbits w : Nat) : Option Instr :=
  if nbits ≤ 32 ∧ w < 2 ^ 32 then some (decodeCmd (BitVec.ofNat 32 w)) else none

end Sys2Proof
end

