-- ==== Sys2Proof/Machine/Bits.lean ====
section
/-! DEFINITION. Bit strings, byte packing and big-endian words (00_scope.md R31, R33). A bit string is a list of Bool,
first bit first. -/

namespace Sys2Proof.Machine

/-- `code_bits(c, ℓ)`: the ℓ low bits of c, most significant first (00_scope.md R31). -/
def codeBits (c : Nat) : Nat → List Bool
  | 0 => []
  | l + 1 => c.testBit l :: codeBits c l

/-- The natural number a bit string spells, read from `acc`, most significant bit first. -/
def bitsValueFrom (acc : Nat) : List Bool → Nat
  | [] => acc
  | b :: bs => bitsValueFrom (2 * acc + b.toNat) bs

/-- The natural number a bit string spells, most significant bit first. -/
def bitsValue (bits : List Bool) : Nat := bitsValueFrom 0 bits

/-- Byte k of the packing: bits 8k to 8k + 7, missing bits zero, the first bit at bit 7 (00_scope.md R33). -/
def packedByte (bits : List Bool) (k : Nat) : Byte :=
  BitVec.ofNat 8 (bitsValue ((List.range 8).map fun i => bits.getD (8 * k + i) false))

/-- `pack_msb(bits)` (00_scope.md R33). -/
def packMsb (bits : List Bool) : List Byte :=
  (List.range ((bits.length + 7) / 8)).map (packedByte bits)

/-- The bits of a byte sequence, most significant bit of each byte first. -/
def payloadBits (bytes : List Byte) : List Bool :=
  bytes.flatMap fun y => codeBits y.toNat 8

/-- `bit_at(S, j)`: bit j of a byte sequence, zero past its end (00_scope.md R33). -/
def bitAt (bytes : List Byte) (j : Nat) : Bool :=
  match bytes[j / 8]? with
  | some y => y.getLsbD (7 - j % 8)
  | none => false

/-- `be32(x)` (00_scope.md R33). -/
def be32 (x : Nat) : List Byte :=
  [BitVec.ofNat 8 (x / 2 ^ 24), BitVec.ofNat 8 (x / 2 ^ 16), BitVec.ofNat 8 (x / 2 ^ 8), BitVec.ofNat 8 x]

/-- `be32dec` of the four bytes at an index of a byte sequence (00_scope.md R33). -/
def be32At (bytes : List Byte) (i : Nat) : Nat :=
  (bytes.getD i 0).toNat * 2 ^ 24 + (bytes.getD (i + 1) 0).toNat * 2 ^ 16 +
    (bytes.getD (i + 2) 0).toNat * 2 ^ 8 + (bytes.getD (i + 3) 0).toNat

end Sys2Proof.Machine
end

