-- ==== Sys2Proof/Machine/Result.lean ====
section
/-! DEFINITION. What a command's function answers: its output, or an error code with its information word. -/

namespace Sys2Proof.Machine

/-- The named errors of 60_exceptions.md R900. -/
inductive ErrCode where
  | illegalCmd
  | memFault
  | overlap
  | dstOverflow
  | bwtSize
  | unbwtRecordSize
  | unbwtIndexRange
  | unbwtFiller
  | unbwtConsistency
  | puffTruncated
  | puffBadHeader
  | puffBadPayload
deriving DecidableEq, Repr

/-- The value STATUS.ERRCODE takes (60_exceptions.md R900, column code). -/
def errCodeByte : ErrCode → Byte
  | .illegalCmd => 0x01
  | .memFault => 0x02
  | .overlap => 0x03
  | .dstOverflow => 0x04
  | .bwtSize => 0x10
  | .unbwtRecordSize => 0x20
  | .unbwtIndexRange => 0x21
  | .unbwtFiller => 0x22
  | .unbwtConsistency => 0x23
  | .puffTruncated => 0x30
  | .puffBadHeader => 0x31
  | .puffBadPayload => 0x32

/-- Every named error, in the table's order. -/
def errCodes : List ErrCode :=
  [.illegalCmd, .memFault, .overlap, .dstOverflow, .bwtSize, .unbwtRecordSize, .unbwtIndexRange, .unbwtFiller,
   .unbwtConsistency, .puffTruncated, .puffBadHeader, .puffBadPayload]

/-- The error comes before any host memory access (40_sequencer.md R421). -/
def touchesNoMemory : ErrCode → Bool
  | .illegalCmd | .memFault | .overlap => true
  | _ => false

/-- `Ok(bytes)` or `Err(CODE, info)` (00_scope.md R36). -/
inductive Result where
  | ok (out : List Byte)
  | err (code : ErrCode) (info : Word)
deriving DecidableEq, Repr

/-- Answer an output, or DST_OVERFLOW when it is longer than the capacity (40_sequencer.md R411). -/
def okWithin (cap : Nat) (out : List Byte) : Result :=
  if cap < out.length then .err .dstOverflow 0 else .ok out

/-- The result with one more byte in front of its output. -/
def consResult (b : Byte) : Result → Result
  | .ok out => .ok (b :: out)
  | .err code info => .err code info

end Sys2Proof.Machine
end

