-- ==== Sys2Proof/Config.lean ====
section
/-! DEFINITION. What an implementation fixes (the parameter table, 00_scope.md R20) and the free values of the model.
The OPEN entries are the fields of `Config`, which State carries unchanged; the entries with a value are constants. -/

namespace Sys2Proof

/-- A tree of the Huffman merge forest with its sequence number and weight (43_huffman.md R710, R712): a leaf's
sequence number is its byte value, the m-th created node's is 256 + m. -/
inductive HuffTree where
  | leaf (seq weight : Nat)
  | node (seq weight : Nat) (x y : HuffTree)
deriving DecidableEq, Repr

/-- The OPEN parameter HUFF_TIE (43_huffman.md R711): the reference policy REF_TIE (R712), or some other legal policy,
named by a number, about which nothing but its legality is known. -/
inductive TiePolicy where
  | reference
  | other (id : Nat)
deriving DecidableEq, Repr

/-- The OPEN parameters of 00_scope.md R20, every one of them. -/
structure Config where
  /-- ARITH_W, the code-value width. -/
  arithW     : Nat
  /-- ARITH_CEIL, the frequency-total ceiling. -/
  arithCeil  : Nat
  /-- ARITH_INC, the frequency increment. -/
  arithInc   : Nat
  /-- HUFF_TIE, the merge tie-break policy. -/
  huffTie    : TiePolicy
  /-- MEM_SIZE, the bytes of host memory the engine can address. -/
  memSize    : Nat
  /-- ENGINE_BASE, the host address of the register block. -/
  engineBase : Nat
  /-- IRQ_ID, the interrupt-controller input; no rule of the LNCE reads it. -/
  irqId      : Nat
  /-- ARENA_CHUNK, the growable arena's chunk size; unobservable (41_bwt.md R560), and no definition reads it (log 27). -/
  arenaChunk : Nat
  /-- HOST_SYNC, the host ISA's barrier before its CMD write and after its STATUS read, if it needs one, named by a number
  (20_memory.md R260); no rule of the LNCE reads it (log 23). -/
  hostSync   : Option Nat
deriving DecidableEq, Repr

/-- BWT_MAX_N (00_scope.md R20): 512 MiB. -/
def Config.bwtMaxN : Nat := 536870912

/-- HUFF_AUTO_THRESHOLD (00_scope.md R20, 43_huffman.md R760). -/
def Config.huffAutoThreshold : Nat := 6144

/-- The legality conditions on a configuration: the constraints of 00_scope.md R20 and R21, and the platform's duty to
keep the register block out of host memory (20_memory.md R201; DEDUCED, log 14). -/
def Config.legal (c : Config) : Bool :=
  11 ≤ c.arithW && c.arithW ≤ 32 && 1 ≤ c.arithInc && 257 + 2 * c.arithInc ≤ c.arithCeil &&
  c.arithCeil ≤ 2 ^ (c.arithW - 2) && 1 ≤ c.memSize && c.memSize ≤ 2 ^ 32 &&
  c.engineBase % 256 = 0 && c.memSize ≤ c.engineBase

/-- The configuration `State.reset` carries: the spec's reference values of ARITH_W, ARITH_CEIL, ARITH_INC and HUFF_TIE
(00_scope.md R20); the other values are a DESIGN CHOICE (log 4), unsafe for a claim about `State.reset` alone. -/
def Config.reference : Config where
  arithW := 16
  arithCeil := 16383
  arithInc := 1
  huffTie := .reference
  memSize := 0x80000000
  engineBase := 0x80000000
  irqId := 0
  arenaChunk := 1024
  hostSync := none

/-- FREE VALUE (log 5): what the tie policy named `id` picks in a forest, as a number that selects among the legal
pairs. -/
opaque Config.freeTieChoice : (id : Nat) → (forest : List HuffTree) → Nat

/-- FREE VALUE (log 7): the byte that draw number `draw` leaves, or returns, at a host address. -/
opaque Config.freeByte : (draw address : Nat) → Byte

/-- FREE VALUE (log 10): RESULT_LEN after a raced completion. -/
opaque Config.freeResultLen : (draw : Nat) → Word

/-- FREE VALUE (log 10): ERR_INFO after a raced completion. -/
opaque Config.freeErrInfo : (draw : Nat) → Word

/-- FREE VALUE (log 10): which error, if any, a raced completion reports. -/
opaque Config.freeErrChoice : (draw : Nat) → Nat

end Sys2Proof
end

