-- ==== Sys2Proof/Machine/State.lean ====
section
/-! DEFINITION. The machine's state as plain data, the reasons a step can stop, and the state after reset. -/

namespace Sys2Proof.Machine

/-- The sequencer phase, which the host sees as STATUS.BUSY (10_state.md R140). -/
inductive Phase where
  | idle
  | busy
deriving DecidableEq, Repr

/-- The operands the engine copies at issue (10_state.md R141). -/
structure Latch where
  cmd     : Word
  srcAddr : Word
  srcLen  : Word
  dstAddr : Word
  dstCap  : Word
deriving DecidableEq, Repr

/-- What the host can do to the machine (00_scope.md R10, 70_reset_and_hazards.md R1000, R1040). Addresses are host
addresses; `width` is the access width in bits (20_memory.md R220). -/
inductive HostAccess where
  | regRead (addr width : Nat)
  | regWrite (addr width : Nat) (value : Word)
  | memRead (addr : Nat)
  | memWrite (addr : Nat) (value : Byte)
  | reset
deriving DecidableEq, Repr

/-- One entry of the schedule: the engine's turn, or one host access. Which comes first is data, so every order that
60_exceptions.md R921 allows is some schedule (log 2). -/
inductive Event where
  | engine
  | host (a : HostAccess)
deriving DecidableEq, Repr

/-- The state. STATUS.BUSY is `phase`; the IRQ line, ID, the CFG registers and the reserved registers are computed
(INVENTORY.md, State). The last three fields are the model's own. -/
structure State where
  /-- The OPEN parameters of the implementation; no step changes them. -/
  cfg       : Config
  /-- IDLE or BUSY (10_state.md R114, R140). -/
  phase     : Phase
  /-- CTRL.IE (10_state.md R111). -/
  ie        : Bool
  /-- CMD (10_state.md R113). -/
  cmd       : Word
  /-- STATUS.DONE (10_state.md R114). -/
  done      : Bool
  /-- STATUS.ERR (10_state.md R114). -/
  err       : Bool
  /-- STATUS.OVERRUN (10_state.md R114). -/
  overrun   : Bool
  /-- STATUS.ERRCODE (10_state.md R114). -/
  errCode   : Byte
  /-- SRC_ADDR (10_state.md R120). -/
  srcAddr   : Word
  /-- SRC_LEN (10_state.md R121). -/
  srcLen    : Word
  /-- DST_ADDR (10_state.md R122). -/
  dstAddr   : Word
  /-- DST_CAP (10_state.md R123). -/
  dstCap    : Word
  /-- RESULT_LEN (10_state.md R124). -/
  resultLen : Word
  /-- ERR_INFO (10_state.md R125). -/
  errInfo   : Word
  /-- The operands latched at issue (10_state.md R141). -/
  latch     : Latch
  /-- The race marker of the running command (40_sequencer.md R400, 70_reset_and_hazards.md R1021). -/
  touched   : Bool
  /-- Host memory: the bytes that differ from 0, by rising address (20_memory.md R200; log 6). -/
  mem       : List Host.Cell
  /-- The events still to come, in order (log 2). -/
  schedule  : List Event
  /-- What the host's last read returned (log 15). -/
  hostData  : Word
  /-- How many draws of "any value" have been made (log 7). -/
  draws     : Nat
deriving DecidableEq, Repr

/-- Why the machine stops with a fault. -/
inductive Fault where
  /-- Raised by a host byte access at an address that is neither host memory nor the register block
  (20_memory.md R200, R240; log 12). Safe: the spec gives such an access no meaning. -/
  | unmappedHostAddress (addr : Nat)
deriving DecidableEq, Repr

/-- Why the machine has no meaning for a step. -/
inductive Refusal where
  /-- Raised by `exec` for an instruction without a meaning; no arm raises it. Safe. -/
  | notModelled (mnemonic : String)
  /-- Raised by a register access that is not a 32-bit access at ENGINE_BASE + 4·k, k < 64 (20_memory.md R220). Safe. -/
  | badRegisterAccess (addr width : Nat)
  /-- Raised by a step under a configuration that is not an LNCE (00_scope.md R21). Safe. -/
  | illegalConfiguration
deriving DecidableEq, Repr

/-- The state after hardware reset under a configuration, before anything is stored in host memory
(70_reset_and_hazards.md R1000, 10_state.md R101, R160). -/
def State.resetWith (c : Config) : State where
  cfg := c
  phase := .idle
  ie := false
  cmd := 0
  done := false
  err := false
  overrun := false
  errCode := 0
  srcAddr := 0
  srcLen := 0
  dstAddr := 0
  dstCap := 0
  resultLen := 0
  errInfo := 0
  latch := ⟨0, 0, 0, 0, 0⟩
  touched := false
  mem := []
  schedule := []
  hostData := 0
  draws := 0

/-- The machine right after reset, in the reference configuration (log 4). -/
def State.reset : State := State.resetWith Config.reference

end Sys2Proof.Machine
end

