-- ==== Sys2Proof/Machine/Flags.lean ====
section
/-! DEFINITION. The STATUS flags: what the host reads, the interrupt line, and write-one-to-clear (10_state.md R114,
R142, 60_exceptions.md R910, 40_sequencer.md R442). -/

namespace Sys2Proof.Machine

/-- STATUS.BUSY (10_state.md R114, R140). -/
def State.busy (s : State) : Bool := s.phase == .busy

/-- STATUS as the host reads it: BUSY [0], DONE [1], ERR [2], OVERRUN [3], zero [7:4], ERRCODE [15:8], zero [31:16]
(10_state.md R114). -/
def statusWord (s : State) : Word :=
  BitVec.ofNat 32 (s.busy.toNat + 2 * s.done.toNat + 4 * s.err.toNat + 8 * s.overrun.toNat + 256 * s.errCode.toNat)

/-- CTRL as the host reads it: IE [0], every other bit zero (10_state.md R111). -/
def ctrlWord (s : State) : Word := BitVec.ofNat 32 s.ie.toNat

/-- The interrupt line: DONE and IE at every moment (60_exceptions.md R910). -/
def State.irq (s : State) : Bool := s.done && s.ie

/-- Write one to clear DONE and OVERRUN (40_sequencer.md R442). -/
def clearFlags (doneClr overrunClr : Bool) (s : State) : State :=
  { s with done := s.done && !doneClr, overrun := s.overrun && !overrunClr }

/-- ERR and ERRCODE of a raced completion: one draw picks no error or one of the named errors, so that the values meet
10_state.md R114's legal combinations and no reserved code appears (60_exceptions.md R900; log 10). -/
def racedError (draw : Nat) : Option ErrCode :=
  errCodes[Config.freeErrChoice draw % (errCodes.length + 1)]?

end Sys2Proof.Machine
end

