-- ==== Sys2Proof/Machine/Memory.lean ====
section
/-! DEFINITION. Host memory: a list of (address, byte) pairs in one canonical form (20_memory.md R200). An address that
is not listed reads as 0 (DESIGN CHOICE, log 6). -/

namespace Sys2Proof.Machine

/-- Host memory. -/
abbrev Memory := List Host.Cell

/-- The canonical form: addresses strictly rising, and no byte listed that an unlisted address reads as. -/
abbrev Memory.wf (m : Memory) : Prop :=
  m.Pairwise (fun x y => x.1 < y.1) ∧ ∀ c ∈ m, c.2 ≠ 0

/-- The byte at an address. -/
def readByte : Memory → Nat → Byte
  | [], _ => 0
  | (k, v) :: m, a => if k = a then v else readByte m a

/-- Memory after a byte is stored. -/
def writeByte : Memory → Nat → Byte → Memory
  | [], a, v => if v = 0 then [] else [(a, v)]
  | (k, b) :: m, a, v =>
      if k < a then (k, b) :: writeByte m a v
      else if k = a then (if v = 0 then m else (a, v) :: m)
      else if v = 0 then (k, b) :: m else (a, v) :: (k, b) :: m

/-- `MemRead(addr, n)` (00_scope.md R35). -/
def memRead (m : Memory) (a : Nat) : Nat → List Byte
  | 0 => []
  | n + 1 => readByte m a :: memRead m (a + 1) n

/-- `MemWrite(addr, n, v)` with n = |v| (00_scope.md R35). -/
def memWrite (m : Memory) (a : Nat) : List Byte → Memory
  | [] => m
  | b :: bs => memWrite (writeByte m a b) (a + 1) bs

/-- "Any value" stored at n addresses from a: the bytes of one draw (40_sequencer.md R421; log 7). -/
def memDraw (draw : Nat) (m : Memory) (a : Nat) : Nat → Memory
  | 0 => m
  | n + 1 => memDraw draw (writeByte m a (Config.freeByte draw a)) (a + 1) n

end Sys2Proof.Machine
end

