-- ==== Sys2Proof/Machine/Operands.lean ====
section
/-! DEFINITION. The operands of a command: the latched windows, their checks, and the bytes they name
(30_encoding.md R305, 40_sequencer.md R401, R410). -/

namespace Sys2Proof.Machine

/-- Address a lies in the n bytes from base. -/
def inWindow (base n a : Nat) : Bool := base ≤ a && a < base + n

/-- Address a lies in the running command's SRC window (00_scope.md R40). -/
def inSrcWindow (s : State) (a : Nat) : Bool := inWindow s.latch.srcAddr.toNat s.latch.srcLen.toNat a

/-- Address a lies in the running command's DST window (00_scope.md R40). -/
def inDstWindow (s : State) (a : Nat) : Bool := inWindow s.latch.dstAddr.toNat s.latch.dstCap.toNat a

/-- S = MemRead(src_addr, src_len) (30_encoding.md R305). -/
def sourceBytes (s : State) : List Byte := memRead s.mem s.latch.srcAddr.toNat s.latch.srcLen.toNat

/-- dst_cap, which bounds the output length (30_encoding.md R305). -/
def dstCapacity (s : State) : Nat := s.latch.dstCap.toNat

/-- The SRC window extends past MEM_SIZE (40_sequencer.md R410). -/
def srcOutside (s : State) : Bool := s.cfg.memSize < s.latch.srcAddr.toNat + s.latch.srcLen.toNat

/-- The DST window extends past MEM_SIZE (40_sequencer.md R410). -/
def dstOutside (s : State) : Bool := s.cfg.memSize < s.latch.dstAddr.toNat + s.latch.dstCap.toNat

/-- The SRC and DST windows share a byte (40_sequencer.md R410). -/
def windowsOverlap (s : State) : Bool :=
  0 < s.latch.srcLen.toNat && 0 < s.latch.dstCap.toNat &&
  s.latch.srcAddr.toNat < s.latch.dstAddr.toNat + s.latch.dstCap.toNat &&
  s.latch.dstAddr.toNat < s.latch.srcAddr.toNat + s.latch.srcLen.toNat

/-- The window checks, in the spec's order: the error they raise, if any (40_sequencer.md R410, 60_exceptions.md
R900). -/
def windowError (s : State) : Option (ErrCode × Word) :=
  if srcOutside s then some (.memFault, s.latch.srcAddr)
  else if dstOutside s then some (.memFault, s.latch.dstAddr)
  else if windowsOverlap s then some (.overlap, 0)
  else none

/-- The result of a data command: the window checks, then its function of S and dst_cap (40_sequencer.md R411). -/
def dataResult (s : State) (f : List Byte → Nat → Result) : Result :=
  match windowError s with
  | some (code, info) => .err code info
  | none => f (sourceBytes s) (dstCapacity s)

/-- The bytes of the DST window that host memory has: all of them once the window checks have passed (log 8). -/
def dstWindowBytes (s : State) : Nat :=
  min s.latch.dstCap.toNat (s.cfg.memSize - s.latch.dstAddr.toNat)

end Sys2Proof.Machine
end

