-- ==== Sys2Proof/Machine/Ops.lean ====
section
/-! DEFINITION. The named operations over registers and memory that the meanings share: issue, the completions, reset,
register reads and writes. An error completion is the LNCE's way of taking an exception (60_exceptions.md R903); the
acknowledge that ends it is `clearFlags` in Flags.lean (R930). -/

namespace Sys2Proof.Machine

/-- Issue of the command word w (40_sequencer.md R400). -/
def issue (w : Word) (s : State) : State :=
  { s with
    cmd := w
    phase := .busy
    done := false
    err := false
    errCode := 0
    resultLen := 0
    errInfo := 0
    latch := ⟨w, s.srcAddr, s.srcLen, s.dstAddr, s.dstCap⟩
    touched := false }

/-- "Any value" in the DST window (40_sequencer.md R421, R441; log 7, log 8). -/
def drawDstWindow (s : State) : State :=
  { s with
    mem := memDraw s.draws s.mem s.latch.dstAddr.toNat (dstWindowBytes s)
    draws := s.draws + 1 }

/-- What every completion does to the sequencer: BUSY ← 0, DONE ← 1, phase ← IDLE (40_sequencer.md R420, R421). -/
def finish (s : State) : State := { s with phase := .idle, done := true }

/-- Completion with an output (40_sequencer.md R420). -/
def completeOk (out : List Byte) (s : State) : State :=
  finish { s with
    mem := memWrite s.mem s.latch.dstAddr.toNat out
    resultLen := BitVec.ofNat 32 out.length
    err := false
    errCode := 0
    errInfo := 0 }

/-- The error record of an error completion (40_sequencer.md R421, 60_exceptions.md R903). -/
def recordError (code : ErrCode) (info : Word) (s : State) : State :=
  finish { s with
    resultLen := 0
    err := true
    errCode := errCodeByte code
    errInfo := info }

/-- Completion with an error: the DST window takes any value unless the error came before every access
(40_sequencer.md R421). -/
def completeErr (code : ErrCode) (info : Word) (s : State) : State :=
  recordError code info (if touchesNoMemory code then s else drawDstWindow s)

/-- Completion of a command whose windows the host wrote while it ran: any bytes in the DST window and any legal result
registers (40_sequencer.md R420, 70_reset_and_hazards.md R1021; log 9, log 10). -/
def completeRaced (s : State) : State :=
  let n := s.draws
  finish { drawDstWindow s with
    resultLen := Config.freeResultLen n
    err := (racedError n).isSome
    errCode := ((racedError n).map errCodeByte).getD 0
    errInfo := Config.freeErrInfo n }

/-- The completion step of a command with its result (40_sequencer.md R420, R421). -/
def complete (r : Result) (s : State) : State :=
  if s.touched then completeRaced s
  else match r with
    | .ok out => completeOk out s
    | .err code info => completeErr code info s

/-- Every register at its reset value, phase IDLE, latches and race marker clear; host memory, the configuration and the
model's own fields as they are (10_state.md R101, R160, 70_reset_and_hazards.md R1000). -/
def resetRegisters (s : State) : State :=
  { State.resetWith s.cfg with
    mem := s.mem
    schedule := s.schedule
    hostData := s.hostData
    draws := s.draws }

/-- Soft reset, which equals hardware reset: the DST window of a discarded command takes any value, then every register
is reset (40_sequencer.md R441, 70_reset_and_hazards.md R1000, R1001). -/
def softReset (s : State) : State :=
  resetRegisters (if s.busy then drawDstWindow s else s)

/-- What a read of register k of the block returns (10_state.md R101, R110 to R135, 40_sequencer.md R443). -/
def readRegister (s : State) : Nat → Word
  | 0 => 0x4E550700
  | 1 => ctrlWord s
  | 2 => s.cmd
  | 3 => statusWord s
  | 4 => s.srcAddr
  | 5 => s.srcLen
  | 6 => s.dstAddr
  | 7 => s.dstCap
  | 8 => s.resultLen
  | 9 => s.errInfo
  | 10 => BitVec.ofNat 32 Config.bwtMaxN
  | 11 => BitVec.ofNat 32 s.cfg.arithW
  | 12 => BitVec.ofNat 32 s.cfg.arithCeil
  | 13 => BitVec.ofNat 32 s.cfg.arithInc
  | 14 => BitVec.ofNat 32 Config.huffAutoThreshold
  | 15 => BitVec.ofNat 32 (s.cfg.memSize - 1)
  | _ => 0

/-- A write of w to CMD: issue when IDLE, dropped with OVERRUN when BUSY (40_sequencer.md R400, R402). -/
def writeCmd (w : Word) (s : State) : State :=
  if s.busy then { s with overrun := true } else issue w s

/-- A write to a buffer register, register 4 to 7 of the block: stored when IDLE, dropped when BUSY (40_sequencer.md
R403). A write to any other register has no effect here: the read-only and reserved ones ignore it (R444). -/
def writeBuffer (k : Nat) (v : Word) (s : State) : State :=
  if s.busy then s
  else match k with
    | 4 => { s with srcAddr := v }
    | 5 => { s with srcLen := v }
    | 6 => { s with dstAddr := v }
    | 7 => { s with dstCap := v }
    | _ => s

/-- The register an access names: k when it is a 32-bit access at ENGINE_BASE + 4·k with k < 64, and none for every
other access (20_memory.md R201, R220). -/
def registerIndex (c : Config) (addr width : Nat) : Option Nat :=
  if width = 32 ∧ c.engineBase ≤ addr ∧ addr < c.engineBase + 256 ∧ (addr - c.engineBase) % 4 = 0
  then some ((addr - c.engineBase) / 4) else none

/-- A byte of host memory read by the host: the byte, or while BUSY any value for a byte of the DST window
(70_reset_and_hazards.md R1021). DESIGN CHOICE (log 26): a byte that lies in both windows reads as any value too, where
R1021's second and third points differ. -/
def hostLoad (addr : Nat) (s : State) : State :=
  if s.busy && inDstWindow s addr then
    { s with hostData := (Config.freeByte s.draws addr).setWidth 32, draws := s.draws + 1 }
  else { s with hostData := (readByte s.mem addr).setWidth 32 }

/-- A byte of host memory written by the host, which marks a race when it lies in a window of the running command
(70_reset_and_hazards.md R1021). That a DST byte holds the written value until the completion is DEDUCED (log 25). -/
def hostStore (addr : Nat) (v : Byte) (s : State) : State :=
  { s with
    mem := writeByte s.mem addr v
    touched := s.touched || (s.busy && (inSrcWindow s addr || inDstWindow s addr)) }

end Sys2Proof.Machine
end

