-- ==== Sys2Proof/Machine/Arith.lean ====
section
/-! DEFINITION. ARITH and UNARITH: the adaptive model, the coder interval, the two pure functions and the meanings
(44_arith.md). -/

namespace Sys2Proof.Machine

/-! ## The model (R801, R802, R806) -/

/-- The frequency table after InitModel: 257 ones (44_arith.md R801). -/
def initFreq : List Nat := List.replicate 257 1

/-- `cum[x]`: the sum of the frequencies below x (44_arith.md R802). -/
def cumFreq (freq : List Nat) (x : Nat) : Nat := (freq.take x).sum

/-- `total` = cum[257] (44_arith.md R802). -/
def totalFreq (freq : List Nat) : Nat := freq.sum

/-- `Update(x)`: rescale if the total would pass the ceiling, then add the increment (44_arith.md R806). -/
def updateFreq (c : Config) (freq : List Nat) (x : Nat) : List Nat :=
  let scaled := if c.arithCeil < totalFreq freq + c.arithInc then freq.map fun f => (f + 1) / 2 else freq
  scaled.set x (scaled.getD x 0 + c.arithInc)

/-! ## The interval (R810, R811, R813) -/

/-- TOP = 2^ARITH_W (44_arith.md R810). -/
def coderTop (c : Config) : Nat := 2 ^ c.arithW

/-- HALF = 2^(ARITH_W - 1) (44_arith.md R810). -/
def coderHalf (c : Config) : Nat := 2 ^ (c.arithW - 1)

/-- Q = 2^(ARITH_W - 2) (44_arith.md R810). -/
def coderQuarter (c : Config) : Nat := 2 ^ (c.arithW - 2)

/-- The half-open interval [low, high) (44_arith.md R810). -/
structure Interval where
  low  : Nat
  high : Nat
deriving DecidableEq, Repr

/-- The interval [0, TOP) (44_arith.md R810). -/
def fullInterval (c : Config) : Interval := ⟨0, coderTop c⟩

/-- Narrowing to symbol x; both bounds use the old low (44_arith.md R811). -/
def narrow (freq : List Nat) (x : Nat) (i : Interval) : Interval :=
  let rng := i.high - i.low
  ⟨i.low + rng * cumFreq freq x / totalFreq freq, i.low + rng * cumFreq freq (x + 1) / totalFreq freq⟩

/-- The renormalisation cases (44_arith.md R813). -/
inductive Scaling where
  | e1
  | e2
  | e3
deriving DecidableEq, Repr

/-- Which case applies to an interval, if any (44_arith.md R813). -/
def scalingCase (c : Config) (i : Interval) : Option Scaling :=
  if i.high ≤ coderHalf c then some .e1
  else if coderHalf c ≤ i.low then some .e2
  else if coderQuarter c ≤ i.low ∧ i.high ≤ 3 * coderQuarter c then some .e3
  else none

/-- What a case subtracts from low, high and V before they are doubled (44_arith.md R813, R835). -/
def scalingOffset (c : Config) : Scaling → Nat
  | .e1 => 0
  | .e2 => coderHalf c
  | .e3 => coderQuarter c

/-- The interval after one pass of the loop (44_arith.md R813). -/
def scaleInterval (c : Config) (k : Scaling) (i : Interval) : Interval :=
  ⟨2 * (i.low - scalingOffset c k), 2 * (i.high - scalingOffset c k)⟩

/-! ## The encoder (R800, R813 to R816) -/

/-- The encoder's working state: the interval, the pending counter and the bits so far (44_arith.md R800). -/
structure Encoder where
  interval : Interval
  pend     : Nat
  bits     : List Bool
deriving DecidableEq, Repr

/-- `Emit(b)` (44_arith.md R814). -/
def emitBit (b : Bool) (e : Encoder) : Encoder :=
  { e with pend := 0, bits := e.bits ++ b :: List.replicate e.pend (!b) }

/-- What a case does to the output (44_arith.md R813). -/
def scaleOutput : Scaling → Encoder → Encoder
  | .e1, e => emitBit false e
  | .e2, e => emitBit true e
  | .e3, e => { e with pend := e.pend + 1 }

/-- One pass of the encoder's loop. -/
def encoderPass (c : Config) (k : Scaling) (e : Encoder) : Encoder :=
  { scaleOutput k e with interval := scaleInterval c k e.interval }

/-- The renormalisation loop with at most `n` passes; ARITH_W passes always suffice (44_arith.md R813). -/
def encoderRenorm (c : Config) : (n : Nat) → Encoder → Encoder
  | 0, e => e
  | n + 1, e =>
      match scalingCase c e.interval with
      | some k => encoderRenorm c n (encoderPass c k e)
      | none => e

/-- `EncodeSymbol(x)` without the model update (44_arith.md R811, R813). -/
def encodeSymbol (c : Config) (freq : List Nat) (x : Nat) (e : Encoder) : Encoder :=
  encoderRenorm c c.arithW { e with interval := narrow freq x e.interval }

/-- The symbols coded one after another, the model updated after each (44_arith.md R800, R806). -/
def encodeSymbols (c : Config) (freq : List Nat) (e : Encoder) : List Nat → Encoder
  | [] => e
  | x :: xs => encodeSymbols c (updateFreq c freq x) (encodeSymbol c freq x e) xs

/-- `Flush()` (44_arith.md R815). -/
def flushEncoder (c : Config) (e : Encoder) : Encoder :=
  emitBit (!(e.interval.low < coderQuarter c)) { e with pend := e.pend + 1 }

/-- The encoder at the start of a command (44_arith.md R800). -/
def initEncoder (c : Config) : Encoder := ⟨fullInterval c, 0, []⟩

/-- The bits of the whole stream: the bytes, EOS and the flush (44_arith.md R800). -/
def arithBits (c : Config) (S : List Byte) : List Bool :=
  (flushEncoder c (encodeSymbols c initFreq (initEncoder c) (S.map BitVec.toNat ++ [256]))).bits

/-- `ARITH_f(S, cap)` (44_arith.md R800). -/
def arithF (c : Config) (S : List Byte) (cap : Nat) : Result :=
  okWithin cap (packMsb (arithBits c S))

/-! ## The decoder (R830 to R836) -/

/-- The decoder's working state: the interval, V and the input bit position (44_arith.md R830). -/
structure Decoder where
  interval : Interval
  value    : Nat
  pos      : Nat
deriving DecidableEq, Repr

/-- V doubled with the next input bit brought in; past the end the bit is 0 (44_arith.md R830, R831). -/
def shiftInBit (S : List Byte) (d : Decoder) : Decoder :=
  { d with value := 2 * d.value + (bitAt S d.pos).toNat, pos := d.pos + 1 }

/-- n bits brought in (44_arith.md R830). -/
def shiftInBits (S : List Byte) : Nat → Decoder → Decoder
  | 0, d => d
  | n + 1, d => shiftInBits S n (shiftInBit S d)

/-- The decoder at the start of a command: the first ARITH_W bits (44_arith.md R830, R832). -/
def initDecoder (c : Config) (S : List Byte) : Decoder :=
  shiftInBits S c.arithW ⟨fullInterval c, 0, 0⟩

/-- The scan of FindSymbol from symbol x, whose cumulative frequency is `cum`, over the frequencies left; 256 when there is
none, which a legal configuration never reaches (44_arith.md R833). -/
def findSymbolFrom (V low rng tot : Nat) : (x cum : Nat) → List Nat → Nat
  | _, _, [] => 256
  | x, cum, f :: fs =>
      if V < low + rng * (cum + f) / tot then x else findSymbolFrom V low rng tot (x + 1) (cum + f) fs

/-- `FindSymbol`: the smallest x with V below the upper bound of its slice (44_arith.md R833). -/
def findSymbol (freq : List Nat) (d : Decoder) : Nat :=
  findSymbolFrom d.value d.interval.low (d.interval.high - d.interval.low) (totalFreq freq) 0 0 freq

/-- One pass of the decoder's loop (44_arith.md R835). -/
def decoderPass (c : Config) (S : List Byte) (k : Scaling) (d : Decoder) : Decoder :=
  shiftInBit S
    { d with interval := scaleInterval c k d.interval, value := d.value - scalingOffset c k }

/-- `DecodeRenorm()` with at most `n` passes; ARITH_W passes always suffice (44_arith.md R835). -/
def decoderRenorm (c : Config) (S : List Byte) : (n : Nat) → Decoder → Decoder
  | 0, d => d
  | n + 1, d =>
      match scalingCase c d.interval with
      | some k => decoderRenorm c S n (decoderPass c S k d)
      | none => d

/-- The decoding loop with room for `room` more bytes (44_arith.md R830). -/
def decodeSymbols (c : Config) (S : List Byte) (room : Nat) (freq : List Nat) (d : Decoder) : Result :=
  let x := findSymbol freq d
  if x = 256 then .ok []
  else
    match room with
    | 0 => .err .dstOverflow 0
    | room + 1 =>
        consResult (BitVec.ofNat 8 x)
          (decodeSymbols c S room (updateFreq c freq x)
            (decoderRenorm c S c.arithW { d with interval := narrow freq x d.interval }))

/-- `UNARITH_f(S, cap)` (44_arith.md R830). -/
def unarithF (c : Config) (S : List Byte) (cap : Nat) : Result :=
  decodeSymbols c S cap initFreq (initDecoder c S)

/-! ## The meanings (R820, R840) -/

/-- ARITH (44_arith.md R820). -/
def execArith (s : State) : Host.Outcome State Fault Refusal :=
  .next (complete (dataResult s (arithF s.cfg)) s)

/-- UNARITH (44_arith.md R840). -/
def execUnarith (s : State) : Host.Outcome State Fault Refusal :=
  .next (complete (dataResult s (unarithF s.cfg)) s)

end Sys2Proof.Machine
end

