-- ==== Sys2Proof/Machine/Bwt.lean ====
section
/-! DEFINITION. BWT: the architectural result as a pure function of the block (41_bwt.md section 1), and the meaning. -/

namespace Sys2Proof.Machine

/-- Lexicographic order of symbol sequences, symbols compared as naturals (41_bwt.md R500). -/
def suffixLt : List Nat → List Nat → Bool
  | [], [] => false
  | [], _ :: _ => true
  | _ :: _, [] => false
  | a :: x, b :: y => if a < b then true else if b < a then false else suffixLt x y

/-- X = T ++ [256], the text and the sentinel (41_bwt.md R500). -/
def textWithSentinel (T : List Byte) : List Nat := T.map BitVec.toNat ++ [256]

/-- The nonempty suffixes of X, each with its offset, the first one at offset p. -/
def suffixesFrom (p : Nat) : List Nat → List (Nat × List Nat)
  | [] => []
  | x :: xs => (p, x :: xs) :: suffixesFrom (p + 1) xs

/-- A suffix put in front of the first suffix that is greater. -/
def insertSuffix (s : Nat × List Nat) : List (Nat × List Nat) → List (Nat × List Nat)
  | [] => [s]
  | t :: ts => if suffixLt s.2 t.2 then s :: t :: ts else t :: insertSuffix s ts

/-- The suffixes in increasing order. -/
def sortSuffixes : List (Nat × List Nat) → List (Nat × List Nat)
  | [] => []
  | s :: ss => insertSuffix s (sortSuffixes ss)

/-- `order`: the offsets of the suffixes of X in increasing order of the suffixes (41_bwt.md R500). -/
def suffixOrder (T : List Byte) : List Nat :=
  (sortSuffixes (suffixesFrom 0 (textWithSentinel T))).map Prod.fst

/-- The row byte of the suffix at offset p, by its leaf path length L = N + 1 - p: the filler for the whole text, else
T[N - L] (41_bwt.md R500, R531). -/
def rowByte (T : List Byte) (p : Nat) : Byte :=
  let L := T.length + 1 - p
  if L = T.length + 1 then 0x00 else T.getD (T.length - L) 0

/-- The permutation record: both indices and the rows (30_encoding.md R330). -/
def permutationRecord (T : List Byte) : List Byte :=
  let order := suffixOrder T
  be32 (order.idxOf 1) ++ be32 (order.idxOf 0) ++ order.map (rowByte T)

/-- `BWT_f(T, cap)` (41_bwt.md R500). -/
def bwtF (T : List Byte) (cap : Nat) : Result :=
  if T.length < 1 ∨ Config.bwtMaxN < T.length then .err .bwtSize 0
  else if cap < T.length + 9 then .err .dstOverflow 0
  else .ok (permutationRecord T)

/-- BWT (41_bwt.md R501). -/
def execBwt (s : State) : Host.Outcome State Fault Refusal :=
  .next (complete (dataResult s bwtF) s)

end Sys2Proof.Machine
end

