-- ==== Sys2Proof/Machine/Huffman.lean ====
section
/-! DEFINITION. HUFF and PUFF: code construction, the two pure functions, the bit-level and the automaton paths, and the
meanings (43_huffman.md). -/

namespace Sys2Proof.Machine

/-! ## The merge forest (R710 to R712) -/

/-- The sequence number of a tree (43_huffman.md R712). -/
def treeSeq : HuffTree → Nat
  | .leaf seq _ => seq
  | .node seq _ _ _ => seq

/-- w of a tree (43_huffman.md R710). -/
def treeWeight : HuffTree → Nat
  | .leaf _ weight => weight
  | .node _ weight _ _ => weight

/-- The order of REF_TIE: by weight, then by sequence number (43_huffman.md R712). -/
def treeBefore (t u : HuffTree) : Bool :=
  (treeWeight t).blt (treeWeight u) || ((treeWeight t).beq (treeWeight u) && (treeSeq t).blt (treeSeq u))

/-- The first and the second, in REF_TIE's order, of x, y and the trees of a list; x is before y. -/
def leastTwo (x y : HuffTree) : List HuffTree → HuffTree × HuffTree
  | [] => (x, y)
  | u :: us =>
      bif treeBefore u y then
        bif treeBefore u x then leastTwo u x us else leastTwo x u us
      else leastTwo x y us

/-- REF_TIE: the first and the second member in its order (43_huffman.md R712). A forest of fewer than two trees is never
given to a policy; it answers its one tree twice, or a leaf. -/
def refTie : List HuffTree → HuffTree × HuffTree
  | t :: u :: ts => bif treeBefore u t then leastTwo u t ts else leastTwo t u ts
  | [t] => (t, t)
  | [] => (.leaf 0 0, .leaf 0 0)

/-- A forest without the trees of a pair, by their sequence numbers, which are distinct in a forest. -/
def withoutPair (pair : HuffTree × HuffTree) (forest : List HuffTree) : List HuffTree :=
  forest.filter fun t => !(treeSeq t).beq (treeSeq pair.1) && !(treeSeq t).beq (treeSeq pair.2)

/-- A pair a legal policy may answer: distinct members, x of least weight, y of least weight among the rest
(43_huffman.md R711). -/
def legalPair (forest : List HuffTree) (pair : HuffTree × HuffTree) : Bool :=
  treeSeq pair.1 != treeSeq pair.2 &&
  forest.all (fun z => treeWeight pair.1 ≤ treeWeight z) &&
  forest.all (fun z => treeSeq z == treeSeq pair.1 || treeWeight pair.2 ≤ treeWeight z)

/-- Every legal pair of a forest. -/
def legalPairs (forest : List HuffTree) : List (HuffTree × HuffTree) :=
  (forest.flatMap fun x => forest.map fun y => (x, y)).filter (legalPair forest)

/-- The tie policy a configuration names: REF_TIE, or a free choice among the legal pairs (43_huffman.md R711; log 5). -/
def tieOf : TiePolicy → List HuffTree → HuffTree × HuffTree
  | .reference, forest => refTie forest
  | .other id, forest =>
      let pairs := legalPairs forest
      pairs.getD (Config.freeTieChoice id forest % pairs.length) (refTie forest)

/-- `freq[b]` (43_huffman.md R710). -/
def byteCount (S : List Byte) (b : Nat) : Nat := S.countP fun y => y.toNat == b

/-- The 256 leaves (43_huffman.md R710). -/
def leafForest (S : List Byte) : List HuffTree :=
  (List.range 256).map fun b => .leaf b (byteCount S b)

/-- One merge, the m-th: the policy's pair leaves the forest and its parent joins it (43_huffman.md R710). -/
def mergeOnce (tie : List HuffTree → HuffTree × HuffTree) (m : Nat) (forest : List HuffTree) : List HuffTree :=
  let pair := tie forest
  withoutPair pair forest ++ [.node (256 + m) (treeWeight pair.1 + treeWeight pair.2) pair.1 pair.2]

/-- The merge loop: at most `n` more merges, while two trees are left (43_huffman.md R710). -/
def mergeLoop (tie : List HuffTree → HuffTree × HuffTree) : (n m : Nat) → List HuffTree → List HuffTree
  | 0, _, forest => forest
  | n + 1, m, forest =>
      match forest with
      | _ :: _ :: _ => mergeLoop tie n (m + 1) (mergeOnce tie m forest)
      | _ => forest

/-- The leaves of a tree with their depths, the root at `depth` (43_huffman.md R710). -/
def leafDepths (depth : Nat) : HuffTree → List (Nat × Nat)
  | .leaf seq _ => [(seq, depth)]
  | .node _ _ x y => leafDepths (depth + 1) x ++ leafDepths (depth + 1) y

/-- `HuffLengths(S, tie)`: the 256 code lengths; 255 merges leave one tree (43_huffman.md R710). -/
def huffLengths (tie : List HuffTree → HuffTree × HuffTree) (S : List Byte) : List Nat :=
  let depths := (mergeLoop tie 255 0 (leafForest S)).flatMap (leafDepths 0)
  (List.range 256).map fun b => (depths.lookup b).getD 0

/-! ## Canonical codes (R715) -/

/-- A row of the code table: a byte, the length of its code and the code (43_huffman.md R715). -/
structure CodeRow where
  byte : Nat
  len  : Nat
  code : Nat
deriving DecidableEq, Repr

/-- The bytes of one length, ascending. -/
def bytesOfLength (lens : List Nat) (l : Nat) : List Nat :=
  (List.range 256).filter fun b => lens.getD b 0 == l

/-- Consecutive codes for the bytes of length l, from c (43_huffman.md R715). -/
def assignCodes (l : Nat) : (c : Nat) → List Nat → List CodeRow
  | _, [] => []
  | c, b :: bs => ⟨b, l, c⟩ :: assignCodes l (c + 1) bs

/-- The levels from l down to 1, the counter at c when level l begins; it is halved from each level to the next
(43_huffman.md R715, 90_conflicts.md C5). -/
def canonicalFrom (lens : List Nat) : (l c : Nat) → List CodeRow
  | 0, _ => []
  | l + 1, c =>
      let bs := bytesOfLength lens (l + 1)
      assignCodes (l + 1) c bs ++ canonicalFrom lens l ((c + bs.length) / 2)

/-- `Canonical(len)` as a table of rows, longest codes first (43_huffman.md R715). -/
def canonical (lens : List Nat) : List CodeRow :=
  canonicalFrom lens (lens.foldl max 0) 0

/-- `code_bits(code[b], len[b])` (43_huffman.md R717). -/
def codeBitsOf (table : List CodeRow) (b : Byte) : List Bool :=
  match table.find? (fun row => row.byte == b.toNat) with
  | some row => codeBits row.code row.len
  | none => []

/-! ## The pure functions (R700, R720) -/

/-- The 256 header bytes (43_huffman.md R700, 30_encoding.md R331). -/
def headerBytes (lens : List Nat) : List Byte := lens.map (BitVec.ofNat 8)

/-- `HUFF_f(S, cap, tie)` (43_huffman.md R700). -/
def huffF (tie : List HuffTree → HuffTree × HuffTree) (S : List Byte) (cap : Nat) : Result :=
  let lens := huffLengths tie S
  let table := canonical lens
  okWithin cap (headerBytes lens ++ packMsb (S.flatMap (codeBitsOf table)))

/-- The Kraft sum of 256 lengths, scaled: Σ 2^(255 - len) (43_huffman.md R713, R720). -/
def kraftSum (lens : List Nat) : Nat := (lens.map fun l => 2 ^ (255 - l)).sum

/-- The header test: every length at least 1 and a complete code (43_huffman.md R720). -/
def headerOk (lens : List Nat) : Bool := lens.all (· != 0) && kraftSum lens == 2 ^ 255

/-- The byte whose code has n bits of value acc, if any (43_huffman.md R720). -/
def matchCode (table : List CodeRow) (n acc : Nat) : Option Byte :=
  (table.find? fun row => row.len == n && row.code == acc).map fun row => BitVec.ofNat 8 row.byte

/-- The decoding loop over the payload bits, with acc and n, and with room for `room` more bytes (43_huffman.md R720). -/
def puffBits (table : List CodeRow) : (acc n room : Nat) → List Bool → Result
  | acc, n, _, [] => if 7 < n ∨ acc ≠ 0 then .err .puffBadPayload 0 else .ok []
  | acc, n, room, bit :: bits =>
      match matchCode table (n + 1) (2 * acc + bit.toNat) with
      | none => puffBits table (2 * acc + bit.toNat) (n + 1) room bits
      | some b =>
          match room with
          | 0 => .err .dstOverflow 0
          | room + 1 => consResult b (puffBits table 0 0 room bits)

/-- The checks PUFF makes before it decodes, and then the decoder `run` on the code table and the payload
(43_huffman.md R720, R753). -/
def puffWith (run : List CodeRow → List Byte → Nat → Result) (S : List Byte) (cap : Nat) : Result :=
  if S.length < 256 then .err .puffTruncated 0 else
  let lens := (S.take 256).map BitVec.toNat
  if headerOk lens then run (canonical lens) (S.drop 256) cap else .err .puffBadHeader 0

/-- `PUFF_f(S, cap)` (43_huffman.md R720). -/
def puffF : List Byte → Nat → Result :=
  puffWith fun table payload cap => puffBits table 0 0 cap (payloadBits payload)

/-! ## The bit-level path (R730) -/

/-- The bit packer: an accumulator of fewer than 8 pending bits and their count (43_huffman.md R730). -/
structure Packer where
  acc   : Nat
  count : Nat
deriving DecidableEq, Repr

/-- One bit pushed into the packer: the byte that leaves it, if eight bits have gathered (43_huffman.md R730). -/
def pushBit (p : Packer) (bit : Bool) : List Byte × Packer :=
  if p.count = 7 then ([BitVec.ofNat 8 (2 * p.acc + bit.toNat)], ⟨0, 0⟩)
  else ([], ⟨2 * p.acc + bit.toNat, p.count + 1⟩)

/-- The partial byte left at the end, padded with zeros (43_huffman.md R730, R751). -/
def flushPacker (p : Packer) : List Byte :=
  if p.count = 0 then [] else [BitVec.ofNat 8 (p.acc * 2 ^ (8 - p.count))]

/-- The bits of a payload pushed one at a time, then the end (43_huffman.md R730). -/
def packBits (p : Packer) : List Bool → List Byte
  | [] => flushPacker p
  | bit :: bits => (pushBit p bit).1 ++ packBits (pushBit p bit).2 bits

/-- HUFF by the bit-level path (43_huffman.md R730). -/
def huffBitLevel (tie : List HuffTree → HuffTree × HuffTree) (S : List Byte) (cap : Nat) : Result :=
  let lens := huffLengths tie S
  let table := canonical lens
  okWithin cap (headerBytes lens ++ packBits ⟨0, 0⟩ (S.flatMap (codeBitsOf table)))

/-- PUFF by the bit-level path, which is the loop of R720 (43_huffman.md R730). -/
def puffBitLevel : List Byte → Nat → Result := puffF

/-! ## The automaton path (R750 to R753) -/

/-- An entry ENC[(k, v), b], the carry as a packer of k bits with value v (43_huffman.md R750). DESIGN CHOICE (log 28): the
entry is computed where it is looked up. -/
def encEntry (table : List CodeRow) (p : Packer) (b : Byte) : List Byte × Packer :=
  let w := codeBits p.acc p.count ++ codeBitsOf table b
  let q := w.length / 8
  (packMsb (w.take (8 * q)), ⟨bitsValue (w.drop (8 * q)), w.length - 8 * q⟩)

/-- The run of the encode automaton (43_huffman.md R751). -/
def encRun (table : List CodeRow) (p : Packer) : List Byte → List Byte
  | [] => flushPacker p
  | b :: S => (encEntry table p b).1 ++ encRun table (encEntry table p b).2 S

/-- HUFF by the automaton path (43_huffman.md R751). -/
def huffAutomaton (tie : List HuffTree → HuffTree × HuffTree) (S : List Byte) (cap : Nat) : Result :=
  let lens := huffLengths tie S
  let table := canonical lens
  okWithin cap (headerBytes lens ++ encRun table ⟨0, 0⟩ S)

/-- The byte whose code is the bit string u, if any (43_huffman.md R752). -/
def codeAt (table : List CodeRow) (u : List Bool) : Option Byte :=
  (table.find? fun row => codeBits row.code row.len == u).map fun row => BitVec.ofNat 8 row.byte

/-- The walk of the code tree along bits, from the node u: the symbols met, and the last node (43_huffman.md R752). -/
def decWalk (table : List CodeRow) (u : List Bool) : List Bool → List Byte × List Bool
  | [] => ([], u)
  | bit :: bits =>
      match codeAt table (u ++ [bit]) with
      | some b =>
          let r := decWalk table [] bits
          (b :: r.1, r.2)
      | none => decWalk table (u ++ [bit]) bits

/-- An entry DEC[z, y]: one input byte followed from node z, most significant bit first (43_huffman.md R752). DESIGN CHOICE
(log 28): a node is its bit string, and the entry is computed where it is looked up. -/
def decEntry (table : List CodeRow) (z : List Bool) (y : Byte) : List Byte × List Bool :=
  decWalk table z (codeBits y.toNat 8)

/-- The symbols of one entry put out, then the rest of the run; DST_OVERFLOW when there is no room (43_huffman.md
R753). -/
def emitSymbols (room : Nat) (rest : Nat → Result) : List Byte → Result
  | [] => rest room
  | b :: syms =>
      match room with
      | 0 => .err .dstOverflow 0
      | room + 1 => consResult b (emitSymbols room rest syms)

/-- u is one of Z_0 to Z_7: at most seven zero bits (43_huffman.md R752, R753). -/
def isZeroNode (u : List Bool) : Bool := u.length ≤ 7 && u.all (! ·)

/-- The run of the decode automaton from node u (43_huffman.md R753). -/
def decRun (table : List CodeRow) (u : List Bool) (room : Nat) : List Byte → Result
  | [] => if isZeroNode u then .ok [] else .err .puffBadPayload 0
  | y :: payload =>
      emitSymbols room (fun room => decRun table (decEntry table u y).2 room payload) (decEntry table u y).1

/-- PUFF by the automaton path (43_huffman.md R753). -/
def puffAutomaton : List Byte → Nat → Result :=
  puffWith fun table payload cap => decRun table [] cap payload

/-! ## Path selection and the meanings (R719, R721, R760) -/

/-- PUFF with PATH auto: bit-level below the threshold, the automaton from it on (43_huffman.md R760). -/
def puffAuto (S : List Byte) (cap : Nat) : Result :=
  if S.length < Config.huffAutoThreshold then puffBitLevel S cap else puffAutomaton S cap

/-- HUFF, PATH auto: the automaton path (43_huffman.md R719, R760). -/
def execHuff (s : State) : Host.Outcome State Fault Refusal :=
  .next (complete (dataResult s (huffAutomaton (tieOf s.cfg.huffTie))) s)

/-- HUFF, PATH bit-level (43_huffman.md R719, R760). -/
def execHuffBit (s : State) : Host.Outcome State Fault Refusal :=
  .next (complete (dataResult s (huffBitLevel (tieOf s.cfg.huffTie))) s)

/-- HUFF, PATH automaton (43_huffman.md R719, R760). -/
def execHuffFsm (s : State) : Host.Outcome State Fault Refusal :=
  .next (complete (dataResult s (huffAutomaton (tieOf s.cfg.huffTie))) s)

/-- PUFF, PATH auto (43_huffman.md R721, R760). -/
def execPuff (s : State) : Host.Outcome State Fault Refusal :=
  .next (complete (dataResult s puffAuto) s)

/-- PUFF, PATH bit-level (43_huffman.md R721, R760). -/
def execPuffBit (s : State) : Host.Outcome State Fault Refusal :=
  .next (complete (dataResult s puffBitLevel) s)

/-- PUFF, PATH automaton (43_huffman.md R721, R760). -/
def execPuffFsm (s : State) : Host.Outcome State Fault Refusal :=
  .next (complete (dataResult s puffAutomaton) s)

end Sys2Proof.Machine
end

