-- ==== Sys2Proof/Machine/Sequencer.lean ====
section
/-! DEFINITION. The meanings of NOP, the illegal words, and the two control words (40_sequencer.md sections 3 and 4). A
command's meaning is its completion step: what the engine does with the latched operands when its turn comes (log 18). -/

namespace Sys2Proof.Machine

/-- NOP completes with an empty output and no window check (40_sequencer.md R430). -/
def execNop (s : State) : Host.Outcome State Fault Refusal :=
  .next (complete (.ok []) s)

/-- An illegal word completes with ILLEGAL_CMD, whatever its fields (40_sequencer.md R431). -/
def execIllegal (_op : BitVec 4) (_path : BitVec 2) (_rsv : BitVec 26) (s : State) : Host.Outcome State Fault Refusal :=
  .next (complete (.err .illegalCmd 0) s)

/-- A write to CTRL sets IE and, with SRST, then resets everything, IE too (40_sequencer.md R440, R441). The ignored bits
have no effect (30_encoding.md R308). -/
def execCtrlWrite (ie srst : Bool) (_ignored : BitVec 30) (s : State) : Host.Outcome State Fault Refusal :=
  let written := { s with ie := ie }
  .next (if srst then softReset written else written)

/-- A write to STATUS clears DONE and OVERRUN where its bits are one (40_sequencer.md R442). -/
def execStatusW1c (doneClr overrunClr _ignored0 _ignored2 : Bool) (_ignored : BitVec 28) (s : State) :
    Host.Outcome State Fault Refusal :=
  .next (clearFlags doneClr overrunClr s)

end Sys2Proof.Machine
end

