-- ==== Sys2Proof/Machine/Unbwt.lean ====
section
/-! DEFINITION. UNBWT: the inverse of BWT by the successor array (42_unbwt.md section 1), and the meaning. -/

namespace Sys2Proof.Machine

/-- `sym(r)`: the sentinel slot counts as symbol 256 (42_unbwt.md R600). -/
def rowSymbol (rows : List Byte) (sent r : Nat) : Nat :=
  if r = sent then 256 else (rows.getD r 0).toNat

/-- `count[c]` for c = 0 to 256 (42_unbwt.md R600). -/
def symbolCounts (symbols : List Nat) : List Nat :=
  (List.range 257).map fun c => symbols.count c

/-- `first[c]`: the running sums of the counts, from `acc` (42_unbwt.md R600). -/
def runningSums (acc : Nat) : List Nat → List Nat
  | [] => []
  | c :: cs => acc :: runningSums (acc + c) cs

/-- The loop that fills `succ`: row r goes to its symbol's next unused slot (42_unbwt.md R600). -/
def fillSuccessors (r : Nat) (first succ : List Nat) : List Nat → List Nat
  | [] => succ
  | c :: symbols =>
      let slot := first.getD c 0
      fillSuccessors (r + 1) (first.set c (slot + 1)) (succ.set slot r) symbols

/-- `succ`, for the row symbols in row order (42_unbwt.md R600). -/
def successors (symbols : List Nat) : List Nat :=
  fillSuccessors 0 (runningSums 0 (symbolCounts symbols)) (List.replicate symbols.length 0) symbols

/-- The walk: n bytes emitted, from row j (42_unbwt.md R600). -/
def walkRows (rows : List Byte) (succ : List Nat) : Nat → Nat → List Byte
  | 0, _ => []
  | n + 1, j => rows.getD j 0 :: walkRows rows succ n (succ.getD j 0)

/-- `UNBWT_f(R, cap)`, its checks in the order written (42_unbwt.md R600). -/
def unbwtF (R : List Byte) (cap : Nat) : Result :=
  if R.length < 10 ∨ Config.bwtMaxN < R.length - 9 then .err .unbwtRecordSize 0 else
  let N := R.length - 9
  let prim := be32At R 0
  let sent := be32At R 4
  if N < prim ∨ N < sent then .err .unbwtIndexRange 0 else
  let rows := R.drop 8
  if rows.getD sent 0 ≠ 0x00 then .err .unbwtFiller 0
  else if cap < N then .err .dstOverflow 0 else
  let succ := successors ((List.range (N + 1)).map (rowSymbol rows sent))
  let out := walkRows rows succ (N + 1) prim
  if out.getD N 0 ≠ 0x00 then .err .unbwtConsistency 0 else .ok (out.take N)

/-- UNBWT (42_unbwt.md R601). -/
def execUnbwt (s : State) : Host.Outcome State Fault Refusal :=
  .next (complete (dataResult s unbwtF) s)

end Sys2Proof.Machine
end

