-- ==== Sys2Proof/Machine/Dispatch.lean ====
section
/-! DEFINITION. One arm per instruction. A command's arm is its completion step on the latched operands
(40_sequencer.md R411), a control word's arm the effect of the write. -/

namespace Sys2Proof.Machine

def exec (i : Instr) (s : State) : Host.Outcome State Fault Refusal :=
  match i with
  | .nop => Sys2Proof.Machine.execNop s
  | .bwt => Sys2Proof.Machine.execBwt s
  | .unbwt => Sys2Proof.Machine.execUnbwt s
  | .huff => Sys2Proof.Machine.execHuff s
  | .huffBit => Sys2Proof.Machine.execHuffBit s
  | .huffFsm => Sys2Proof.Machine.execHuffFsm s
  | .puff => Sys2Proof.Machine.execPuff s
  | .puffBit => Sys2Proof.Machine.execPuffBit s
  | .puffFsm => Sys2Proof.Machine.execPuffFsm s
  | .arith => Sys2Proof.Machine.execArith s
  | .unarith => Sys2Proof.Machine.execUnarith s
  | .illegal op path rsv => Sys2Proof.Machine.execIllegal op path rsv s
  | .ctrlWrite ie srst ignored => Sys2Proof.Machine.execCtrlWrite ie srst ignored s
  | .statusW1c doneClr overrunClr ignored0 ignored2 ignored => Sys2Proof.Machine.execStatusW1c doneClr overrunClr ignored0 ignored2 ignored s

end Sys2Proof.Machine
end

