-- ==== Sys2Proof/Machine/HostPort.lean ====
section
/-! DEFINITION. The host agent: what each of its accesses does to the machine (00_scope.md R10,
70_reset_and_hazards.md R1040). -/

namespace Sys2Proof.Machine

/-- A 32-bit host write of v to register k of the block. A write to CTRL or STATUS runs the instruction the word
decodes to (30_encoding.md R308); a write to CMD issues or overruns; the rest is `writeBuffer` (40_sequencer.md R403,
R444). -/
def hostRegisterWrite (k : Nat) (v : Word) (s : State) : Host.Outcome State Fault Refusal :=
  match k with
  | 1 => exec (decodeCtrl v) s
  | 2 => .next (writeCmd v s)
  | 3 => exec (decodeStatus v) s
  | k => .next (writeBuffer k v s)

/-- A host byte access at an address outside host memory: refused in the register block, where only 32-bit accesses have
a meaning (20_memory.md R220), and a fault elsewhere (log 12). -/
def outsideMemory (addr : Nat) (s : State) : Host.Outcome State Fault Refusal :=
  if s.cfg.engineBase ≤ addr ∧ addr < s.cfg.engineBase + 256 then .refused (.badRegisterAccess addr 8)
  else .fault (.unmappedHostAddress addr)

/-- One host access. A register read has no effect but the value it returns (40_sequencer.md R443). -/
def hostAccess (a : HostAccess) (s : State) : Host.Outcome State Fault Refusal :=
  match a with
  | .regRead addr width =>
      match registerIndex s.cfg addr width with
      | some k => .next { s with hostData := readRegister s k }
      | none => .refused (.badRegisterAccess addr width)
  | .regWrite addr width v =>
      match registerIndex s.cfg addr width with
      | some k => hostRegisterWrite k v s
      | none => .refused (.badRegisterAccess addr width)
  | .memRead addr => if addr < s.cfg.memSize then .next (hostLoad addr s) else outsideMemory addr s
  | .memWrite addr v => if addr < s.cfg.memSize then .next (hostStore addr v s) else outsideMemory addr s
  | .reset => .next (softReset s)

/-- The engine's turn: while BUSY the running command completes, as the instruction its latched word decodes to; while
IDLE the engine has no step (40_sequencer.md R411, R420). -/
def engineTurn (s : State) : Host.Outcome State Fault Refusal :=
  match s.phase with
  | .idle => .next s
  | .busy => exec (decodeCmd s.latch.cmd) s

end Sys2Proof.Machine
end

