-- ==== Sys2Proof/Machine/Step.lean ====
section
/-! DEFINITION. One step of the machine, and how a command word is placed so that the next step runs it. -/

namespace Sys2Proof.Machine

/-- One step: the next event of the schedule. With no event left the engine completes a running command, whose completion
is still owed (40_sequencer.md R422, 70_reset_and_hazards.md R1041; log 3). A configuration that breaks 00_scope.md R21
is refused. -/
def step (s : State) : Host.Outcome State Fault Refusal :=
  if s.cfg.legal then
    match s.schedule with
    | [] => engineTurn s
    | .engine :: rest => engineTurn { s with schedule := rest }
    | .host a :: rest => hostAccess a { s with schedule := rest }
  else .refused .illegalConfiguration

/-- The state in which the command word w has been issued (40_sequencer.md R400) and the engine has the next turn, so that
the next step runs it (log 17). A command word has 32 bits; `nbits` is not needed. -/
def State.withFetchWord (s : State) (_nbits w : Nat) : State :=
  { issue (BitVec.ofNat 32 w) s with schedule := .engine :: s.schedule }

end Sys2Proof.Machine
end

