-- ==== Sys2Proof/Machine/SuffixTree.lean ====
section
/-! DEFINITION. The BWT engine's internal procedure: online suffix-tree construction, depth-first traversal and the arenas
(41_bwt.md sections 2 to 4). `execBwt` runs the pure function of section 1 and not this (R150, R500; log 20); the two must
agree (R540). `none` stands for a violated tree invariant (R524, 93_implementation_defined.md U14). -/

namespace Sys2Proof.Machine

/-- An edge (41_bwt.md R512). A synthetic edge leads from BOTTOM to ROOT; a leaf edge's right boundary is implicit. The category is a stored tag, the constructor (DESIGN CHOICE, log 27). -/
inductive TreeEdge where
  | synthetic (left : Int)
  | leaf (left : Int)
  | hybrid (left : Int) (right child : Nat)
deriving DecidableEq, Repr

/-- An edge's identity: its index in the fixed or in the growable arena (41_bwt.md R560). -/
inductive EdgeRef where
  | fixed (i : Nat)
  | growable (i : Nat)
deriving DecidableEq, Repr

/-- A node: its outgoing edges by increasing first symbol, and its suffix link (41_bwt.md R511). -/
structure TreeNode where
  edges : List EdgeRef
  link  : Option Nat
deriving DecidableEq, Repr

/-- The node store and the two arenas (10_state.md R151), each a flat list in order of allocation. DESIGN CHOICE (log 27):
the growable arena has no chunks, so ARENA_CHUNK is not read, and internal nodes have a list of their own; 41_bwt.md R560
leaves the layout open. -/
structure TreeStore where
  nodes    : List TreeNode
  fixed    : List TreeEdge
  growable : List TreeEdge
deriving DecidableEq, Repr

/-- The active point (s, k) in a store (41_bwt.md R514). -/
structure ActivePoint where
  node  : Nat
  index : Nat
deriving DecidableEq, Repr

/-- Node index 0 (41_bwt.md R511). -/
def bottomNode : Nat := 0

/-- Node index 1 (41_bwt.md R511). -/
def rootNode : Nat := 1

/-- The wrapped text view t(j) (41_bwt.md R510). -/
def wrappedText (T : List Byte) (j : Int) : Nat :=
  if j < 0 then (-(j + 1)).toNat
  else match T[j.toNat]? with
    | some y => y.toNat
    | none => 256

/-- The left boundary of an edge (41_bwt.md R512). -/
def edgeLeft : TreeEdge → Int
  | .synthetic left => left
  | .leaf left => left
  | .hybrid left _ _ => left

/-- The edge with another left boundary, its kind kept (41_bwt.md R521). -/
def moveLeft (left : Int) : TreeEdge → TreeEdge
  | .synthetic _ => .synthetic left
  | .leaf _ => .leaf left
  | .hybrid _ right child => .hybrid left right child

/-- The edge a reference names. -/
def getEdge (st : TreeStore) : EdgeRef → Option TreeEdge
  | .fixed i => st.fixed[i]?
  | .growable i => st.growable[i]?

/-- The store with another edge under a reference. -/
def setEdge (st : TreeStore) (e : TreeEdge) : EdgeRef → TreeStore
  | .fixed i => { st with fixed := st.fixed.set i e }
  | .growable i => { st with growable := st.growable.set i e }

/-- sym(e), the first symbol of the edge a reference names (41_bwt.md R512). -/
def edgeSymbol (T : List Byte) (st : TreeStore) (ref : EdgeRef) : Option Nat :=
  (getEdge st ref).map fun e => wrappedText T (edgeLeft e)

/-- The outgoing edges of a node. -/
def edgesOf (st : TreeStore) (n : Nat) : List EdgeRef :=
  match st.nodes[n]? with
  | some node => node.edges
  | none => []

/-- The store with another edge list at a node. -/
def setEdges (st : TreeStore) (n : Nat) (edges : List EdgeRef) : TreeStore :=
  { st with nodes := st.nodes.modify n fun node => { node with edges := edges } }

/-- The store with a suffix link set (41_bwt.md R522). -/
def setLink (st : TreeStore) (n target : Nat) : TreeStore :=
  { st with nodes := st.nodes.modify n fun node => { node with link := some target } }

/-- `find(n, c)` (41_bwt.md R513). -/
def findEdge (T : List Byte) (st : TreeStore) (n c : Nat) : Option EdgeRef :=
  (edgesOf st n).find? fun ref => edgeSymbol T st ref == some c

/-- A reference put before the first edge whose symbol is greater than c (41_bwt.md R513). -/
def insertRef (T : List Byte) (st : TreeStore) (c : Nat) (ref : EdgeRef) : List EdgeRef → List EdgeRef
  | [] => [ref]
  | r :: rs =>
      if c < (edgeSymbol T st r).getD 0 then ref :: r :: rs else r :: insertRef T st c ref rs

/-- `insert(n, e)` (41_bwt.md R513). -/
def insertEdge (T : List Byte) (st : TreeStore) (n : Nat) (ref : EdgeRef) : TreeStore :=
  setEdges st n (insertRef T st ((edgeSymbol T st ref).getD 0) ref (edgesOf st n))

/-- `replace(n, e, e')` (41_bwt.md R513). -/
def replaceEdge (st : TreeStore) (n : Nat) (old new : EdgeRef) : TreeStore :=
  setEdges st n ((edgesOf st n).map fun ref => if ref = old then new else ref)

/-- BOTTOM with its 257 synthetic edges, ROOT with none, and the two arenas (41_bwt.md R514). -/
def initStore : TreeStore where
  nodes := [⟨(List.range 257).map EdgeRef.fixed, none⟩, ⟨[], none⟩]
  fixed := (List.range 257).map fun c => .synthetic (-(Int.ofNat c + 1))
  growable := []

/-- `canonize(s, k, p)` with q = p + 1; every pass moves k forward, so q - k passes suffice (41_bwt.md R520). -/
def canonize (T : List Byte) (st : TreeStore) (q : Nat) : (passes : Nat) → ActivePoint → Option ActivePoint
  | 0, a => some a
  | n + 1, a =>
      if a.index < q then
        match (findEdge T st a.node (wrappedText T a.index)).bind (getEdge st) with
        | none => none
        | some (.leaf _) => some a
        | some (.synthetic _) => canonize T st q n ⟨rootNode, a.index + 1⟩
        | some (.hybrid left right child) =>
            let span := (Int.ofNat right - left).toNat
            if q - 1 - a.index < span then some a else canonize T st q n ⟨child, a.index + span + 1⟩
      else some a

/-- What test_and_split answers: whether the end point is reached, the node to extend, and the store. -/
structure SplitResult where
  reached : Bool
  node    : Nat
  store   : TreeStore
deriving DecidableEq, Repr

/-- `test_and_split(s, k, p, c)` with q = p + 1 (41_bwt.md R521). A synthetic edge is never split. -/
def testAndSplit (T : List Byte) (st : TreeStore) (a : ActivePoint) (q c : Nat) : Option SplitResult :=
  if a.index < q then
    match findEdge T st a.node (wrappedText T a.index) with
    | none => none
    | some ref =>
        match getEdge st ref with
        | none => none
        | some (.synthetic _) => none
        | some e =>
            let tail := edgeLeft e + Int.ofNat (q - a.index)
            if c = wrappedText T tail then some ⟨true, a.node, st⟩ else
            let r := st.nodes.length
            let h := EdgeRef.growable st.growable.length
            let grown : TreeStore :=
              { st with
                nodes := st.nodes ++ [⟨[], none⟩]
                growable := st.growable ++ [.hybrid (edgeLeft e) (tail - 1).toNat r] }
            let split := setEdge (replaceEdge grown a.node ref h) (moveLeft tail e) ref
            some ⟨false, r, insertEdge T split r ref⟩
  else if a.node = bottomNode then some ⟨true, a.node, st⟩
  else some ⟨(findEdge T st a.node c).isSome, a.node, st⟩

/-- The loop of `update(s, k, i)`: each pass adds one leaf, so N + 2 passes suffice (41_bwt.md R522). -/
def updateLoop (T : List Byte) (i : Nat) :
    (passes : Nat) → (oldr : Nat) → ActivePoint → SplitResult → Option (ActivePoint × TreeStore)
  | 0, _, _, _ => none
  | n + 1, oldr, a, r =>
      if r.reached then
        some (a, if oldr = rootNode then r.store else setLink r.store oldr a.node)
      else
        let leaf := EdgeRef.fixed r.store.fixed.length
        let added := insertEdge T { r.store with fixed := r.store.fixed ++ [.leaf (Int.ofNat i)] } r.node leaf
        let linked := if oldr = rootNode then added else setLink added oldr r.node
        let target := if a.node = rootNode then some bottomNode else (linked.nodes[a.node]?).bind TreeNode.link
        match target with
        | none => none
        | some s =>
            match canonize T linked i (i - a.index) ⟨s, a.index⟩ with
            | none => none
            | some a' =>
                match testAndSplit T linked a' i (wrappedText T i) with
                | none => none
                | some r' => updateLoop T i n r.node a' r'

/-- One phase: `update(s, k, i)` and `canonize(s, k, i)` (41_bwt.md R522, R523). -/
def treePhase (T : List Byte) (i : Nat) (a : ActivePoint) (st : TreeStore) : Option (ActivePoint × TreeStore) :=
  match testAndSplit T st a i (wrappedText T i) with
  | none => none
  | some r =>
      match updateLoop T i (T.length + 2) rootNode a r with
      | none => none
      | some (a', st') => (canonize T st' (i + 1) (i + 1 - a'.index) a').map fun a'' => (a'', st')

/-- The construction loop over the phases of a list (41_bwt.md R523). -/
def buildPhases (T : List Byte) : List Nat → ActivePoint → TreeStore → Option TreeStore
  | [], _, st => some st
  | i :: is, a, st =>
      match treePhase T i a st with
      | none => none
      | some (a', st') => buildPhases T is a' st'

/-- The finished tree, with R524's counts checked: N + 1 leaf edges and at most N + 1 nodes. -/
def buildTree (T : List Byte) : Option TreeStore :=
  match buildPhases T (List.range (T.length + 1)) ⟨rootNode, 0⟩ initStore with
  | none => none
  | some st =>
      if st.fixed.length = 257 + (T.length + 1) ∧ st.nodes.length ≤ T.length + 1 then some st else none

/-- The traversal by an explicit stack of (edge, depth) entries: the leaf path lengths in order (41_bwt.md R530). Every
edge is popped once. DESIGN CHOICE (log 28): the stack is a list, its top first, that holds the edges still to visit. -/
def traverse (N : Nat) (st : TreeStore) : (pops : Nat) → List (EdgeRef × Nat) → List Nat
  | 0, _ => []
  | _, [] => []
  | n + 1, (ref, depth) :: stack =>
      match getEdge st ref with
      | some (.leaf left) => (depth + (Int.ofNat N - left + 1).toNat) :: traverse N st n stack
      | some (.hybrid left right child) =>
          let deeper := depth + (Int.ofNat right - left + 1).toNat
          traverse N st n ((edgesOf st child).map (fun r => (r, deeper)) ++ stack)
      | _ => traverse N st n stack

/-- The leaf path lengths of the finished tree, in row order. -/
def leafLengths (N : Nat) (st : TreeStore) : List Nat :=
  traverse N st (st.fixed.length + st.growable.length) ((edgesOf st rootNode).map fun r => (r, 0))

/-- `emit(L)`: the byte of a row (41_bwt.md R531). -/
def emitRow (T : List Byte) (L : Nat) : Byte :=
  if T.length < L then 0x00 else T.getD (T.length - L) 0

/-- The engine's output for a block (41_bwt.md R531). -/
def treeRecord (T : List Byte) : Option (List Byte) :=
  match buildTree T with
  | none => none
  | some st =>
      let lengths := leafLengths T.length st
      some (be32 (lengths.idxOf T.length) ++ be32 (lengths.idxOf (T.length + 1)) ++ lengths.map (emitRow T))

end Sys2Proof.Machine
end

