-- ==== Sys2Proof/Safety.lean ====
section
/-! DEFINITION. What counts as a safe state and a safe run, and the other terms the claims use. -/

namespace Sys2Proof.Machine

/-! ## The invariant -/

/-- STATUS holds one of 10_state.md R114's legal value combinations, and ERRCODE a value of 60_exceptions.md R900. -/
structure State.LegalStatus (s : State) : Prop where
  busyClears : s.phase = .busy → s.done = false ∧ s.err = false ∧ s.errCode = 0
  errHasCode : s.err = true → s.errCode ≠ 0
  okHasNone : s.err = false → s.errCode = 0
  namedCode : s.errCode = 0 ∨ ∃ code, s.errCode = errCodeByte code

/-- While a command runs, its latches equal the registers (10_state.md R141) and RESULT_LEN and ERR_INFO read 0
(40_sequencer.md R443). -/
structure State.LatchedOperands (s : State) : Prop where
  latches : s.phase = .busy → s.latch = ⟨s.cmd, s.srcAddr, s.srcLen, s.dstAddr, s.dstCap⟩
  noResultYet : s.phase = .busy → s.resultLen = 0 ∧ s.errInfo = 0

/-- The invariant of the machine: memory canonical and inside host memory, STATUS legal, operands latched. -/
structure State.Inv (s : State) : Prop where
  memCanonical : Memory.wf s.mem
  memInside : ∀ c ∈ s.mem, c.1 < s.cfg.memSize
  status : s.LegalStatus
  operands : s.LatchedOperands

/-! ## Runs -/

/-- No host write has raced with the running command (70_reset_and_hazards.md R1021). -/
abbrev State.raceFree (s : State) : Prop := s.touched = false

/-- A run is over when the host has made its last access and no command is pending (70_reset_and_hazards.md R1041). -/
abbrev State.runOver (s : State) : Prop := s.schedule = [] ∧ s.phase = .idle

/-- The state with a 32-bit host write of v to register k as the next event. -/
def State.withWrite (s : State) (k : Nat) (v : Word) : State :=
  { s with schedule := .host (.regWrite (s.cfg.engineBase + 4 * k) 32 v) :: s.schedule }

/-- The state with a 32-bit host read of register k as the next event. -/
def State.withRead (s : State) (k : Nat) : State :=
  { s with schedule := .host (.regRead (s.cfg.engineBase + 4 * k) 32) :: s.schedule }

/-- The state with another host access as the next event. -/
def State.withAccess (s : State) (a : HostAccess) : State :=
  { s with schedule := .host a :: s.schedule }

/-- The next event is the engine's turn: its entry in the schedule, or nothing else left. -/
def State.engineNext (s : State) : Prop :=
  s.schedule = [] ∨ ∃ rest, s.schedule = .engine :: rest

/-! ## What a command's completion leaves -/

/-- A successful completion with an output (40_sequencer.md R420): the registers it writes and no others, the output at
DST, and every other byte of host memory as it was. -/
structure Succeeds (s t : State) (out : List Byte) : Prop where
  registers : t = { s with phase := .idle, done := true, err := false, errCode := 0, errInfo := 0,
                           resultLen := BitVec.ofNat 32 out.length, mem := t.mem }
  output : ∀ k, k < out.length → readByte t.mem (s.latch.dstAddr.toNat + k) = out.getD k 0
  frame : ∀ a, inWindow s.latch.dstAddr.toNat out.length a = false → readByte t.mem a = readByte s.mem a

/-- An error completion (40_sequencer.md R421, 60_exceptions.md R903): the error record, no other register, and host
memory unchanged outside the DST window, or everywhere for an error that comes before every access. `draws` is the
model's own counter. -/
structure Fails (s t : State) (code : ErrCode) (info : Word) : Prop where
  registers : t = { s with phase := .idle, done := true, err := true, errCode := errCodeByte code, errInfo := info,
                           resultLen := 0, mem := t.mem, draws := t.draws }
  frame : ∀ a, touchesNoMemory code = true ∨ inDstWindow s a = false → readByte t.mem a = readByte s.mem a

/-- A completion with a result. -/
def CompletesWith (s t : State) : Result → Prop
  | .ok out => Succeeds s t out
  | .err code info => Fails s t code info

/-- The six operations' pure functions by instruction, PATH having no part in them (40_sequencer.md R411); none for an
instruction that is no data command. -/
def commandFunction (c : Config) : Instr → Option (List Byte → Nat → Result)
  | .bwt => some bwtF
  | .unbwt => some unbwtF
  | .huff | .huffBit | .huffFsm => some (huffF (tieOf c.huffTie))
  | .puff | .puffBit | .puffFsm => some puffF
  | .arith => some (arithF c)
  | .unarith => some (unarithF c)
  | .nop | .illegal _ _ _ | .ctrlWrite _ _ _ | .statusW1c _ _ _ _ _ => none

/-- `Exec(cmd, S, dst_cap)` of a command instruction (40_sequencer.md R411); none for the two control words. -/
def commandResult (s : State) (i : Instr) : Option Result :=
  match i with
  | .nop => some (.ok [])
  | .illegal _ _ _ => some (.err .illegalCmd 0)
  | .ctrlWrite _ _ _ | .statusW1c _ _ _ _ _ => none
  | i => (commandFunction s.cfg i).map (dataResult s)

/-! ## Terms of the algorithm families -/

/-- A tie policy is legal: on a forest of at least two trees with distinct sequence numbers it answers two distinct
members, the first of least weight and the second of least weight among the rest (43_huffman.md R711). -/
def LegalTie (tie : List HuffTree → HuffTree × HuffTree) : Prop :=
  ∀ forest : List HuffTree, 2 ≤ forest.length → (forest.map treeSeq).Nodup →
    (tie forest).1 ∈ forest ∧ (tie forest).2 ∈ forest ∧ (tie forest).1 ≠ (tie forest).2 ∧
    (∀ z ∈ forest, treeWeight (tie forest).1 ≤ treeWeight z) ∧
    ∀ z ∈ forest, z ≠ (tie forest).1 → treeWeight (tie forest).2 ≤ treeWeight z

/-- An arithmetic model the coder can hold: 257 frequencies, each at least 1, their total within the ceiling
(44_arith.md R807). -/
structure LegalModel (c : Config) (freq : List Nat) : Prop where
  symbols : freq.length = 257
  positive : ∀ f ∈ freq, 1 ≤ f
  total : totalFreq freq ≤ c.arithCeil

/-- The interval before every narrowing: inside [0, TOP] and wider than Q (44_arith.md R845). -/
structure WideInterval (c : Config) (i : Interval) : Prop where
  nonempty : i.low < i.high
  inside : i.high ≤ coderTop c
  wide : coderQuarter c < i.high - i.low

/-- V lies in an interval (44_arith.md R845). -/
def Interval.Holds (i : Interval) (v : Nat) : Prop := i.low ≤ v ∧ v < i.high

/-- `order` of R500: a permutation of 0..=N that puts the suffixes of X in strictly increasing order (41_bwt.md R500). -/
def SortsSuffixes (T : List Byte) (order : List Nat) : Prop :=
  order.Perm (List.range (T.length + 1)) ∧
  order.Pairwise fun p q => suffixLt ((textWithSentinel T).drop p) ((textWithSentinel T).drop q) = true

/-- `succ` of R600: the rows by increasing symbol and within a symbol by increasing row, the sentinel row's symbol counting
as 256 (42_unbwt.md R600). -/
def StableRowOrder (rows : List Byte) (sent : Nat) (succ : List Nat) : Prop :=
  succ.Perm (List.range rows.length) ∧
  succ.Pairwise fun r r' =>
    rowSymbol rows sent r < rowSymbol rows sent r' ∨ (rowSymbol rows sent r = rowSymbol rows sent r' ∧ r < r')

/-- A bit string read as the codes of symbols and a rest that begins with no code (43_huffman.md R720). -/
def ReadsAs (table : List CodeRow) (bits : List Bool) (symbols : List Byte) (rest : List Bool) : Prop :=
  bits = symbols.flatMap (codeBitsOf table) ++ rest ∧ ∀ row ∈ table, ¬codeBits row.code row.len <+: rest

end Sys2Proof.Machine
end

