-- ==== Sys2Proof/Certificates/Slice0/Obligations.lean ====
section
/-! DEFINITION. The statements for the provers. -/

open Sys2Proof Sys2Proof.Machine

/-! ## Encoding -/

/-- Decoding the encoded word of a well-formed instruction, written at its own register, gives the instruction back, with
every field at every value (30_encoding.md sections 1 and 3). -/
def Obligations.DecodeOfEncodeIsTheInstruction : Prop :=
  ∀ i : Instr, i.wf = true → decodeAt i.port.offset (encode i) = .ok i

/-- Every word at every port is the encoding of the well-formed instruction it decodes to: no bit is dropped
(30_encoding.md sections 1 and 3). -/
def Obligations.EncodeOfDecodeIsTheWord : Prop :=
  ∀ (p : Port) (w : Word), encode (decodePort p w) = w ∧ (decodePort p w).port = p ∧ (decodePort p w).wf = true

/-- R304: legality is the four conditions on the fields, the legal words are the eleven listed, each selects exactly one
row of the table, and every other word is ILLEGAL. -/
def Obligations.LegalWordsAreTheElevenTableRows : Prop :=
  ∀ w : Word,
    (legal w = true ↔
      w.extractLsb' 6 26 = 0 ∧ (w.extractLsb' 0 4).toNat ≤ 6 ∧ w.extractLsb' 4 2 ≠ 3 ∧
        (w.extractLsb' 4 2 = 0 ∨ w.extractLsb' 0 4 = 3 ∨ w.extractLsb' 0 4 = 4)) ∧
    (legal w = true ↔ w.toNat ∈ [0x00, 0x01, 0x02, 0x03, 0x04, 0x05, 0x06, 0x13, 0x14, 0x23, 0x24]) ∧
    (legal w = true → ∃ i, opcodeRows.filter (fun row => row.1 == w) = [(w, i)] ∧ decodeCmd w = i) ∧
    (legal w = false →
      decodeCmd w = .illegal (w.extractLsb' 0 4) (w.extractLsb' 4 2) (w.extractLsb' 6 26))

/-- Sample words of each family, written out from R300, R301, R302 and R308, decode to their instructions. -/
def Obligations.WrittenOutWordsDecode : Prop :=
  decodeCmd 0b00000000000000000000000000000000#32 = .nop ∧
  decodeCmd 0b00000000000000000000000000000001#32 = .bwt ∧
  decodeCmd 0b00000000000000000000000000100011#32 = .huffFsm ∧
  decodeCmd 0b00000000000000000000000000010100#32 = .puffBit ∧
  decodeCmd 0b00000000000000000000000000000110#32 = .unarith ∧
  decodeCmd 0b00000000000000000000000001010001#32 = .illegal 0b0001#4 0b01#2 0b1#26 ∧
  decodeCtrl 0b00000000000000000000000000000110#32 = .ctrlWrite false true 0b1#30 ∧
  decodeStatus 0b00000000000000000000000000011000#32 = .statusW1c false true false false 0b1#28

/-! ## The machine's step -/

/-- When the engine moves while a command runs, the step is `exec` of the instruction the latched word decodes to, on the
state with the event taken off the schedule; a host write to CTRL or STATUS is `exec` of the instruction its word decodes
to (30_encoding.md R308, 40_sequencer.md section 2). The schedule and its end are the model's choice (log 2, log 3). The last
clause is the model's choice whole (log 17): a word placed by `withFetchWord` takes effect as an issue with the engine's turn
next, in every phase, while a CMD write of the host issues only when IDLE. -/
def Obligations.StepRunsTheDecodedInstruction : Prop :=
  ∀ s : State, s.cfg.legal = true →
    (s.phase = .busy → s.schedule = [] → step s = exec (decodeCmd s.latch.cmd) s) ∧
    (s.phase = .busy → ∀ rest, s.schedule = .engine :: rest →
      step s = exec (decodeCmd s.latch.cmd) { s with schedule := rest }) ∧
    (∀ v, step (s.withWrite 1 v) = exec (decodeCtrl v) s) ∧
    (∀ v, step (s.withWrite 3 v) = exec (decodeStatus v) s) ∧
    (∀ nbits w, step (s.withFetchWord nbits w) =
      exec (decodeCmd (BitVec.ofNat 32 w)) (issue (BitVec.ofNat 32 w) s))

/-- The invariant holds right after reset, in every configuration. -/
def Obligations.ResetStateMeetsTheInvariant : Prop :=
  ∀ c : Config, (State.resetWith c).Inv

/-- Every step from a state that meets the invariant, reachable or not, leads to a state that meets it: host memory stays
canonical and inside MEM_SIZE, STATUS keeps to R114's legal combinations and R900's codes, and while BUSY the latches
equal the registers and no result shows. -/
def Obligations.EveryStepKeepsTheInvariant : Prop :=
  ∀ s t : State, s.Inv → step s = .next t → t.Inv

/-- R422's other half: a running command never hangs. When the engine moves, the step answers a next state in which the
command has completed. -/
def Obligations.RunningCommandCompletesWhenTheEngineMoves : Prop :=
  ∀ s : State, s.cfg.legal = true → s.phase = .busy → s.engineNext →
    ∃ t, step s = .next t ∧ t.phase = .idle ∧ t.done = true

/-- R140: only an issue makes an idle sequencer BUSY, and only completion or a reset makes a BUSY one idle. -/
def Obligations.PhaseChangesOnlyByIssueCompletionAndReset : Prop :=
  ∀ s t : State, step s = .next t →
    (s.phase = .idle → t.phase = .busy →
      ∃ (w : Word) (u : State), s = u.withWrite 2 w ∧ t.cmd = w ∧ t.latch.cmd = w) ∧
    (s.phase = .busy → t.phase = .idle →
      s.engineNext ∨ (∃ u : State, s = u.withAccess .reset) ∨
        ∃ (u : State) (v : Word), s = u.withWrite 1 v ∧ v.getLsbD 1 = true)

/-- R265: no step changes the captured command, its operands or the buffer registers while the command goes on running. -/
def Obligations.RunningCommandCannotBeChanged : Prop :=
  ∀ s t : State, step s = .next t → s.phase = .busy → t.phase = .busy →
    t.latch = s.latch ∧ t.cmd = s.cmd ∧ t.srcAddr = s.srcAddr ∧ t.srcLen = s.srcLen ∧ t.dstAddr = s.dstAddr ∧
    t.dstCap = s.dstCap ∧ t.resultLen = s.resultLen ∧ t.errInfo = s.errInfo ∧ t.err = s.err ∧ t.errCode = s.errCode

/-- R911: a completion and a CTRL write without SRST leave the interrupt line at IE and DONE; the acknowledge, an issue
and either reset lower it; and nothing else raises or lowers it. -/
def Obligations.InterruptLineChangesOnlyAsListed : Prop :=
  ∀ s t : State, step s = .next t →
    (s.phase = .busy → s.engineNext → t.irq = s.ie) ∧
    (∀ (u : State) (v : Word), s = u.withWrite 1 v → v.getLsbD 1 = false → t.irq = (s.done && v.getLsbD 0)) ∧
    (∀ (u : State) (v : Word), s = u.withWrite 1 v → v.getLsbD 1 = true → t.irq = false) ∧
    (∀ u : State, s = u.withAccess .reset → t.irq = false) ∧
    (∀ (u : State) (v : Word), s = u.withWrite 3 v → v.getLsbD 1 = true → t.irq = false) ∧
    (∀ (u : State) (v : Word), s = u.withWrite 2 v → s.phase = .idle → t.irq = false) ∧
    (s.irq = false → t.irq = true →
      (s.phase = .busy ∧ s.engineNext ∧ s.ie = true) ∨
      (s.done = true ∧ ∃ (u : State) (v : Word), s = u.withWrite 1 v ∧ v.getLsbD 0 = true ∧ v.getLsbD 1 = false)) ∧
    (s.irq = true → t.irq = false →
      (∃ (u : State) (v : Word), s = u.withWrite 3 v ∧ v.getLsbD 1 = true) ∨
      (s.phase = .idle ∧ ∃ (u : State) (v : Word), s = u.withWrite 2 v) ∨
      (∃ (u : State) (v : Word), s = u.withWrite 1 v ∧ (v.getLsbD 0 = false ∨ v.getLsbD 1 = true)) ∨
      ∃ u : State, s = u.withAccess .reset)

/-- A step is refused as an illegal configuration exactly when a constraint of 00_scope.md's parameter table is broken, or
the register block is not kept out of host memory (the last condition is the model's reading, log 14). -/
def Obligations.IllegalConfigurationIsRefused : Prop :=
  ∀ s : State, step s = .refused .illegalConfiguration ↔
    ¬(11 ≤ s.cfg.arithW ∧ s.cfg.arithW ≤ 32 ∧ 1 ≤ s.cfg.arithInc ∧
      257 + 2 * s.cfg.arithInc ≤ s.cfg.arithCeil ∧ s.cfg.arithCeil ≤ 2 ^ (s.cfg.arithW - 2) ∧
      1 ≤ s.cfg.memSize ∧ s.cfg.memSize ≤ 2 ^ 32 ∧ s.cfg.engineBase % 256 = 0 ∧
      s.cfg.memSize ≤ s.cfg.engineBase)

/-! ## Registers, reset, issue -/

/-- After reset every register reads its reset value, the phase is IDLE, the latches and the race marker are clear and
the interrupt line is low, in every legal configuration (R1000's register part; the configuration `State.reset` carries is
the model's choice, log 4). -/
def Obligations.ResetRegistersReadTheirResetValues : Prop :=
  ∀ c : Config, c.legal = true →
    (readRegister (State.resetWith c) 0).toNat = 0x4E550700 ∧
    (readRegister (State.resetWith c) 10).toNat = 536870912 ∧
    (readRegister (State.resetWith c) 11).toNat = c.arithW ∧
    (readRegister (State.resetWith c) 12).toNat = c.arithCeil ∧
    (readRegister (State.resetWith c) 13).toNat = c.arithInc ∧
    (readRegister (State.resetWith c) 14).toNat = 6144 ∧
    (readRegister (State.resetWith c) 15).toNat = c.memSize - 1 ∧
    (∀ k, k ∉ [0, 10, 11, 12, 13, 14, 15] → readRegister (State.resetWith c) k = 0) ∧
    (State.resetWith c).phase = .idle ∧ (State.resetWith c).latch = ⟨0, 0, 0, 0, 0⟩ ∧
    (State.resetWith c).touched = false ∧ (State.resetWith c).irq = false ∧
    Config.reference.legal = true ∧ State.reset = State.resetWith Config.reference

/-- A CTRL write with SRST = 1, whatever its other bits, leaves every register at its reset value and the phase IDLE with
no completion; a command that was running loses its DST window to any values, and no other byte of host memory changes
(40_sequencer.md section 4). That "any value" is `Config.freeByte` at the draw counter is the model's form (log 7), and so is
the limit to the bytes below MEM_SIZE (log 8). -/
def Obligations.SoftResetDiscardsTheRunningCommand : Prop :=
  ∀ (s : State) (ie : Bool) (ignored : BitVec 30), Memory.wf s.mem →
    ∃ t, exec (.ctrlWrite ie true ignored) s = .next t ∧
      t = { State.resetWith s.cfg with
            mem := t.mem, schedule := s.schedule, hostData := s.hostData, draws := t.draws } ∧
      (s.phase = .idle → t.mem = s.mem) ∧
      (s.phase = .busy → ∀ a, inDstWindow s a = true → a < s.cfg.memSize →
        readByte t.mem a = Config.freeByte s.draws a) ∧
      ∀ a, inDstWindow s a = false → readByte t.mem a = readByte s.mem a

/-- R1001: the soft reset and the hardware reset input lead to the same state, that of R1000. -/
def Obligations.SoftResetEqualsHardwareReset : Prop :=
  ∀ (s : State) (v : Word), s.cfg.legal = true → v.getLsbD 1 = true →
    ∃ t, step (s.withWrite 1 v) = .next t ∧ step (s.withAccess .reset) = .next t ∧
      t = { State.resetWith s.cfg with
            mem := t.mem, schedule := s.schedule, hostData := s.hostData, draws := t.draws } ∧
      ∀ a, inDstWindow s a = false ∨ s.phase = .idle → readByte t.mem a = readByte s.mem a

/-- R400: a CMD write while IDLE issues the word, legal or not, and changes nothing else; the interrupt line falls. -/
def Obligations.CmdWriteWhileIdleIssues : Prop :=
  ∀ (s : State) (w : Word), s.cfg.legal = true → s.phase = .idle →
    ∃ t, step (s.withWrite 2 w) = .next t ∧
      t = { s with
            cmd := w, phase := .busy, done := false, err := false, errCode := 0, resultLen := 0, errInfo := 0,
            latch := ⟨w, s.srcAddr, s.srcLen, s.dstAddr, s.dstCap⟩, touched := false } ∧
      t.irq = false

/-- R402: a CMD write while BUSY sets OVERRUN and changes nothing else. -/
def Obligations.CmdWriteWhileBusyOnlySetsOverrun : Prop :=
  ∀ (s : State) (w : Word), s.cfg.legal = true → s.phase = .busy →
    step (s.withWrite 2 w) = .next { s with overrun := true }

/-- R403: a buffer register write stores all 32 bits while IDLE and changes nothing while BUSY. -/
def Obligations.BufferWritesAreStoredOnlyWhileIdle : Prop :=
  ∀ (s : State) (v : Word), s.cfg.legal = true →
    (s.phase = .busy → ∀ k, k ∈ [4, 5, 6, 7] → step (s.withWrite k v) = .next s) ∧
    (s.phase = .idle →
      step (s.withWrite 4 v) = .next { s with srcAddr := v } ∧
      step (s.withWrite 5 v) = .next { s with srcLen := v } ∧
      step (s.withWrite 6 v) = .next { s with dstAddr := v } ∧
      step (s.withWrite 7 v) = .next { s with dstCap := v })

/-- R444: writes to ID, RESULT_LEN, ERR_INFO, the CFG registers and the reserved offsets are ignored in either phase. -/
def Obligations.ReadOnlyAndReservedWritesAreIgnored : Prop :=
  ∀ (s : State) (k : Nat) (v : Word), s.cfg.legal = true → k = 0 ∨ (8 ≤ k ∧ k < 64) →
    step (s.withWrite k v) = .next s

/-- R443: a host read of any register returns its current value and changes no state of the LNCE, in either phase; each
register's value is that of its own piece of state, the hardwired ones that of their parameter; reserved offsets read 0; and
while BUSY, in a state that meets the invariant, RESULT_LEN and ERR_INFO read 0 and STATUS reads BUSY alone, with OVERRUN if
it is set. The field `hostData`, which holds what was read, is the model's own (log 15). -/
def Obligations.RegisterReadsReturnValuesAndChangeNothing : Prop :=
  ∀ (s : State) (k : Nat), s.cfg.legal = true → k < 64 →
    step (s.withRead k) = .next { s with hostData := readRegister s k } ∧
    readRegister s 0 = 0x4E550700 ∧
    (readRegister s 1).toNat = s.ie.toNat ∧
    readRegister s 2 = s.cmd ∧
    (readRegister s 3).toNat =
      s.busy.toNat + 2 * s.done.toNat + 4 * s.err.toNat + 8 * s.overrun.toNat + 256 * s.errCode.toNat ∧
    readRegister s 4 = s.srcAddr ∧ readRegister s 5 = s.srcLen ∧
    readRegister s 6 = s.dstAddr ∧ readRegister s 7 = s.dstCap ∧
    readRegister s 8 = s.resultLen ∧ readRegister s 9 = s.errInfo ∧
    (readRegister s 10).toNat = Config.bwtMaxN ∧ (readRegister s 11).toNat = s.cfg.arithW ∧
    (readRegister s 12).toNat = s.cfg.arithCeil ∧ (readRegister s 13).toNat = s.cfg.arithInc ∧
    (readRegister s 14).toNat = Config.huffAutoThreshold ∧ (readRegister s 15).toNat = s.cfg.memSize - 1 ∧
    (16 ≤ k → readRegister s k = 0) ∧
    (s.Inv → s.phase = .busy → readRegister s 8 = 0 ∧ readRegister s 9 = 0 ∧
      readRegister s 3 = if s.overrun then 9 else 1)

/-- The bits of STATUS and CTRL as the host reads them (10_state.md sections 1, rules R111 and R114). -/
def Obligations.StatusAndCtrlReadTheirFields : Prop :=
  ∀ s : State,
    (readRegister s 3).getLsbD 0 = s.busy ∧ (readRegister s 3).getLsbD 1 = s.done ∧
    (readRegister s 3).getLsbD 2 = s.err ∧ (readRegister s 3).getLsbD 3 = s.overrun ∧
    (readRegister s 3).extractLsb' 4 4 = 0 ∧ (readRegister s 3).extractLsb' 8 8 = s.errCode ∧
    (readRegister s 3).extractLsb' 16 16 = 0 ∧
    (readRegister s 1).getLsbD 0 = s.ie ∧ (readRegister s 1).extractLsb' 1 31 = 0

/-- R440: a CTRL write sets IE to bit 0, in either phase, and with bit 1 then performs the soft reset, which leaves
IE = 0. -/
def Obligations.CtrlWriteSetsInterruptEnable : Prop :=
  ∀ (s : State) (v : Word), s.cfg.legal = true →
    (v.getLsbD 1 = false → step (s.withWrite 1 v) = .next { s with ie := v.getLsbD 0 }) ∧
    (v.getLsbD 1 = true → ∃ t, step (s.withWrite 1 v) = .next t ∧ t = softReset s ∧ t.ie = false)

/-- The instruction CTRL.WRITE without SRST, for every value of its fields: IE takes its value and nothing else changes
(40_sequencer.md section 4). -/
def Obligations.CtrlWriteInstructionCompletes : Prop :=
  ∀ (s : State) (ie : Bool) (ignored : BitVec 30),
    exec (.ctrlWrite ie false ignored) s = .next { s with ie := ie }

/-- R442: a STATUS write clears DONE where bit 1 is one and OVERRUN where bit 3 is one, in either phase, and changes
nothing else; the instruction does so for every value of its fields. -/
def Obligations.StatusWriteClearsDoneAndOverrun : Prop :=
  (∀ (s : State) (v : Word), s.cfg.legal = true →
    step (s.withWrite 3 v) =
      .next { s with
              done := if v.getLsbD 1 then false else s.done,
              overrun := if v.getLsbD 3 then false else s.overrun }) ∧
  ∀ (s : State) (doneClr overrunClr ignored0 ignored2 : Bool) (ignored : BitVec 28),
    exec (.statusW1c doneClr overrunClr ignored0 ignored2 ignored) s =
      .next { s with
              done := if doneClr then false else s.done,
              overrun := if overrunClr then false else s.overrun }

/-- R220: a register access of another width, at a misaligned address or outside the block is refused. -/
def Obligations.BadRegisterAccessIsRefused : Prop :=
  ∀ (s : State) (addr width : Nat) (v : Word), s.cfg.legal = true →
    (¬∃ k, k < 64 ∧ addr = s.cfg.engineBase + 4 * k ∧ width = 32) →
    step (s.withAccess (.regRead addr width)) = .refused (.badRegisterAccess addr width) ∧
    step (s.withAccess (.regWrite addr width v)) = .refused (.badRegisterAccess addr width)

/-! ## Host memory -/

/-- Host memory accesses. From 70_reset_and_hazards.md section 3: a write marks a race exactly when it lies in a window of
a running command; a read returns the byte, but any value for a DST byte while BUSY; neither changes a register. The
model's own: that a write to a DST byte while BUSY leaves the written byte at once (log 25), that the value read stands in
`hostData` (log 15) and is `Config.freeByte` at the draw counter where it is any value (log 7), also for a byte that lies in
both windows (log 26). -/
def Obligations.HostMemoryAccessesFollowTheRaceRules : Prop :=
  ∀ (s : State) (addr : Nat) (b : Byte), s.cfg.legal = true → addr < s.cfg.memSize →
    Memory.wf s.mem →
    (∃ t, step (s.withAccess (.memWrite addr b)) = .next t ∧
      t = { s with mem := t.mem, touched := t.touched } ∧
      readByte t.mem addr = b ∧ (∀ a, a ≠ addr → readByte t.mem a = readByte s.mem a) ∧
      (t.touched = true ↔
        s.touched = true ∨ (s.phase = .busy ∧ (inSrcWindow s addr = true ∨ inDstWindow s addr = true)))) ∧
    (∃ t, step (s.withAccess (.memRead addr)) = .next t ∧
      t = { s with hostData := t.hostData, draws := t.draws } ∧
      (¬(s.phase = .busy ∧ inDstWindow s addr = true) → t.hostData = (readByte s.mem addr).setWidth 32) ∧
      (s.phase = .busy → inDstWindow s addr = true →
        t.hostData = (Config.freeByte s.draws addr).setWidth 32))

/-- Equal memories are equal data: two canonical memories that read the same at every address are the same list
(20_memory.md section 1; the list form is the model's, log 6). -/
def Obligations.CanonicalMemoriesThatReadAlikeAreEqual : Prop :=
  ∀ m m' : Memory, Memory.wf m → Memory.wf m' → (∀ a, readByte m a = readByte m' a) → m = m'

/-! ## Commands: completion, errors, frames -/

/-- R430: NOP completes with DONE = 1, ERR = 0, RESULT_LEN = 0 and no memory access. -/
def Obligations.NopCompletes : Prop :=
  decodeCmd 0x00000000 = .nop ∧
  ∀ s : State, s.raceFree →
    exec .nop s = .next { s with phase := .idle, done := true, err := false, errCode := 0, resultLen := 0,
                                 errInfo := 0 }

/-- R431: an illegal word completes with ILLEGAL_CMD and no memory access, whatever its fields, and CMD keeps it; a word is
one exactly when it is not legal. -/
def Obligations.IllegalWordCompletesWithIllegalCmd : Prop :=
  (∀ w : Word, legal w = false ↔ ∃ op path rsv, decodeCmd w = .illegal op path rsv) ∧
  ∀ (s : State) (op : BitVec 4) (path : BitVec 2) (rsv : BitVec 26), s.raceFree →
    exec (.illegal op path rsv) s =
      .next { s with phase := .idle, done := true, err := true, errCode := 0x01, resultLen := 0, errInfo := 0 }

/-- R411: every command instruction whose run the host did not race with completes with its `Exec` result: an output is
stored and reported (R420), an error is recorded (R421), for HUFF and PUFF by the pure function whatever PATH says, and an
output is never longer than dst_cap. -/
def Obligations.EveryCommandCompletesWithItsFunction : Prop :=
  ∀ (s : State) (i : Instr) (r : Result), s.raceFree → Memory.wf s.mem → commandResult s i = some r →
    (∃ t, exec i s = .next t ∧ CompletesWith s t r) ∧
    ∀ out, r = .ok out → out.length ≤ dstCapacity s

/-- R410: the window checks of every data command, in their order, each with its record; no memory changes; and windows
that pass lie inside host memory and share no byte. -/
def Obligations.WindowChecksComeFirst : Prop :=
  ∀ (s : State) (i : Instr) (f : List Byte → Nat → Result), s.raceFree → Memory.wf s.mem →
    commandFunction s.cfg i = some f →
    (s.cfg.memSize < s.latch.srcAddr.toNat + s.latch.srcLen.toNat →
      ∃ t, exec i s = .next t ∧ Fails s t .memFault s.latch.srcAddr) ∧
    (s.latch.srcAddr.toNat + s.latch.srcLen.toNat ≤ s.cfg.memSize →
      s.cfg.memSize < s.latch.dstAddr.toNat + s.latch.dstCap.toNat →
      ∃ t, exec i s = .next t ∧ Fails s t .memFault s.latch.dstAddr) ∧
    (s.latch.srcAddr.toNat + s.latch.srcLen.toNat ≤ s.cfg.memSize →
      s.latch.dstAddr.toNat + s.latch.dstCap.toNat ≤ s.cfg.memSize →
      ((∃ a, inSrcWindow s a = true ∧ inDstWindow s a = true) ↔ windowsOverlap s = true) ∧
      (windowsOverlap s = true → ∃ t, exec i s = .next t ∧ Fails s t .overlap 0) ∧
      (windowsOverlap s = false → ∃ t, exec i s = .next t ∧ CompletesWith s t (f (sourceBytes s) (dstCapacity s))))

/-- A command the host raced with completes all the same: the sequencer is idle with DONE = 1, STATUS is one of R114's legal
combinations, no other register changes, and no byte outside the DST window does (70_reset_and_hazards.md section 3,
40_sequencer.md section 2). The values it leaves are the model's free ones at the draw counter, which nothing constrains:
RESULT_LEN, ERR_INFO and the error, if any, of R900's table (log 10), and every byte of the DST window below MEM_SIZE (log 7,
log 8); it holds of NOP and of illegal words too (log 9). -/
def Obligations.RacedCommandCompletesWithAnyValues : Prop :=
  ∀ (s : State) (w : Word), s.touched = true → Memory.wf s.mem →
    ∃ t, exec (decodeCmd w) s = .next t ∧
      t = { s with phase := .idle, done := true, err := t.err, errCode := t.errCode, resultLen := t.resultLen,
                   errInfo := t.errInfo, mem := t.mem, draws := t.draws } ∧
      t.LegalStatus ∧
      t.resultLen = Config.freeResultLen s.draws ∧ t.errInfo = Config.freeErrInfo s.draws ∧
      t.err = (racedError s.draws).isSome ∧ t.errCode = ((racedError s.draws).map errCodeByte).getD 0 ∧
      (∀ a, inDstWindow s a = true → a < s.cfg.memSize → readByte t.mem a = Config.freeByte s.draws a) ∧
      ∀ a, inDstWindow s a = false → readByte t.mem a = readByte s.mem a

/-- The frame of every command instruction, raced or not: the registers a completion does not write, and every byte of
host memory outside the DST window (20_memory.md section 4). -/
def Obligations.CommandsChangeOnlyResultRegistersAndDst : Prop :=
  ∀ (s t : State) (i : Instr), i.port = .cmd → exec i s = .next t →
    t = { s with phase := .idle, done := true, err := t.err, errCode := t.errCode, resultLen := t.resultLen,
                 errInfo := t.errInfo, mem := t.mem, draws := t.draws } ∧
    ∀ a, inDstWindow s a = false → readByte t.mem a = readByte s.mem a

/-- No command reads a host byte outside its SRC window: from two host memories that agree on the SRC window a command
leaves the same registers, and at each address either the same byte or each memory's own (20_memory.md section 4). -/
def Obligations.CommandsReadOnlyTheSrcWindow : Prop :=
  ∀ (s : State) (m : Memory) (i : Instr), i.port = .cmd → Memory.wf s.mem → Memory.wf m →
    (∀ a, inSrcWindow s a = true → readByte s.mem a = readByte m a) →
    ∃ t t', exec i s = .next t ∧ exec i { s with mem := m } = .next t' ∧
      t' = { t with mem := t'.mem } ∧
      ∀ a, readByte t.mem a = readByte t'.mem a ∨
        (readByte t.mem a = readByte s.mem a ∧ readByte t'.mem a = readByte m a)

/-- The error codes are those of R900's table, in its order, all different (60_exceptions.md section 1). -/
def Obligations.ErrorCodesAreTheTables : Prop :=
  errCodes.map (fun code => (errCodeByte code).toNat) =
    [0x01, 0x02, 0x03, 0x04, 0x10, 0x20, 0x21, 0x22, 0x23, 0x30, 0x31, 0x32] ∧
  ∀ code : ErrCode, code ∈ errCodes

/-! ## BWT and UNBWT -/

/-- R500: for any list of offsets that is a permutation of 0..=N and puts the suffixes of X in strictly increasing order,
`BWT_f` gives the two indices and the row bytes read off that list, after the size and the capacity checks; and such a
list exists. -/
def Obligations.BwtIsTheSortedSuffixPermutation : Prop :=
  ∀ (T : List Byte) (cap : Nat),
    (T.length < 1 ∨ Config.bwtMaxN < T.length → bwtF T cap = .err .bwtSize 0) ∧
    (1 ≤ T.length → T.length ≤ Config.bwtMaxN → cap < T.length + 9 → bwtF T cap = .err .dstOverflow 0) ∧
    (1 ≤ T.length → T.length ≤ Config.bwtMaxN → T.length + 9 ≤ cap →
      (∃ order, SortsSuffixes T order) ∧
      ∀ order, SortsSuffixes T order →
        bwtF T cap =
          .ok (be32 (order.idxOf 1) ++ be32 (order.idxOf 0) ++
            order.map fun p => if p = 0 then 0x00 else T.getD (p - 1) 0))

/-- BWT as an instruction: with legal disjoint windows, 1 ≤ src_len ≤ BWT_MAX_N and dst_cap ≥ src_len + 9 it completes
with the record of src_len + 9 bytes; with a bad size it fails with BWT_SIZE, else with too small a dst_cap with
DST_OVERFLOW (41_bwt.md section 1). -/
def Obligations.BwtCompletesWithItsRecord : Prop :=
  ∀ s : State, s.raceFree → Memory.wf s.mem → windowError s = none →
    (1 ≤ s.latch.srcLen.toNat → s.latch.srcLen.toNat ≤ Config.bwtMaxN →
      s.latch.srcLen.toNat + 9 ≤ s.latch.dstCap.toNat →
      ∃ t, exec .bwt s = .next t ∧ Succeeds s t (permutationRecord (sourceBytes s)) ∧
        t.resultLen.toNat = s.latch.srcLen.toNat + 9) ∧
    (s.latch.srcLen.toNat < 1 ∨ Config.bwtMaxN < s.latch.srcLen.toNat →
      ∃ t, exec .bwt s = .next t ∧ Fails s t .bwtSize 0) ∧
    (1 ≤ s.latch.srcLen.toNat → s.latch.srcLen.toNat ≤ Config.bwtMaxN →
      s.latch.dstCap.toNat < s.latch.srcLen.toNat + 9 →
      ∃ t, exec .bwt s = .next t ∧ Fails s t .dstOverflow 0)

/-- The record of N equal bytes has primary index 1, sentinel index 0 and rows 0x00, c, ..., c; that of one byte is the
case N = 1 (41_bwt.md section 1, corner cases). -/
def Obligations.BwtOfEqualBytes : Prop :=
  ∀ (n : Nat) (c : Byte), 1 ≤ n → permutationRecord (List.replicate n c) =
    [0, 0, 0, 1, 0, 0, 0, 0, 0x00] ++ List.replicate n c

/-- The successor array lists every row once, by increasing symbol and, within a symbol, by increasing row, so the walk
never reads an unset entry (42_unbwt.md section 3). -/
def Obligations.SuccessorsAreAStableSortOfTheRows : Prop :=
  ∀ symbols : List Nat, (∀ x ∈ symbols, x ≤ 256) →
    (successors symbols).Perm (List.range symbols.length) ∧
    (successors symbols).Pairwise fun r r' =>
      symbols.getD r 0 < symbols.getD r' 0 ∨ (symbols.getD r 0 = symbols.getD r' 0 ∧ r < r')

/-- UNBWT's errors in the order written: each check's record fails with its own code when the earlier ones pass; and when
all pass, for the rows in the stable order of their symbols, the sentinel's counting as 256 (R600's `succ`), the walk from the
primary row fails with UNBWT_CONSISTENCY exactly when its last byte is not the filler, and otherwise gives the N bytes before
it (42_unbwt.md sections 1 and 3). -/
def Obligations.UnbwtErrorsComeInOrder : Prop :=
  ∀ (R : List Byte) (cap : Nat),
    (R.length < 10 ∨ Config.bwtMaxN < R.length - 9 → unbwtF R cap = .err .unbwtRecordSize 0) ∧
    (10 ≤ R.length → R.length - 9 ≤ Config.bwtMaxN →
      (R.length - 9 < be32At R 0 ∨ R.length - 9 < be32At R 4 → unbwtF R cap = .err .unbwtIndexRange 0) ∧
      (be32At R 0 ≤ R.length - 9 → be32At R 4 ≤ R.length - 9 →
        (R.getD (8 + be32At R 4) 0 ≠ 0x00 → unbwtF R cap = .err .unbwtFiller 0) ∧
        (R.getD (8 + be32At R 4) 0 = 0x00 →
          (cap < R.length - 9 → unbwtF R cap = .err .dstOverflow 0) ∧
          (R.length - 9 ≤ cap → ∀ succ : List Nat, StableRowOrder (R.drop 8) (be32At R 4) succ →
            let row := fun k => (fun r => succ.getD r 0)^[k] (be32At R 0)
            (R.getD (8 + row (R.length - 9)) 0 ≠ 0x00 → unbwtF R cap = .err .unbwtConsistency 0) ∧
            (R.getD (8 + row (R.length - 9)) 0 = 0x00 →
              unbwtF R cap = .ok ((List.range (R.length - 9)).map fun k => R.getD (8 + row k) 0))))))

/-- R603: UNBWT of the record of a block gives the block back. -/
def Obligations.UnbwtInvertsBwt : Prop :=
  ∀ (T : List Byte) (cap : Nat), 1 ≤ T.length → T.length ≤ Config.bwtMaxN → T.length ≤ cap →
    ∃ R, bwtF T (T.length + 9) = .ok R ∧ unbwtF R cap = .ok T

/-- UNBWT as an instruction completes with the block when its SRC window holds the block's record, with legal disjoint
windows and room for the block (42_unbwt.md sections 1 and 2). -/
def Obligations.UnbwtCompletesWithTheBlock : Prop :=
  ∀ (s : State) (T : List Byte), s.raceFree → Memory.wf s.mem → windowError s = none →
    1 ≤ T.length → T.length ≤ Config.bwtMaxN → sourceBytes s = permutationRecord T →
    T.length ≤ s.latch.dstCap.toNat →
    ∃ t, exec .unbwt s = .next t ∧ Succeeds s t T ∧ t.resultLen.toNat = s.latch.srcLen.toNat - 9

/-! ## Huffman -/

/-- R754: the three PATHs of HUFF and of PUFF are one function: the same output, the same error, the same overflow. -/
def Obligations.HuffmanPathsAreEquivalent : Prop :=
  (∀ (tie : List HuffTree → HuffTree × HuffTree) (S : List Byte) (cap : Nat),
    huffBitLevel tie S cap = huffF tie S cap ∧ huffAutomaton tie S cap = huffF tie S cap) ∧
  ∀ (S : List Byte) (cap : Nat),
    puffBitLevel S cap = puffF S cap ∧ puffAutomaton S cap = puffF S cap ∧ puffAuto S cap = puffF S cap

/-- HUFF as an instruction, for each PATH: with legal disjoint windows and room for the 256 header bytes and the payload
of ⌈Σ freq·len / 8⌉ bytes it completes with header and packed codes; with less room it fails with DST_OVERFLOW
(43_huffman.md section 2). -/
def Obligations.HuffCompletesWithHeaderAndPayload : Prop :=
  ∀ (s : State) (i : Instr), i ∈ [Instr.huff, .huffBit, .huffFsm] → s.raceFree → Memory.wf s.mem →
    windowError s = none →
    let S := sourceBytes s
    let lens := huffLengths (tieOf s.cfg.huffTie) S
    let size := 256 + (((List.range 256).map fun b => byteCount S b * lens.getD b 0).sum + 7) / 8
    (size ≤ s.latch.dstCap.toNat →
      ∃ t, exec i s = .next t ∧
        Succeeds s t (lens.map (BitVec.ofNat 8) ++ packMsb (S.flatMap (codeBitsOf (canonical lens)))) ∧
        t.resultLen.toNat = size) ∧
    (s.latch.dstCap.toNat < size → ∃ t, exec i s = .next t ∧ Fails s t .dstOverflow 0)

/-- PUFF as an instruction, for each PATH, on its shortest header: when the SRC window holds 256 bytes of value 8, every
code is the byte itself, so PUFF completes with the payload when it fits and fails with DST_OVERFLOW when it does not
(43_huffman.md section 2, the example of R721). -/
def Obligations.PuffOfTheUniformHeaderCopiesThePayload : Prop :=
  ∀ (s : State) (i : Instr) (payload : List Byte), i ∈ [Instr.puff, .puffBit, .puffFsm] → s.raceFree →
    Memory.wf s.mem → windowError s = none → sourceBytes s = List.replicate 256 8 ++ payload →
    (payload.length ≤ s.latch.dstCap.toNat → ∃ t, exec i s = .next t ∧ Succeeds s t payload) ∧
    (s.latch.dstCap.toNat < payload.length → ∃ t, exec i s = .next t ∧ Fails s t .dstOverflow 0)

/-- PUFF's header checks: fewer than 256 bytes is PUFF_TRUNCATED, a length 0 or a Kraft sum other than one is
PUFF_BAD_HEADER, and a header alone decodes to nothing (43_huffman.md section 2). -/
def Obligations.PuffChecksItsHeader : Prop :=
  ∀ (S : List Byte) (cap : Nat),
    (S.length < 256 → puffF S cap = .err .puffTruncated 0) ∧
    (256 ≤ S.length →
      (0 ∈ (S.take 256).map BitVec.toNat ∨ kraftSum ((S.take 256).map BitVec.toNat) ≠ 2 ^ 255 →
        puffF S cap = .err .puffBadHeader 0) ∧
      (0 ∉ (S.take 256).map BitVec.toNat → kraftSum ((S.take 256).map BitVec.toNat) = 2 ^ 255 →
        S.length = 256 → puffF S cap = .ok []))

/-- What PUFF decodes, and when it fails: behind a good header the payload is the codes of some symbols and a rest that
begins with no code; for any such reading PUFF fails with DST_OVERFLOW when there are more symbols than the capacity, else
with PUFF_BAD_PAYLOAD exactly when the rest has more than 7 bits or a nonzero one, and else gives the symbols; and there is
such a reading (43_huffman.md section 2). -/
def Obligations.PuffDecodesCodesAndChecksTheRest : Prop :=
  ∀ (S : List Byte) (cap : Nat), 256 ≤ S.length → 0 ∉ (S.take 256).map BitVec.toNat →
    kraftSum ((S.take 256).map BitVec.toNat) = 2 ^ 255 →
    let table := canonical ((S.take 256).map BitVec.toNat)
    (∃ symbols rest, ReadsAs table (payloadBits (S.drop 256)) symbols rest) ∧
    ∀ symbols rest, ReadsAs table (payloadBits (S.drop 256)) symbols rest →
      (cap < symbols.length → puffF S cap = .err .dstOverflow 0) ∧
      (symbols.length ≤ cap → (7 < rest.length ∨ true ∈ rest) → puffF S cap = .err .puffBadPayload 0) ∧
      (symbols.length ≤ cap → rest.length ≤ 7 → true ∉ rest → puffF S cap = .ok symbols)

/-- R712: REF_TIE is a legal policy, and it answers the first and the second member of the forest in the order of
(weight, seq). -/
def Obligations.ReferenceTieTakesTheTwoLeast : Prop :=
  LegalTie refTie ∧
  ∀ forest : List HuffTree, 2 ≤ forest.length → (forest.map treeSeq).Nodup →
    treeBefore (refTie forest).1 (refTie forest).2 = true ∧
    (∀ z ∈ forest, z ≠ (refTie forest).1 → treeBefore (refTie forest).1 z = true) ∧
    ∀ z ∈ forest, z ≠ (refTie forest).1 → z ≠ (refTie forest).2 → treeBefore (refTie forest).2 z = true

/-- Whatever HUFF_TIE a configuration names, the policy is legal (43_huffman.md R711; the form of the free policies is the
model's, log 5). -/
def Obligations.EveryTiePolicyIsLegal : Prop :=
  ∀ p : TiePolicy, LegalTie (tieOf p)

/-- Under every legal tie policy the 256 code lengths lie in 1..255 and form a complete code, the longest has at least 8
bits, and so the header passes PUFF's test (43_huffman.md section 1, R710 and the first and third properties of R713). -/
def Obligations.HuffmanLengthsFormACompleteCode : Prop :=
  ∀ (tie : List HuffTree → HuffTree × HuffTree) (S : List Byte), LegalTie tie →
    (huffLengths tie S).length = 256 ∧ (∀ l ∈ huffLengths tie S, 1 ≤ l ∧ l ≤ 255) ∧
    kraftSum (huffLengths tie S) = 2 ^ 255 ∧ 8 ≤ (huffLengths tie S).foldl max 0

/-- R716: for lengths that meet the Kraft equality every byte has one row of the table, the canonical code is prefix-free, every code is below 2^len, the
all-zero word of the greatest length is the code of the smallest byte of that length, and no shorter code is all zeros. -/
def Obligations.CanonicalCodeIsPrefixFree : Prop :=
  ∀ lens : List Nat, lens.length = 256 → (∀ l ∈ lens, 1 ≤ l ∧ l ≤ 255) → kraftSum lens = 2 ^ 255 →
    ((canonical lens).map CodeRow.byte).Perm (List.range 256) ∧
    (∀ row ∈ canonical lens, row.byte < 256 ∧ row.len = lens.getD row.byte 0 ∧ row.code < 2 ^ row.len) ∧
    (∀ row ∈ canonical lens, ∀ row' ∈ canonical lens,
      codeBits row.code row.len <+: codeBits row'.code row'.len → row = row') ∧
    (∀ row ∈ canonical lens, row.code = 0 ↔
      row.len = lens.foldl max 0 ∧ ∀ b, b < row.byte → lens.getD b 0 ≠ row.len) ∧
    ∀ row ∈ canonical lens, 7 < row.len ∨ row.code ≠ 0

/-- R722: PUFF of HUFF's output gives the input back, under every legal tie policy. -/
def Obligations.PuffInvertsHuff : Prop :=
  ∀ (tie : List HuffTree → HuffTree × HuffTree) (S out : List Byte) (c cap : Nat), LegalTie tie →
    huffF tie S c = .ok out → S.length ≤ cap → puffF out cap = .ok S

/-- PUFF as an instruction, for each PATH, completes with the bytes when its SRC window holds HUFF's output for them, under
every legal tie policy, with legal disjoint windows and room for them; with less room it fails with DST_OVERFLOW
(43_huffman.md section 2). -/
def Obligations.PuffCompletesWithTheBytes : Prop :=
  ∀ (s : State) (i : Instr) (tie : List HuffTree → HuffTree × HuffTree) (S : List Byte) (c : Nat),
    i ∈ [Instr.puff, .puffBit, .puffFsm] → LegalTie tie → s.raceFree → Memory.wf s.mem → windowError s = none →
    huffF tie S c = .ok (sourceBytes s) →
    (S.length ≤ s.latch.dstCap.toNat → ∃ t, exec i s = .next t ∧ Succeeds s t S) ∧
    (s.latch.dstCap.toNat < S.length → ∃ t, exec i s = .next t ∧ Fails s t .dstOverflow 0)

/-! ## The arithmetic coder -/

/-- R807: the initial model is legal, and every update of a legal model gives a legal model: frequencies at least 1 and
at most CEIL - 256, the total within the ceiling; one halving is enough. -/
def Obligations.ModelUpdateKeepsTheModelLegal : Prop :=
  ∀ c : Config, c.legal = true →
    LegalModel c initFreq ∧
    ∀ freq : List Nat, LegalModel c freq →
      (∀ f ∈ freq, f ≤ c.arithCeil - 256) ∧
      (freq.map fun f => (f + 1) / 2).sum ≤ (c.arithCeil + 257) / 2 ∧
      ∀ x, x ≤ 256 → LegalModel c (updateFreq c freq x)

/-- The interval before every narrowing: the initial one is wide, and narrowing by any symbol and renormalising gives a
nonempty interval inside the old one and then a wide one again, in the encoder and in the decoder; ARITH_W passes of the
loop are enough (44_arith.md sections 2, 4 and 6). -/
def Obligations.CoderIntervalStaysWide : Prop :=
  ∀ c : Config, c.legal = true →
    WideInterval c (fullInterval c) ∧
    ∀ (freq : List Nat) (x : Nat) (e : Encoder), LegalModel c freq → x ≤ 256 → WideInterval c e.interval →
      (narrow freq x e.interval).low < (narrow freq x e.interval).high ∧
      e.interval.low ≤ (narrow freq x e.interval).low ∧ (narrow freq x e.interval).high ≤ e.interval.high ∧
      WideInterval c (encodeSymbol c freq x e).interval ∧
      scalingCase c (encodeSymbol c freq x e).interval = none

/-- In the decoder low ≤ V < high before every symbol search: the search finds the symbol whose slice holds V, and
renormalisation keeps V inside (44_arith.md sections 4 and 6). -/
def Obligations.DecoderValueStaysInTheInterval : Prop :=
  ∀ (c : Config) (S : List Byte), c.legal = true →
    (initDecoder c S).interval.Holds (initDecoder c S).value ∧
    ∀ (freq : List Nat) (d : Decoder), LegalModel c freq → WideInterval c d.interval →
      d.interval.Holds d.value →
      findSymbol freq d ≤ 256 ∧
      (narrow freq (findSymbol freq d) d.interval).Holds d.value ∧
      let d' := decoderRenorm c S c.arithW { d with interval := narrow freq (findSymbol freq d) d.interval }
      WideInterval c d'.interval ∧ d'.interval.Holds d'.value

/-- ARITH as an instruction: with legal disjoint windows and room for ⌈|bits| / 8⌉ bytes, at least one, it completes with
the packed bits; with less room it fails with DST_OVERFLOW (44_arith.md sections 1 to 3). -/
def Obligations.ArithCompletesWithThePackedBits : Prop :=
  ∀ s : State, s.raceFree → Memory.wf s.mem → windowError s = none →
    let bits := arithBits s.cfg (sourceBytes s)
    2 ≤ bits.length ∧
    ((bits.length + 7) / 8 ≤ s.latch.dstCap.toNat →
      ∃ t, exec .arith s = .next t ∧ Succeeds s t (packMsb bits) ∧ t.resultLen.toNat = (bits.length + 7) / 8) ∧
    (s.latch.dstCap.toNat < (bits.length + 7) / 8 →
      ∃ t, exec .arith s = .next t ∧ Fails s t .dstOverflow 0)

/-- UNARITH ends in an output no longer than the capacity or in DST_OVERFLOW, and in nothing else (44_arith.md
sections 4 and 5). -/
def Obligations.UnarithEndsInOutputOrOverflow : Prop :=
  ∀ (c : Config) (S : List Byte) (cap : Nat),
    (∃ out, unarithF c S cap = .ok out ∧ out.length ≤ cap) ∨ unarithF c S cap = .err .dstOverflow 0

/-- R841, with R842's remark that bytes after a valid stream are ignored: UNARITH of ARITH's output followed by any bytes
gives the input back, in every legal configuration. -/
def Obligations.UnarithInvertsArith : Prop :=
  ∀ (c : Config) (S out trailing : List Byte) (cap cap' : Nat), c.legal = true →
    arithF c S cap = .ok out → S.length ≤ cap' → unarithF c (out ++ trailing) cap' = .ok S

/-- UNARITH as an instruction completes with the bytes when its SRC window holds ARITH's stream of them, with legal
disjoint windows and room for them, in every legal configuration; with less room it fails with DST_OVERFLOW (44_arith.md
sections 5 and 6). -/
def Obligations.UnarithCompletesWithTheBytes : Prop :=
  ∀ (s : State) (S : List Byte), s.cfg.legal = true → s.raceFree → Memory.wf s.mem → windowError s = none →
    sourceBytes s = packMsb (arithBits s.cfg S) →
    (S.length ≤ s.latch.dstCap.toNat → ∃ t, exec .unarith s = .next t ∧ Succeeds s t S) ∧
    (s.latch.dstCap.toNat < S.length → ∃ t, exec .unarith s = .next t ∧ Fails s t .dstOverflow 0)
end

