-- ==== Sys2Proof/Laws/Arith.lean ====
section
/-! SUPPORT. The coder's model and interval: sums of frequencies, the constants of a legal configuration, and when no
scaling case applies (44_arith.md). -/

namespace Sys2Proof.Machine

/-! ## Constants of a legal configuration -/

/-- The bounds a legal configuration meets (00_scope.md R20, R21), with TOP and HALF in quarters. -/
structure CoderBounds (c : Config) : Prop where
  width : 11 ≤ c.arithW ∧ c.arithW ≤ 32
  increment : 1 ≤ c.arithInc
  room : 257 + 2 * c.arithInc ≤ c.arithCeil
  ceiling : c.arithCeil ≤ coderQuarter c
  half : coderHalf c = 2 * coderQuarter c
  top : coderTop c = 4 * coderQuarter c

theorem coderBounds {c : Config} (h : c.legal = true) : CoderBounds c := by
  simp only [Config.legal, Bool.and_eq_true, decide_eq_true_eq] at h
  obtain ⟨⟨⟨⟨⟨⟨⟨⟨h1, h2⟩, h3⟩, h4⟩, h5⟩, _⟩, _⟩, _⟩, _⟩ := h
  refine ⟨⟨h1, h2⟩, h3, h4, h5, ?_, ?_⟩
  · rw [coderHalf, coderQuarter, show c.arithW - 1 = (c.arithW - 2) + 1 by omega, pow_succ]; omega
  · rw [coderTop, coderQuarter, show c.arithW = (c.arithW - 2) + 2 by omega, pow_add]
    simp only [Nat.add_sub_cancel]; omega

/-! ## The model -/

@[simp] theorem cumFreq_zero (freq : List Nat) : cumFreq freq 0 = 0 := by simp [cumFreq]

theorem cumFreq_succ {freq : List Nat} {x : Nat} (h : x < freq.length) :
    cumFreq freq (x + 1) = cumFreq freq x + freq.getD x 0 := by
  rw [cumFreq, cumFreq, List.take_add_one, List.sum_append, List.getElem?_eq_getElem h, List.getD_eq_getElem?_getD,
    List.getElem?_eq_getElem h]
  simp only [Option.toList_some, List.sum_cons, List.sum_nil, Nat.add_zero, Option.getD_some]

theorem cumFreq_length (freq : List Nat) : cumFreq freq freq.length = totalFreq freq := by
  simp [cumFreq, totalFreq]

theorem cumFreq_mono (freq : List Nat) {x y : Nat} (h : x ≤ y) : cumFreq freq x ≤ cumFreq freq y := by
  obtain ⟨k, rfl⟩ := Nat.exists_eq_add_of_le h
  simp [cumFreq, List.take_add]

theorem cumFreq_le_total (freq : List Nat) (x : Nat) : cumFreq freq x ≤ totalFreq freq := by
  rw [totalFreq, ← List.sum_take_add_sum_drop freq x]; exact Nat.le_add_right _ _

@[simp] theorem length_initFreq : initFreq.length = 257 := by
  rw [initFreq, List.length_replicate]

@[simp] theorem totalFreq_initFreq : totalFreq initFreq = 257 := by
  rw [totalFreq, initFreq, List.sum_replicate, smul_eq_mul]

@[simp] theorem length_updateFreq (c : Config) (freq : List Nat) (x : Nat) :
    (updateFreq c freq x).length = freq.length := by
  unfold updateFreq
  split <;> simp

/-! ## The interval -/

/-- No scaling case applies to an interval that holds the middle and reaches past a quarter on one side. -/
theorem scalingCase_eq_none {c : Config} {i : Interval} :
    scalingCase c i = none ↔
      coderHalf c < i.high ∧ i.low < coderHalf c ∧ (i.low < coderQuarter c ∨ 3 * coderQuarter c < i.high) := by
  unfold scalingCase
  split
  · simp; omega
  · split
    · simp; omega
    · split
      · simp; omega
      · simp; omega

/-- A scaling case applies to an interval that lies above what it subtracts. -/
theorem scalingOffset_le {c : Config} {i : Interval} {k : Scaling} (h : scalingCase c i = some k) :
    scalingOffset c k ≤ i.low := by
  unfold scalingCase at h
  repeat' split at h
  all_goals first
    | cases h; done
    | injection h with h; subst h; simp only [scalingOffset]; omega

@[simp] theorem emitBit_interval (b : Bool) (e : Encoder) : (emitBit b e).interval = e.interval := rfl
@[simp] theorem emitBit_pend (b : Bool) (e : Encoder) : (emitBit b e).pend = 0 := rfl
@[simp] theorem emitBit_bits (b : Bool) (e : Encoder) :
    (emitBit b e).bits = e.bits ++ b :: List.replicate e.pend (!b) := rfl
@[simp] theorem encoderPass_interval (c : Config) (k : Scaling) (e : Encoder) :
    (encoderPass c k e).interval = scaleInterval c k e.interval := rfl
@[simp] theorem decoderPass_interval (c : Config) (S : List Byte) (k : Scaling) (d : Decoder) :
    (decoderPass c S k d).interval = scaleInterval c k d.interval := rfl
@[simp] theorem decoderPass_pos (c : Config) (S : List Byte) (k : Scaling) (d : Decoder) :
    (decoderPass c S k d).pos = d.pos + 1 := rfl
@[simp] theorem shiftInBit_interval (S : List Byte) (d : Decoder) : (shiftInBit S d).interval = d.interval := rfl
@[simp] theorem shiftInBit_pos (S : List Byte) (d : Decoder) : (shiftInBit S d).pos = d.pos + 1 := rfl

/-- Encoder and decoder renormalise their intervals alike. -/
theorem renorm_interval_eq (c : Config) (S : List Byte) (n : Nat) (e : Encoder) (d : Decoder)
    (h : e.interval = d.interval) : (encoderRenorm c n e).interval = (decoderRenorm c S n d).interval := by
  induction n generalizing e d with
  | zero => exact h
  | succ n ih =>
    rw [encoderRenorm, decoderRenorm, h]
    split
    · exact ih _ _ (by simp [h])
    · exact h

end Sys2Proof.Machine
end

