-- ==== Sys2Proof/Laws/Bits.lean ====
section
/-! SUPPORT. Bit strings: lengths, values, and packing read back (00_scope.md R31, R33). -/

namespace Sys2Proof.Machine

@[simp] theorem codeBits_zero (c : Nat) : codeBits c 0 = [] := rfl

theorem codeBits_succ (c l : Nat) : codeBits c (l + 1) = c.testBit l :: codeBits c l := rfl

@[simp] theorem length_codeBits (c l : Nat) : (codeBits c l).length = l := by
  induction l with
  | zero => rfl
  | succ l ih => simp [codeBits, ih]

/-- A value in front of a bit string counts as so many high bits. -/
theorem bitsValueFrom_eq (acc : Nat) (bits : List Bool) :
    bitsValueFrom acc bits = acc * 2 ^ bits.length + bitsValue bits := by
  induction bits generalizing acc with
  | nil => simp [bitsValueFrom, bitsValue]
  | cons b bits ih =>
    rw [bitsValue, bitsValueFrom, bitsValueFrom, ih, ih (2 * 0 + b.toNat), List.length_cons, pow_succ]
    ring

theorem bitsValue_cons (b : Bool) (bits : List Bool) :
    bitsValue (b :: bits) = b.toNat * 2 ^ bits.length + bitsValue bits := by
  rw [bitsValue, bitsValueFrom, bitsValueFrom_eq]; simp

theorem bitsValue_append (x y : List Bool) : bitsValue (x ++ y) = bitsValue x * 2 ^ y.length + bitsValue y := by
  induction x with
  | nil => simp [bitsValue, bitsValueFrom]
  | cons b x ih =>
    rw [List.cons_append, bitsValue_cons, bitsValue_cons, ih, List.length_append, pow_add]; ring

theorem bitsValue_lt (bits : List Bool) : bitsValue bits < 2 ^ bits.length := by
  induction bits with
  | nil => simp [bitsValue, bitsValueFrom]
  | cons b bits ih =>
    rw [bitsValue_cons, List.length_cons, pow_succ]
    cases b <;> simp <;> omega

/-- The value of a code's bits is the code. -/
theorem bitsValue_codeBits (c l : Nat) : bitsValue (codeBits c l) = c % 2 ^ l := by
  induction l with
  | zero => simp [bitsValue, bitsValueFrom, Nat.mod_one]
  | succ l ih =>
    rw [codeBits_succ, bitsValue_cons, length_codeBits, ih, pow_succ, Nat.mod_mul, Nat.testBit_eq_decide_div_mod_eq]
    rcases Nat.mod_two_eq_zero_or_one (c / 2 ^ l) with h | h <;> simp [h, Nat.add_comm]

/-- Codes of one length below 2 ^ l are equal when their bits are. -/
theorem codeBits_inj {c c' l : Nat} (h : c < 2 ^ l) (h' : c' < 2 ^ l) (heq : codeBits c l = codeBits c' l) : c = c' := by
  have := congrArg bitsValue heq
  rwa [bitsValue_codeBits, bitsValue_codeBits, Nat.mod_eq_of_lt h, Nat.mod_eq_of_lt h'] at this

/-- Only the l low bits matter. -/
theorem codeBits_mod (c l : Nat) : codeBits (c % 2 ^ l) l = codeBits c l := by
  have h : ∀ l', l' ≤ l → codeBits (c % 2 ^ l) l' = codeBits c l' := by
    intro l' hl'
    induction l' with
    | zero => rfl
    | succ l' ih =>
      rw [codeBits_succ, codeBits_succ, ih (by omega), Nat.testBit_mod_two_pow, decide_eq_true (by omega : l' < l),
        Bool.true_and]
  exact h l (Nat.le_refl _)

theorem codeBits_mul_add (k c l : Nat) : codeBits (k * 2 ^ l + c) l = codeBits c l := by
  rw [← codeBits_mod, Nat.mul_add_mod_self_right, codeBits_mod]

/-- The bits of a bit string's value are the bit string. -/
theorem codeBits_bitsValue (bits : List Bool) : codeBits (bitsValue bits) bits.length = bits := by
  induction bits with
  | nil => rfl
  | cons b bits ih =>
    have hlt := bitsValue_lt bits
    rw [bitsValue_cons, List.length_cons, codeBits_succ, codeBits_mul_add, ih]
    congr 1
    cases b
    · simp [Nat.testBit_lt_two_pow hlt]
    · rw [Nat.testBit_eq_decide_div_mod_eq]
      simp [Nat.div_eq_of_lt hlt]

@[simp] theorem length_packMsb (bits : List Bool) : (packMsb bits).length = (bits.length + 7) / 8 := by
  simp [packMsb]

@[simp] theorem length_payloadBits (bytes : List Byte) : (payloadBits bytes).length = 8 * bytes.length := by
  induction bytes with
  | nil => rfl
  | cons y bytes ih =>
    rw [payloadBits, List.flatMap_cons, List.length_append, length_codeBits]
    rw [payloadBits] at ih
    rw [ih, List.length_cons]; omega

/-- A packed byte spells its eight bits. -/
theorem codeBits_packedByte (bits : List Bool) (k : Nat) :
    codeBits (packedByte bits k).toNat 8 = (List.range 8).map fun i => bits.getD (8 * k + i) false := by
  have h : ((List.range 8).map fun i => bits.getD (8 * k + i) false).length = 8 := by simp
  have hlt := bitsValue_lt ((List.range 8).map fun i => bits.getD (8 * k + i) false)
  have hbits := codeBits_bitsValue ((List.range 8).map fun i => bits.getD (8 * k + i) false)
  rw [h] at hlt hbits
  rw [packedByte, BitVec.toNat_ofNat, Nat.mod_eq_of_lt hlt, hbits]

/-- The bits of a packing, by position. -/
theorem payloadBits_packMsb_eq_map (bits : List Bool) :
    payloadBits (packMsb bits) = (List.range (8 * ((bits.length + 7) / 8))).map fun j => bits.getD j false := by
  rw [packMsb, payloadBits, List.flatMap_map]
  generalize (bits.length + 7) / 8 = n
  induction n with
  | zero => rfl
  | succ n ih =>
    rw [List.range_succ, List.flatMap_append, ih, Nat.mul_succ, List.range_add, List.map_append]
    simp [codeBits_packedByte, Function.comp_def]

/-- The bits of a packing are the bits packed, then zeros up to a whole byte. -/
theorem payloadBits_packMsb (bits : List Bool) :
    payloadBits (packMsb bits) =
      bits ++ List.replicate (8 * ((bits.length + 7) / 8) - bits.length) false := by
  rw [payloadBits_packMsb_eq_map]
  apply List.ext_getElem
  · simp; omega
  · intro j hj hj'
    simp only [List.getElem_map, List.getElem_range, List.getElem_append, List.getElem_replicate, List.getD_eq_getElem?_getD]
    split
    · simp [*]
    · simp [List.getElem?_eq_none (by omega : bits.length ≤ j)]

/-- `bit_at` reads the bits of a byte sequence by position, and zero past its end. -/
theorem bitAt_eq (bytes : List Byte) (j : Nat) : bitAt bytes j = (payloadBits bytes).getD j false := by
  induction bytes generalizing j with
  | nil => simp [bitAt, payloadBits]
  | cons y bytes ih =>
    have hp : payloadBits (y :: bytes) = codeBits y.toNat 8 ++ payloadBits bytes := rfl
    rw [hp, List.getD_eq_getElem?_getD, List.getElem?_append, length_codeBits]
    split
    · have h : j = 0 ∨ j = 1 ∨ j = 2 ∨ j = 3 ∨ j = 4 ∨ j = 5 ∨ j = 6 ∨ j = 7 := by omega
      rcases h with rfl | rfl | rfl | rfl | rfl | rfl | rfl | rfl <;> simp [bitAt, codeBits, BitVec.getLsbD]
    · rw [← List.getD_eq_getElem?_getD, ← ih, bitAt, bitAt]
      rw [show j / 8 = (j - 8) / 8 + 1 by omega, show j % 8 = (j - 8) % 8 by omega]
      rfl

@[simp] theorem length_be32 (x : Nat) : (be32 x).length = 4 := rfl

end Sys2Proof.Machine
end

