-- ==== Sys2Proof/Laws/Huffman.lean ====
section
/-! SUPPORT. The reference tie policy: what it answers, and that it is legal (43_huffman.md R711, R712). -/

namespace Sys2Proof.Machine

/-- REF_TIE's order, spelled with `<`. -/
theorem treeBefore_iff {t u : HuffTree} :
    treeBefore t u = true ↔
      treeWeight t < treeWeight u ∨ (treeWeight t = treeWeight u ∧ treeSeq t < treeSeq u) := by
  simp [treeBefore, Nat.blt_eq, Nat.beq_eq]

/-- The same weight and sequence number. -/
abbrev SameKey (t u : HuffTree) : Prop := treeWeight t = treeWeight u ∧ treeSeq t = treeSeq u

/-- A pair holds the two least members of a list, the least first; members are told apart by weight and sequence
number. -/
structure LeastPair (p : HuffTree × HuffTree) (l : List HuffTree) : Prop where
  mem_fst : p.1 ∈ l
  mem_snd : p.2 ∈ l
  ordered : treeBefore p.1 p.2 = true
  least : ∀ z ∈ l, SameKey z p.1 ∨ SameKey z p.2 ∨ treeBefore p.2 z = true

theorem LeastPair.of_perm {p : HuffTree × HuffTree} {l l' : List HuffTree} (h : LeastPair p l) (hl : l.Perm l') :
    LeastPair p l' :=
  ⟨hl.mem_iff.1 h.mem_fst, hl.mem_iff.1 h.mem_snd, h.ordered, fun z hz => h.least z (hl.mem_iff.2 hz)⟩

/-- One more member, which is not among the two least. -/
theorem LeastPair.cons {p : HuffTree × HuffTree} {l : List HuffTree} (h : LeastPair p l) {x y z : HuffTree}
    (hx : x ∈ l) (hy : y ∈ l) (hxy : treeBefore x y = true) (hyz : treeBefore y z = true) : LeastPair p (z :: l) := by
  refine ⟨by simp [h.mem_fst], by simp [h.mem_snd], h.ordered, fun w hw => ?_⟩
  rcases List.mem_cons.1 hw with rfl | hw
  · have a := h.least x hx
    have b := h.least y hy
    have c := h.ordered
    simp only [treeBefore_iff, SameKey] at a b c hxy hyz ⊢
    omega
  · exact h.least w hw

theorem treeBefore_total {t u : HuffTree} (h : treeSeq t ≠ treeSeq u) (htu : ¬treeBefore t u = true) :
    treeBefore u t = true := by
  rw [treeBefore_iff] at *; omega

/-- What `leastTwo` answers. -/
theorem leastTwo_spec (x y : HuffTree) (us : List HuffTree) (hxy : treeBefore x y = true)
    (hnd : ((x :: y :: us).map treeSeq).Nodup) : LeastPair (leastTwo x y us) (x :: y :: us) := by
  induction us generalizing x y with
  | nil => exact ⟨by simp [leastTwo], by simp [leastTwo], hxy, by simp [leastTwo, SameKey]⟩
  | cons u us ih =>
    simp only [List.map_cons, List.nodup_cons, List.mem_cons, not_or] at hnd
    obtain ⟨⟨_, hxu, hx⟩, ⟨hyu, hy⟩, hu, hn⟩ := hnd
    unfold leastTwo
    cases huy : treeBefore u y with
    | true =>
      cases hux : treeBefore u x with
      | true =>
        have h := ih u x hux (by simp [hx, hu, hn, Ne.symm hxu])
        exact (h.cons (z := y) (by simp) (by simp) hux hxy).of_perm
          ((List.Perm.swap _ _ _).symm.trans ((List.Perm.cons _ (List.Perm.swap _ _ _)).trans
            ((List.Perm.swap _ _ _).trans (List.Perm.cons _ (List.Perm.swap _ _ _)))))
      | false =>
        have hxu' := treeBefore_total (Ne.symm hxu) (by simp [hux])
        have h := ih x u hxu' (by simp [hx, hu, hn, hxu])
        exact (h.cons (z := y) (by simp) (by simp) hxu' huy).of_perm (List.Perm.swap _ _ _)
    | false =>
      have hyu' := treeBefore_total (Ne.symm hyu) (by simp [huy])
      have h := ih x y hxy (by simp_all)
      exact (h.cons (z := u) (by simp) (by simp) hxy hyu').of_perm
        ((List.Perm.swap _ _ _).trans (List.Perm.cons _ (List.Perm.swap _ _ _)))

/-- What REF_TIE answers on a forest of two trees or more. -/
theorem refTie_spec {forest : List HuffTree} (hlen : 2 ≤ forest.length) (hnd : (forest.map treeSeq).Nodup) :
    LeastPair (refTie forest) forest := by
  match forest, hlen with
  | t :: u :: ts, _ =>
    have hne : treeSeq t ≠ treeSeq u := by simp at hnd; tauto
    cases h : treeBefore u t with
    | true =>
      simp only [refTie, h, cond_true]
      exact (leastTwo_spec u t ts h
        ((((List.Perm.swap u t ts).map treeSeq).nodup_iff).1 hnd)).of_perm (List.Perm.swap _ _ _)
    | false =>
      simp only [refTie, h, cond_false]
      exact leastTwo_spec t u ts (treeBefore_total (Ne.symm hne) (by simp [h])) hnd

/-- REF_TIE is a legal policy. -/
theorem legalTie_refTie : LegalTie refTie := by
  intro forest hlen hnd
  obtain ⟨h1, h2, h3, h4⟩ := refTie_spec hlen hnd
  have hinj : ∀ z ∈ forest, ∀ z' ∈ forest, SameKey z z' → z = z' := fun z hz z' hz' h =>
    List.inj_on_of_nodup_map hnd hz hz' h.2
  rw [treeBefore_iff] at h3
  refine ⟨h1, h2, fun h => ?_, fun z hz => ?_, fun z hz hne => ?_⟩
  · rw [h] at h3; omega
  · have := h4 z hz
    simp only [SameKey, treeBefore_iff] at this; omega
  · rcases h4 z hz with h | h | h
    · exact absurd (hinj _ hz _ h1 h) hne
    · exact h.1.ge
    · rw [treeBefore_iff] at h; omega

end Sys2Proof.Machine
end

