-- ==== Sys2Proof/Laws/Memory.lean ====
section
/-! SUPPORT. Reads and writes of host memory at one address, and lengths. -/

namespace Sys2Proof.Machine

@[simp] theorem readByte_nil (a : Nat) : readByte [] a = 0 := rfl

theorem readByte_cons (k : Nat) (v : Byte) (m : Memory) (a : Nat) :
    readByte ((k, v) :: m) a = if k = a then v else readByte m a := rfl

/-- An address below every listed one reads as 0. -/
theorem readByte_of_lt {m : Memory} {a : Nat} (h : ∀ c ∈ m, a < c.1) : readByte m a = 0 := by
  induction m with
  | nil => rfl
  | cons c m ih =>
    have hc := h c (by simp)
    rw [show (c :: m) = ((c.1, c.2) :: m) from rfl, readByte_cons, if_neg (by omega)]
    exact ih fun d hd => h d (by simp [hd])

/-- A write leaves every other address alone, in any memory. -/
theorem readByte_writeByte_ne {m : Memory} {a b : Nat} {v : Byte} (h : b ≠ a) :
    readByte (writeByte m a v) b = readByte m b := by
  induction m with
  | nil => simp only [writeByte]; split <;> simp [readByte_cons, h.symm]
  | cons c m ih =>
    obtain ⟨k, w⟩ := c
    simp only [writeByte]
    split
    · simp [readByte_cons, ih]
    · split
      · subst_vars
        split <;> simp [readByte_cons, h.symm]
      · split <;> simp [readByte_cons, h.symm]

/-- In a canonical memory a written byte reads back. -/
theorem readByte_writeByte_self {m : Memory} (hm : Memory.wf m) (a : Nat) (v : Byte) :
    readByte (writeByte m a v) a = v := by
  induction m with
  | nil => simp only [writeByte]; split <;> simp_all [readByte_cons]
  | cons c m ih =>
    obtain ⟨k, w⟩ := c
    obtain ⟨hp, hv⟩ := hm
    rw [List.pairwise_cons] at hp
    simp only [writeByte]
    split
    · rw [readByte_cons, if_neg (by omega)]
      exact ih ⟨hp.2, fun c hc => hv c (by simp [hc])⟩
    · split
      · subst_vars
        split
        · subst_vars; exact readByte_of_lt fun c hc => hp.1 c hc
        · simp [readByte_cons]
      · split
        · subst_vars
          exact readByte_of_lt fun c hc => by
            rcases List.mem_cons.1 hc with rfl | hc
            · simp only; omega
            · have := hp.1 c hc; simp only at this; omega
        · simp [readByte_cons]

/-- Every address listed after a write was listed before or is the one written. -/
theorem mem_writeByte {m : Memory} {a : Nat} {v : Byte} {c : Host.Cell} (h : c ∈ writeByte m a v) :
    c ∈ m ∨ c = (a, v) := by
  induction m with
  | nil => simp only [writeByte] at h; split at h <;> simp_all
  | cons d m ih =>
    obtain ⟨k, w⟩ := d
    simp only [writeByte] at h
    split at h
    · rcases List.mem_cons.1 h with rfl | h
      · simp
      · rcases ih h with h | h <;> simp [h]
    · split at h
      · split at h
        · simp [h]
        · rcases List.mem_cons.1 h with rfl | h <;> simp [*]
      · split at h
        · exact .inl h
        · rcases List.mem_cons.1 h with rfl | h
          · simp
          · exact .inl h

/-- A write keeps the canonical form. -/
theorem writeByte_wf {m : Memory} (hm : Memory.wf m) (a : Nat) (v : Byte) : Memory.wf (writeByte m a v) := by
  induction m with
  | nil => simp only [writeByte]; split <;> simp_all [Memory.wf]
  | cons c m ih =>
    obtain ⟨k, w⟩ := c
    obtain ⟨hp, hv⟩ := hm
    rw [List.pairwise_cons] at hp
    have hm' : Memory.wf m := ⟨hp.2, fun c hc => hv c (by simp [hc])⟩
    have hw : w ≠ 0 := hv (k, w) (by simp)
    simp only [writeByte]
    split
    · refine ⟨List.pairwise_cons.2 ⟨fun c hc => ?_, (ih hm').1⟩, fun c hc => ?_⟩
      · rcases mem_writeByte hc with hc | rfl
        · exact hp.1 c hc
        · assumption
      · rcases List.mem_cons.1 hc with rfl | hc
        · exact hw
        · exact (ih hm').2 c hc
    · split
      · subst_vars
        split
        · exact hm'
        · refine ⟨List.pairwise_cons.2 ⟨hp.1, hp.2⟩, fun c hc => ?_⟩
          rcases List.mem_cons.1 hc with rfl | hc
          · assumption
          · exact hm'.2 c hc
      · split
        · exact ⟨List.pairwise_cons.2 hp, hv⟩
        · refine ⟨List.pairwise_cons.2 ⟨fun c hc => ?_, List.pairwise_cons.2 hp⟩, fun c hc => ?_⟩
          · rcases List.mem_cons.1 hc with rfl | hc
            · simp only; omega
            · have := hp.1 c hc; simp only at this ⊢; omega
          · rcases List.mem_cons.1 hc with rfl | hc
            · assumption
            · exact hv c hc

@[simp] theorem length_memRead (m : Memory) (a n : Nat) : (memRead m a n).length = n := by
  induction n generalizing a with
  | zero => rfl
  | succ n ih => simp [memRead, ih]

/-- Byte k of a read. -/
theorem getD_memRead (m : Memory) (a n k : Nat) (h : k < n) : (memRead m a n).getD k 0 = readByte m (a + k) := by
  induction n generalizing a k with
  | zero => omega
  | succ n ih =>
    cases k with
    | zero => simp [memRead]
    | succ k =>
      simp only [memRead, List.getD_cons_succ, ih (a + 1) k (by omega)]
      congr 1; omega

/-- Two memories that agree on a range give the same bytes. -/
theorem memRead_congr {m m' : Memory} {a n : Nat} (h : ∀ b, a ≤ b → b < a + n → readByte m b = readByte m' b) :
    memRead m a n = memRead m' a n := by
  induction n generalizing a with
  | zero => rfl
  | succ n ih =>
    simp only [memRead, h a (by omega) (by omega)]
    rw [ih fun b hb hb' => h b (by omega) (by omega)]

theorem memWrite_wf {m : Memory} (hm : Memory.wf m) (a : Nat) (v : List Byte) : Memory.wf (memWrite m a v) := by
  induction v generalizing m a with
  | nil => exact hm
  | cons b v ih => exact ih (writeByte_wf hm a b) _

theorem memDraw_wf {m : Memory} (hm : Memory.wf m) (draw a n : Nat) : Memory.wf (memDraw draw m a n) := by
  induction n generalizing m a with
  | zero => exact hm
  | succ n ih => exact ih (writeByte_wf hm a _) _

/-- A multi-byte write leaves every address outside its range alone. -/
theorem readByte_memWrite_outside {m : Memory} {a b : Nat} {v : List Byte} (h : b < a ∨ a + v.length ≤ b) :
    readByte (memWrite m a v) b = readByte m b := by
  induction v generalizing m a with
  | nil => rfl
  | cons x v ih =>
    simp only [List.length_cons] at h
    rw [memWrite, ih (by omega), readByte_writeByte_ne (by omega)]

/-- Byte k of a multi-byte write reads back. -/
theorem readByte_memWrite_inside {m : Memory} (hm : Memory.wf m) (a : Nat) (v : List Byte) (k : Nat)
    (h : k < v.length) : readByte (memWrite m a v) (a + k) = v.getD k 0 := by
  induction v generalizing m a k with
  | nil => simp at h
  | cons x v ih =>
    cases k with
    | zero =>
      rw [memWrite, readByte_memWrite_outside (by omega)]
      simpa using readByte_writeByte_self hm a x
    | succ k =>
      rw [memWrite, show a + (k + 1) = a + 1 + k by omega, ih (writeByte_wf hm a x) _ _ (by simpa using h)]
      simp

/-- A draw leaves every address outside its range alone. -/
theorem readByte_memDraw_outside {m : Memory} {draw a n b : Nat} (h : b < a ∨ a + n ≤ b) :
    readByte (memDraw draw m a n) b = readByte m b := by
  induction n generalizing m a with
  | zero => rfl
  | succ n ih => rw [memDraw, ih (by omega), readByte_writeByte_ne (by omega)]

/-- Inside its range a draw leaves free values. -/
theorem readByte_memDraw_inside {m : Memory} (hm : Memory.wf m) {draw a n b : Nat} (h : a ≤ b) (h' : b < a + n) :
    readByte (memDraw draw m a n) b = Config.freeByte draw b := by
  induction n generalizing m a with
  | zero => omega
  | succ n ih =>
    rw [memDraw]
    rcases Nat.eq_or_lt_of_le h with rfl | hlt
    · rw [readByte_memDraw_outside (by omega), readByte_writeByte_self hm]
    · exact ih (writeByte_wf hm a _) (by omega) (by omega)

/-- Every address listed after a multi-byte write was listed before or lies in the range. -/
theorem mem_memWrite {m : Memory} {a : Nat} {v : List Byte} {c : Host.Cell} (h : c ∈ memWrite m a v) :
    c ∈ m ∨ (a ≤ c.1 ∧ c.1 < a + v.length) := by
  induction v generalizing m a with
  | nil => exact .inl h
  | cons x v ih =>
    rcases ih h with h | h
    · rcases mem_writeByte h with h | rfl
      · exact .inl h
      · right; simp
    · right; simp only [List.length_cons]; omega

/-- Every address listed after a draw was listed before or lies in the range. -/
theorem mem_memDraw {m : Memory} {draw a n : Nat} {c : Host.Cell} (h : c ∈ memDraw draw m a n) :
    c ∈ m ∨ (a ≤ c.1 ∧ c.1 < a + n) := by
  induction n generalizing m a with
  | zero => exact .inl h
  | succ n ih =>
    rcases ih h with h | h
    · rcases mem_writeByte h with h | rfl
      · exact .inl h
      · right; simp only; omega
    · right; omega

end Sys2Proof.Machine
end

