-- ==== Sys2Proof/Laws/State.lean ====
section
/-! SUPPORT. One lemma per field per named update, so that no later proof unfolds a record update. -/

namespace Sys2Proof.Machine

@[simp] theorem issue_cfg (w : Word) (s : State) : (issue w s).cfg = s.cfg := rfl
@[simp] theorem issue_phase (w : Word) (s : State) : (issue w s).phase = .busy := rfl
@[simp] theorem issue_ie (w : Word) (s : State) : (issue w s).ie = s.ie := rfl
@[simp] theorem issue_cmd (w : Word) (s : State) : (issue w s).cmd = w := rfl
@[simp] theorem issue_done (w : Word) (s : State) : (issue w s).done = false := rfl
@[simp] theorem issue_err (w : Word) (s : State) : (issue w s).err = false := rfl
@[simp] theorem issue_overrun (w : Word) (s : State) : (issue w s).overrun = s.overrun := rfl
@[simp] theorem issue_errCode (w : Word) (s : State) : (issue w s).errCode = 0 := rfl
@[simp] theorem issue_srcAddr (w : Word) (s : State) : (issue w s).srcAddr = s.srcAddr := rfl
@[simp] theorem issue_srcLen (w : Word) (s : State) : (issue w s).srcLen = s.srcLen := rfl
@[simp] theorem issue_dstAddr (w : Word) (s : State) : (issue w s).dstAddr = s.dstAddr := rfl
@[simp] theorem issue_dstCap (w : Word) (s : State) : (issue w s).dstCap = s.dstCap := rfl
@[simp] theorem issue_resultLen (w : Word) (s : State) : (issue w s).resultLen = 0 := rfl
@[simp] theorem issue_errInfo (w : Word) (s : State) : (issue w s).errInfo = 0 := rfl
@[simp] theorem issue_latch (w : Word) (s : State) : (issue w s).latch = ⟨w, s.srcAddr, s.srcLen, s.dstAddr, s.dstCap⟩ := rfl
@[simp] theorem issue_touched (w : Word) (s : State) : (issue w s).touched = false := rfl
@[simp] theorem issue_mem (w : Word) (s : State) : (issue w s).mem = s.mem := rfl
@[simp] theorem issue_schedule (w : Word) (s : State) : (issue w s).schedule = s.schedule := rfl
@[simp] theorem issue_hostData (w : Word) (s : State) : (issue w s).hostData = s.hostData := rfl
@[simp] theorem issue_draws (w : Word) (s : State) : (issue w s).draws = s.draws := rfl

@[simp] theorem drawDstWindow_cfg (s : State) : (drawDstWindow s).cfg = s.cfg := rfl
@[simp] theorem drawDstWindow_phase (s : State) : (drawDstWindow s).phase = s.phase := rfl
@[simp] theorem drawDstWindow_ie (s : State) : (drawDstWindow s).ie = s.ie := rfl
@[simp] theorem drawDstWindow_cmd (s : State) : (drawDstWindow s).cmd = s.cmd := rfl
@[simp] theorem drawDstWindow_done (s : State) : (drawDstWindow s).done = s.done := rfl
@[simp] theorem drawDstWindow_err (s : State) : (drawDstWindow s).err = s.err := rfl
@[simp] theorem drawDstWindow_overrun (s : State) : (drawDstWindow s).overrun = s.overrun := rfl
@[simp] theorem drawDstWindow_errCode (s : State) : (drawDstWindow s).errCode = s.errCode := rfl
@[simp] theorem drawDstWindow_srcAddr (s : State) : (drawDstWindow s).srcAddr = s.srcAddr := rfl
@[simp] theorem drawDstWindow_srcLen (s : State) : (drawDstWindow s).srcLen = s.srcLen := rfl
@[simp] theorem drawDstWindow_dstAddr (s : State) : (drawDstWindow s).dstAddr = s.dstAddr := rfl
@[simp] theorem drawDstWindow_dstCap (s : State) : (drawDstWindow s).dstCap = s.dstCap := rfl
@[simp] theorem drawDstWindow_resultLen (s : State) : (drawDstWindow s).resultLen = s.resultLen := rfl
@[simp] theorem drawDstWindow_errInfo (s : State) : (drawDstWindow s).errInfo = s.errInfo := rfl
@[simp] theorem drawDstWindow_latch (s : State) : (drawDstWindow s).latch = s.latch := rfl
@[simp] theorem drawDstWindow_touched (s : State) : (drawDstWindow s).touched = s.touched := rfl
@[simp] theorem drawDstWindow_mem (s : State) : (drawDstWindow s).mem = memDraw s.draws s.mem s.latch.dstAddr.toNat (dstWindowBytes s) := rfl
@[simp] theorem drawDstWindow_schedule (s : State) : (drawDstWindow s).schedule = s.schedule := rfl
@[simp] theorem drawDstWindow_hostData (s : State) : (drawDstWindow s).hostData = s.hostData := rfl
@[simp] theorem drawDstWindow_draws (s : State) : (drawDstWindow s).draws = s.draws + 1 := rfl

@[simp] theorem finish_cfg (s : State) : (finish s).cfg = s.cfg := rfl
@[simp] theorem finish_phase (s : State) : (finish s).phase = .idle := rfl
@[simp] theorem finish_ie (s : State) : (finish s).ie = s.ie := rfl
@[simp] theorem finish_cmd (s : State) : (finish s).cmd = s.cmd := rfl
@[simp] theorem finish_done (s : State) : (finish s).done = true := rfl
@[simp] theorem finish_err (s : State) : (finish s).err = s.err := rfl
@[simp] theorem finish_overrun (s : State) : (finish s).overrun = s.overrun := rfl
@[simp] theorem finish_errCode (s : State) : (finish s).errCode = s.errCode := rfl
@[simp] theorem finish_srcAddr (s : State) : (finish s).srcAddr = s.srcAddr := rfl
@[simp] theorem finish_srcLen (s : State) : (finish s).srcLen = s.srcLen := rfl
@[simp] theorem finish_dstAddr (s : State) : (finish s).dstAddr = s.dstAddr := rfl
@[simp] theorem finish_dstCap (s : State) : (finish s).dstCap = s.dstCap := rfl
@[simp] theorem finish_resultLen (s : State) : (finish s).resultLen = s.resultLen := rfl
@[simp] theorem finish_errInfo (s : State) : (finish s).errInfo = s.errInfo := rfl
@[simp] theorem finish_latch (s : State) : (finish s).latch = s.latch := rfl
@[simp] theorem finish_touched (s : State) : (finish s).touched = s.touched := rfl
@[simp] theorem finish_mem (s : State) : (finish s).mem = s.mem := rfl
@[simp] theorem finish_schedule (s : State) : (finish s).schedule = s.schedule := rfl
@[simp] theorem finish_hostData (s : State) : (finish s).hostData = s.hostData := rfl
@[simp] theorem finish_draws (s : State) : (finish s).draws = s.draws := rfl

@[simp] theorem completeOk_cfg (out : List Byte) (s : State) : (completeOk out s).cfg = s.cfg := rfl
@[simp] theorem completeOk_phase (out : List Byte) (s : State) : (completeOk out s).phase = .idle := rfl
@[simp] theorem completeOk_ie (out : List Byte) (s : State) : (completeOk out s).ie = s.ie := rfl
@[simp] theorem completeOk_cmd (out : List Byte) (s : State) : (completeOk out s).cmd = s.cmd := rfl
@[simp] theorem completeOk_done (out : List Byte) (s : State) : (completeOk out s).done = true := rfl
@[simp] theorem completeOk_err (out : List Byte) (s : State) : (completeOk out s).err = false := rfl
@[simp] theorem completeOk_overrun (out : List Byte) (s : State) : (completeOk out s).overrun = s.overrun := rfl
@[simp] theorem completeOk_errCode (out : List Byte) (s : State) : (completeOk out s).errCode = 0 := rfl
@[simp] theorem completeOk_srcAddr (out : List Byte) (s : State) : (completeOk out s).srcAddr = s.srcAddr := rfl
@[simp] theorem completeOk_srcLen (out : List Byte) (s : State) : (completeOk out s).srcLen = s.srcLen := rfl
@[simp] theorem completeOk_dstAddr (out : List Byte) (s : State) : (completeOk out s).dstAddr = s.dstAddr := rfl
@[simp] theorem completeOk_dstCap (out : List Byte) (s : State) : (completeOk out s).dstCap = s.dstCap := rfl
@[simp] theorem completeOk_resultLen (out : List Byte) (s : State) : (completeOk out s).resultLen = BitVec.ofNat 32 out.length := rfl
@[simp] theorem completeOk_errInfo (out : List Byte) (s : State) : (completeOk out s).errInfo = 0 := rfl
@[simp] theorem completeOk_latch (out : List Byte) (s : State) : (completeOk out s).latch = s.latch := rfl
@[simp] theorem completeOk_touched (out : List Byte) (s : State) : (completeOk out s).touched = s.touched := rfl
@[simp] theorem completeOk_mem (out : List Byte) (s : State) : (completeOk out s).mem = memWrite s.mem s.latch.dstAddr.toNat out := rfl
@[simp] theorem completeOk_schedule (out : List Byte) (s : State) : (completeOk out s).schedule = s.schedule := rfl
@[simp] theorem completeOk_hostData (out : List Byte) (s : State) : (completeOk out s).hostData = s.hostData := rfl
@[simp] theorem completeOk_draws (out : List Byte) (s : State) : (completeOk out s).draws = s.draws := rfl

@[simp] theorem recordError_cfg (code : ErrCode) (info : Word) (s : State) : (recordError code info s).cfg = s.cfg := rfl
@[simp] theorem recordError_phase (code : ErrCode) (info : Word) (s : State) : (recordError code info s).phase = .idle := rfl
@[simp] theorem recordError_ie (code : ErrCode) (info : Word) (s : State) : (recordError code info s).ie = s.ie := rfl
@[simp] theorem recordError_cmd (code : ErrCode) (info : Word) (s : State) : (recordError code info s).cmd = s.cmd := rfl
@[simp] theorem recordError_done (code : ErrCode) (info : Word) (s : State) : (recordError code info s).done = true := rfl
@[simp] theorem recordError_err (code : ErrCode) (info : Word) (s : State) : (recordError code info s).err = true := rfl
@[simp] theorem recordError_overrun (code : ErrCode) (info : Word) (s : State) : (recordError code info s).overrun = s.overrun := rfl
@[simp] theorem recordError_errCode (code : ErrCode) (info : Word) (s : State) : (recordError code info s).errCode = errCodeByte code := rfl
@[simp] theorem recordError_srcAddr (code : ErrCode) (info : Word) (s : State) : (recordError code info s).srcAddr = s.srcAddr := rfl
@[simp] theorem recordError_srcLen (code : ErrCode) (info : Word) (s : State) : (recordError code info s).srcLen = s.srcLen := rfl
@[simp] theorem recordError_dstAddr (code : ErrCode) (info : Word) (s : State) : (recordError code info s).dstAddr = s.dstAddr := rfl
@[simp] theorem recordError_dstCap (code : ErrCode) (info : Word) (s : State) : (recordError code info s).dstCap = s.dstCap := rfl
@[simp] theorem recordError_resultLen (code : ErrCode) (info : Word) (s : State) : (recordError code info s).resultLen = 0 := rfl
@[simp] theorem recordError_errInfo (code : ErrCode) (info : Word) (s : State) : (recordError code info s).errInfo = info := rfl
@[simp] theorem recordError_latch (code : ErrCode) (info : Word) (s : State) : (recordError code info s).latch = s.latch := rfl
@[simp] theorem recordError_touched (code : ErrCode) (info : Word) (s : State) : (recordError code info s).touched = s.touched := rfl
@[simp] theorem recordError_mem (code : ErrCode) (info : Word) (s : State) : (recordError code info s).mem = s.mem := rfl
@[simp] theorem recordError_schedule (code : ErrCode) (info : Word) (s : State) : (recordError code info s).schedule = s.schedule := rfl
@[simp] theorem recordError_hostData (code : ErrCode) (info : Word) (s : State) : (recordError code info s).hostData = s.hostData := rfl
@[simp] theorem recordError_draws (code : ErrCode) (info : Word) (s : State) : (recordError code info s).draws = s.draws := rfl

@[simp] theorem completeRaced_cfg (s : State) : (completeRaced s).cfg = s.cfg := rfl
@[simp] theorem completeRaced_phase (s : State) : (completeRaced s).phase = .idle := rfl
@[simp] theorem completeRaced_ie (s : State) : (completeRaced s).ie = s.ie := rfl
@[simp] theorem completeRaced_cmd (s : State) : (completeRaced s).cmd = s.cmd := rfl
@[simp] theorem completeRaced_done (s : State) : (completeRaced s).done = true := rfl
@[simp] theorem completeRaced_err (s : State) : (completeRaced s).err = (racedError s.draws).isSome := rfl
@[simp] theorem completeRaced_overrun (s : State) : (completeRaced s).overrun = s.overrun := rfl
@[simp] theorem completeRaced_errCode (s : State) : (completeRaced s).errCode = ((racedError s.draws).map errCodeByte).getD 0 := rfl
@[simp] theorem completeRaced_srcAddr (s : State) : (completeRaced s).srcAddr = s.srcAddr := rfl
@[simp] theorem completeRaced_srcLen (s : State) : (completeRaced s).srcLen = s.srcLen := rfl
@[simp] theorem completeRaced_dstAddr (s : State) : (completeRaced s).dstAddr = s.dstAddr := rfl
@[simp] theorem completeRaced_dstCap (s : State) : (completeRaced s).dstCap = s.dstCap := rfl
@[simp] theorem completeRaced_resultLen (s : State) : (completeRaced s).resultLen = Config.freeResultLen s.draws := rfl
@[simp] theorem completeRaced_errInfo (s : State) : (completeRaced s).errInfo = Config.freeErrInfo s.draws := rfl
@[simp] theorem completeRaced_latch (s : State) : (completeRaced s).latch = s.latch := rfl
@[simp] theorem completeRaced_touched (s : State) : (completeRaced s).touched = s.touched := rfl
@[simp] theorem completeRaced_mem (s : State) : (completeRaced s).mem = memDraw s.draws s.mem s.latch.dstAddr.toNat (dstWindowBytes s) := rfl
@[simp] theorem completeRaced_schedule (s : State) : (completeRaced s).schedule = s.schedule := rfl
@[simp] theorem completeRaced_hostData (s : State) : (completeRaced s).hostData = s.hostData := rfl
@[simp] theorem completeRaced_draws (s : State) : (completeRaced s).draws = s.draws + 1 := rfl

@[simp] theorem resetRegisters_cfg (s : State) : (resetRegisters s).cfg = s.cfg := rfl
@[simp] theorem resetRegisters_phase (s : State) : (resetRegisters s).phase = .idle := rfl
@[simp] theorem resetRegisters_ie (s : State) : (resetRegisters s).ie = false := rfl
@[simp] theorem resetRegisters_cmd (s : State) : (resetRegisters s).cmd = 0 := rfl
@[simp] theorem resetRegisters_done (s : State) : (resetRegisters s).done = false := rfl
@[simp] theorem resetRegisters_err (s : State) : (resetRegisters s).err = false := rfl
@[simp] theorem resetRegisters_overrun (s : State) : (resetRegisters s).overrun = false := rfl
@[simp] theorem resetRegisters_errCode (s : State) : (resetRegisters s).errCode = 0 := rfl
@[simp] theorem resetRegisters_srcAddr (s : State) : (resetRegisters s).srcAddr = 0 := rfl
@[simp] theorem resetRegisters_srcLen (s : State) : (resetRegisters s).srcLen = 0 := rfl
@[simp] theorem resetRegisters_dstAddr (s : State) : (resetRegisters s).dstAddr = 0 := rfl
@[simp] theorem resetRegisters_dstCap (s : State) : (resetRegisters s).dstCap = 0 := rfl
@[simp] theorem resetRegisters_resultLen (s : State) : (resetRegisters s).resultLen = 0 := rfl
@[simp] theorem resetRegisters_errInfo (s : State) : (resetRegisters s).errInfo = 0 := rfl
@[simp] theorem resetRegisters_latch (s : State) : (resetRegisters s).latch = ⟨0, 0, 0, 0, 0⟩ := rfl
@[simp] theorem resetRegisters_touched (s : State) : (resetRegisters s).touched = false := rfl
@[simp] theorem resetRegisters_mem (s : State) : (resetRegisters s).mem = s.mem := rfl
@[simp] theorem resetRegisters_schedule (s : State) : (resetRegisters s).schedule = s.schedule := rfl
@[simp] theorem resetRegisters_hostData (s : State) : (resetRegisters s).hostData = s.hostData := rfl
@[simp] theorem resetRegisters_draws (s : State) : (resetRegisters s).draws = s.draws := rfl

@[simp] theorem clearFlags_cfg (d o : Bool) (s : State) : (clearFlags d o s).cfg = s.cfg := rfl
@[simp] theorem clearFlags_phase (d o : Bool) (s : State) : (clearFlags d o s).phase = s.phase := rfl
@[simp] theorem clearFlags_ie (d o : Bool) (s : State) : (clearFlags d o s).ie = s.ie := rfl
@[simp] theorem clearFlags_cmd (d o : Bool) (s : State) : (clearFlags d o s).cmd = s.cmd := rfl
@[simp] theorem clearFlags_done (d o : Bool) (s : State) : (clearFlags d o s).done = (s.done && !d) := rfl
@[simp] theorem clearFlags_err (d o : Bool) (s : State) : (clearFlags d o s).err = s.err := rfl
@[simp] theorem clearFlags_overrun (d o : Bool) (s : State) : (clearFlags d o s).overrun = (s.overrun && !o) := rfl
@[simp] theorem clearFlags_errCode (d o : Bool) (s : State) : (clearFlags d o s).errCode = s.errCode := rfl
@[simp] theorem clearFlags_srcAddr (d o : Bool) (s : State) : (clearFlags d o s).srcAddr = s.srcAddr := rfl
@[simp] theorem clearFlags_srcLen (d o : Bool) (s : State) : (clearFlags d o s).srcLen = s.srcLen := rfl
@[simp] theorem clearFlags_dstAddr (d o : Bool) (s : State) : (clearFlags d o s).dstAddr = s.dstAddr := rfl
@[simp] theorem clearFlags_dstCap (d o : Bool) (s : State) : (clearFlags d o s).dstCap = s.dstCap := rfl
@[simp] theorem clearFlags_resultLen (d o : Bool) (s : State) : (clearFlags d o s).resultLen = s.resultLen := rfl
@[simp] theorem clearFlags_errInfo (d o : Bool) (s : State) : (clearFlags d o s).errInfo = s.errInfo := rfl
@[simp] theorem clearFlags_latch (d o : Bool) (s : State) : (clearFlags d o s).latch = s.latch := rfl
@[simp] theorem clearFlags_touched (d o : Bool) (s : State) : (clearFlags d o s).touched = s.touched := rfl
@[simp] theorem clearFlags_mem (d o : Bool) (s : State) : (clearFlags d o s).mem = s.mem := rfl
@[simp] theorem clearFlags_schedule (d o : Bool) (s : State) : (clearFlags d o s).schedule = s.schedule := rfl
@[simp] theorem clearFlags_hostData (d o : Bool) (s : State) : (clearFlags d o s).hostData = s.hostData := rfl
@[simp] theorem clearFlags_draws (d o : Bool) (s : State) : (clearFlags d o s).draws = s.draws := rfl

@[simp] theorem hostStore_cfg (a : Nat) (v : Byte) (s : State) : (hostStore a v s).cfg = s.cfg := rfl
@[simp] theorem hostStore_phase (a : Nat) (v : Byte) (s : State) : (hostStore a v s).phase = s.phase := rfl
@[simp] theorem hostStore_ie (a : Nat) (v : Byte) (s : State) : (hostStore a v s).ie = s.ie := rfl
@[simp] theorem hostStore_cmd (a : Nat) (v : Byte) (s : State) : (hostStore a v s).cmd = s.cmd := rfl
@[simp] theorem hostStore_done (a : Nat) (v : Byte) (s : State) : (hostStore a v s).done = s.done := rfl
@[simp] theorem hostStore_err (a : Nat) (v : Byte) (s : State) : (hostStore a v s).err = s.err := rfl
@[simp] theorem hostStore_overrun (a : Nat) (v : Byte) (s : State) : (hostStore a v s).overrun = s.overrun := rfl
@[simp] theorem hostStore_errCode (a : Nat) (v : Byte) (s : State) : (hostStore a v s).errCode = s.errCode := rfl
@[simp] theorem hostStore_srcAddr (a : Nat) (v : Byte) (s : State) : (hostStore a v s).srcAddr = s.srcAddr := rfl
@[simp] theorem hostStore_srcLen (a : Nat) (v : Byte) (s : State) : (hostStore a v s).srcLen = s.srcLen := rfl
@[simp] theorem hostStore_dstAddr (a : Nat) (v : Byte) (s : State) : (hostStore a v s).dstAddr = s.dstAddr := rfl
@[simp] theorem hostStore_dstCap (a : Nat) (v : Byte) (s : State) : (hostStore a v s).dstCap = s.dstCap := rfl
@[simp] theorem hostStore_resultLen (a : Nat) (v : Byte) (s : State) : (hostStore a v s).resultLen = s.resultLen := rfl
@[simp] theorem hostStore_errInfo (a : Nat) (v : Byte) (s : State) : (hostStore a v s).errInfo = s.errInfo := rfl
@[simp] theorem hostStore_latch (a : Nat) (v : Byte) (s : State) : (hostStore a v s).latch = s.latch := rfl
@[simp] theorem hostStore_touched (a : Nat) (v : Byte) (s : State) : (hostStore a v s).touched = (s.touched || (s.busy && (inSrcWindow s a || inDstWindow s a))) := rfl
@[simp] theorem hostStore_mem (a : Nat) (v : Byte) (s : State) : (hostStore a v s).mem = writeByte s.mem a v := rfl
@[simp] theorem hostStore_schedule (a : Nat) (v : Byte) (s : State) : (hostStore a v s).schedule = s.schedule := rfl
@[simp] theorem hostStore_hostData (a : Nat) (v : Byte) (s : State) : (hostStore a v s).hostData = s.hostData := rfl
@[simp] theorem hostStore_draws (a : Nat) (v : Byte) (s : State) : (hostStore a v s).draws = s.draws := rfl

end Sys2Proof.Machine
end

