-- ==== Sys2Proof/Laws/Ops.lean ====
section
/-! SUPPORT. What each shared operation can do, said once: the completions, the window checks, the register index, the
meanings of the command instructions and the step. -/

namespace Sys2Proof.Machine

/-! ## Completions -/

theorem complete_ok {s : State} (h : s.raceFree) (out : List Byte) : complete (.ok out) s = completeOk out s := by
  simp [complete, h]

theorem complete_err {s : State} (h : s.raceFree) (code : ErrCode) (info : Word) :
    complete (.err code info) s = completeErr code info s := by
  simp [complete, h]

theorem complete_raced {s : State} (h : s.touched = true) (r : Result) : complete r s = completeRaced s := by
  simp [complete, h]

theorem inWindow_eq_false {base n a : Nat} : inWindow base n a = false ↔ a < base ∨ base + n ≤ a := by
  simp [inWindow]; omega

/-- The part of the DST window that host memory has is inside the DST window. -/
theorem outside_of_not_inDstWindow {s : State} {a : Nat} (h : inDstWindow s a = false) :
    a < s.latch.dstAddr.toNat ∨ s.latch.dstAddr.toNat + dstWindowBytes s ≤ a := by
  rw [inDstWindow, inWindow_eq_false] at h
  rw [dstWindowBytes]; omega

/-- A completion with an output does what R420 says. -/
theorem completeOk_succeeds {s : State} (hm : Memory.wf s.mem) (out : List Byte) :
    Succeeds s (completeOk out s) out where
  registers := rfl
  output k hk := readByte_memWrite_inside hm _ _ k hk
  frame _ ha := readByte_memWrite_outside (inWindow_eq_false.1 ha)

/-- A completion with an error does what R421 says. -/
theorem completeErr_fails (s : State) (code : ErrCode) (info : Word) :
    Fails s (completeErr code info s) code info where
  registers := by cases h : touchesNoMemory code <;> simp [completeErr, h, recordError, finish, drawDstWindow]
  frame _ ha := by
    cases h : touchesNoMemory code
    · simp only [h, Bool.false_eq_true, false_or] at ha
      simp only [completeErr, h, Bool.false_eq_true, if_false, recordError_mem, drawDstWindow_mem]
      exact readByte_memDraw_outside (outside_of_not_inDstWindow ha)
    · simp [completeErr, h]

/-- A race-free completion does what its result says. -/
theorem complete_completesWith {s : State} (h : s.raceFree) (hm : Memory.wf s.mem) (r : Result) :
    CompletesWith s (complete r s) r := by
  cases r with
  | ok out => rw [complete_ok h]; exact completeOk_succeeds hm out
  | err code info => rw [complete_err h]; exact completeErr_fails s code info

/-- Every completion leaves the sequencer idle with DONE set and changes no register it does not write. -/
theorem complete_registers (r : Result) (s : State) :
    complete r s = { s with
      phase := .idle, done := true, err := (complete r s).err, errCode := (complete r s).errCode,
      resultLen := (complete r s).resultLen, errInfo := (complete r s).errInfo, mem := (complete r s).mem,
      draws := (complete r s).draws } := by
  unfold complete
  split
  · rfl
  · cases r with
    | ok out => rfl
    | err code info =>
      cases h : touchesNoMemory code <;> simp [completeErr, h, recordError, finish, drawDstWindow]

@[simp] theorem complete_phase (r : Result) (s : State) : (complete r s).phase = .idle := by
  rw [complete_registers]

@[simp] theorem complete_done (r : Result) (s : State) : (complete r s).done = true := by
  rw [complete_registers]

@[simp] theorem complete_cfg (r : Result) (s : State) : (complete r s).cfg = s.cfg := by
  rw [complete_registers]

@[simp] theorem complete_ie (r : Result) (s : State) : (complete r s).ie = s.ie := by
  rw [complete_registers]

/-! ## Window checks -/

theorem windowError_eq_none {s : State} :
    windowError s = none ↔ srcOutside s = false ∧ dstOutside s = false ∧ windowsOverlap s = false := by
  unfold windowError
  cases srcOutside s <;> cases dstOutside s <;> cases windowsOverlap s <;> simp

theorem dataResult_of_none {s : State} (h : windowError s = none) (f : List Byte → Nat → Result) :
    dataResult s f = f (sourceBytes s) (dstCapacity s) := by
  simp [dataResult, h]

theorem dataResult_of_some {s : State} {code : ErrCode} {info : Word} (h : windowError s = some (code, info))
    (f : List Byte → Nat → Result) : dataResult s f = .err code info := by
  simp [dataResult, h]

@[simp] theorem length_sourceBytes (s : State) : (sourceBytes s).length = s.latch.srcLen.toNat := length_memRead _ _ _

/-! ## Meanings of the command instructions -/

/-- A command instruction answers one completion. -/
theorem exec_command {i : Instr} (h : i.port = .cmd) (s : State) : ∃ r, exec i s = .next (complete r s) := by
  cases i with
  | ctrlWrite _ _ _ => cases h
  | statusW1c _ _ _ _ _ => cases h
  | _ => exact ⟨_, rfl⟩

theorem decodeCmd_port (w : Word) : (decodeCmd w).port = .cmd := by
  have hrows : ∀ row ∈ opcodeRows, row.2.port = .cmd := by decide
  unfold decodeCmd
  split
  · exact hrows _ (List.mem_of_find?_eq_some ‹_›)
  · rfl

/-- What the engine's turn can do: nothing while IDLE, one completion while BUSY. -/
theorem engineTurn_cases (s : State) :
    (s.phase = .idle ∧ engineTurn s = .next s) ∨
    (s.phase = .busy ∧ ∃ r, engineTurn s = .next (complete r s)) := by
  unfold engineTurn
  cases h : s.phase with
  | idle => simp
  | busy => exact .inr ⟨rfl, exec_command (decodeCmd_port _) s⟩

/-! ## Register accesses -/

theorem registerIndex_register (c : Config) {k : Nat} (h : k < 64) :
    registerIndex c (c.engineBase + 4 * k) 32 = some k := by
  unfold registerIndex
  rw [if_pos (by omega)]
  congr 1; omega

theorem registerIndex_eq_some {c : Config} {addr width k : Nat} (h : registerIndex c addr width = some k) :
    width = 32 ∧ addr = c.engineBase + 4 * k ∧ k < 64 := by
  unfold registerIndex at h
  split at h
  · simp only [Option.some.injEq] at h; omega
  · cases h

/-! ## The step -/

/-- A step with nothing left in the schedule. -/
theorem step_nil {s : State} (h : s.cfg.legal = true) (hs : s.schedule = []) : step s = engineTurn s := by
  rw [step, if_pos h]; simp only [hs]

/-- A step with the engine's turn next. -/
theorem step_engine {s : State} (h : s.cfg.legal = true) {rest : List Event} (hs : s.schedule = .engine :: rest) :
    step s = engineTurn { s with schedule := rest } := by
  rw [step, if_pos h]; simp only [hs]

/-- A step with a host access next. -/
theorem step_host {s : State} (h : s.cfg.legal = true) {a : HostAccess} {rest : List Event}
    (hs : s.schedule = .host a :: rest) : step s = hostAccess a { s with schedule := rest } := by
  rw [step, if_pos h]; simp only [hs]

theorem step_withAccess {s : State} (h : s.cfg.legal = true) (a : HostAccess) :
    step (s.withAccess a) = hostAccess a s := by
  rw [step_host (s := s.withAccess a) h rfl]; rfl

/-- A step that answers a next state took an engine turn or a host access, under a legal configuration. -/
theorem step_next {s t : State} (h : step s = .next t) :
    s.cfg.legal = true ∧
    ((s.engineNext ∧ ∃ rest, engineTurn { s with schedule := rest } = .next t) ∨
     ∃ a u, s = State.withAccess u a ∧ hostAccess a u = .next t) := by
  by_cases hc : s.cfg.legal = true
  · refine ⟨hc, ?_⟩
    cases hs : s.schedule with
    | nil =>
      rw [step_nil hc hs] at h
      refine .inl ⟨.inl hs, [], ?_⟩
      rw [← h, ← hs]
    | cons e rest =>
      cases e with
      | engine => rw [step_engine hc hs] at h; exact .inl ⟨.inr ⟨rest, hs⟩, rest, h⟩
      | host a =>
        rw [step_host hc hs] at h
        refine .inr ⟨a, { s with schedule := rest }, ?_, h⟩
        simp [State.withAccess, ← hs]
  · rw [step, if_neg hc] at h; cases h

/-- A step with a register write next. -/
theorem step_withWrite {s : State} (h : s.cfg.legal = true) {k : Nat} (hk : k < 64) (v : Word) :
    step (s.withWrite k v) = hostRegisterWrite k v s := by
  have := step_withAccess h (.regWrite (s.cfg.engineBase + 4 * k) 32 v)
  rw [show s.withWrite k v = s.withAccess (.regWrite (s.cfg.engineBase + 4 * k) 32 v) from rfl, this]
  simp [hostAccess, registerIndex_register _ hk]

/-- A step with a register read next. -/
theorem step_withRead {s : State} (h : s.cfg.legal = true) {k : Nat} (hk : k < 64) :
    step (s.withRead k) = .next { s with hostData := readRegister s k } := by
  have := step_withAccess h (.regRead (s.cfg.engineBase + 4 * k) 32)
  rw [show s.withRead k = s.withAccess (.regRead (s.cfg.engineBase + 4 * k) 32) from rfl, this]
  simp [hostAccess, registerIndex_register _ hk]

end Sys2Proof.Machine
end

