-- ==== Sys2Proof/Laws/Results.lean ====
section
/-! SUPPORT. How long the outputs of the pure functions are: none is longer than the capacity (40_sequencer.md R411). -/

namespace Sys2Proof.Machine

theorem okWithin_eq_ok {cap : Nat} {out o : List Byte} (h : okWithin cap out = .ok o) : o = out ∧ out.length ≤ cap := by
  unfold okWithin at h
  split at h
  · cases h
  · injection h with h; exact ⟨h.symm, by omega⟩

theorem consResult_eq_ok {b : Byte} {r : Result} {o : List Byte} (h : consResult b r = .ok o) :
    ∃ out, r = .ok out ∧ o = b :: out := by
  cases r with
  | ok out => injection h with h; exact ⟨out, rfl, h.symm⟩
  | err code info => cases h

/-! ## BWT and UNBWT -/

@[simp] theorem length_insertSuffix (s : Nat × List Nat) (l : List (Nat × List Nat)) :
    (insertSuffix s l).length = l.length + 1 := by
  induction l with
  | nil => rfl
  | cons t ts ih => rw [insertSuffix]; split <;> simp [ih]

@[simp] theorem length_sortSuffixes (l : List (Nat × List Nat)) : (sortSuffixes l).length = l.length := by
  induction l with
  | nil => rfl
  | cons s ss ih => simp [sortSuffixes, ih]

@[simp] theorem length_suffixesFrom (p : Nat) (X : List Nat) : (suffixesFrom p X).length = X.length := by
  induction X generalizing p with
  | nil => rfl
  | cons x xs ih => simp [suffixesFrom, ih]

@[simp] theorem length_suffixOrder (T : List Byte) : (suffixOrder T).length = T.length + 1 := by
  simp [suffixOrder, textWithSentinel]

/-- The record is nine bytes longer than the block. -/
@[simp] theorem length_permutationRecord (T : List Byte) : (permutationRecord T).length = T.length + 9 := by
  simp [permutationRecord]; omega

theorem bwtF_le {T : List Byte} {cap : Nat} {out : List Byte} (h : bwtF T cap = .ok out) : out.length ≤ cap := by
  unfold bwtF at h
  split at h
  · cases h
  · split at h
    · cases h
    · injection h with h; subst h; simp; omega

@[simp] theorem length_walkRows (rows : List Byte) (succ : List Nat) (n j : Nat) :
    (walkRows rows succ n j).length = n := by
  induction n generalizing j with
  | zero => rfl
  | succ n ih => simp [walkRows, ih]

theorem unbwtF_le {R : List Byte} {cap : Nat} {out : List Byte} (h : unbwtF R cap = .ok out) : out.length ≤ cap := by
  unfold unbwtF at h
  split at h
  · cases h
  · dsimp only at h
    repeat' split at h
    all_goals first
      | cases h; done
      | injection h with h; subst h; simp; omega

/-! ## HUFF and PUFF -/

@[simp] theorem length_huffLengths (tie : List HuffTree → HuffTree × HuffTree) (S : List Byte) :
    (huffLengths tie S).length = 256 := by
  simp [huffLengths]

theorem huffF_le {tie : List HuffTree → HuffTree × HuffTree} {S : List Byte} {cap : Nat} {out : List Byte}
    (h : huffF tie S cap = .ok out) : out.length ≤ cap := by
  obtain ⟨rfl, hle⟩ := okWithin_eq_ok h
  exact hle

theorem puffBits_le {table : List CodeRow} {acc n room : Nat} {bits : List Bool} {out : List Byte}
    (h : puffBits table acc n room bits = .ok out) : out.length ≤ room := by
  induction bits generalizing acc n room out with
  | nil =>
    rw [puffBits] at h
    split at h
    · cases h
    · injection h with h; subst h; simp
  | cons bit bits ih =>
    rw [puffBits] at h
    split at h
    · exact ih h
    · cases room with
      | zero => cases h
      | succ room =>
        obtain ⟨out', h', rfl⟩ := consResult_eq_ok h
        have := ih h'
        simp; omega

theorem puffF_le {S : List Byte} {cap : Nat} {out : List Byte} (h : puffF S cap = .ok out) : out.length ≤ cap := by
  unfold puffF puffWith at h
  split at h
  · cases h
  · dsimp only at h
    split at h
    · exact puffBits_le h
    · cases h

/-! ## ARITH and UNARITH -/

theorem arithF_le {c : Config} {S : List Byte} {cap : Nat} {out : List Byte} (h : arithF c S cap = .ok out) :
    out.length ≤ cap := by
  obtain ⟨rfl, hle⟩ := okWithin_eq_ok h
  exact hle

theorem decodeSymbols_le {c : Config} {S : List Byte} {room : Nat} {freq : List Nat} {d : Decoder} {out : List Byte}
    (h : decodeSymbols c S room freq d = .ok out) : out.length ≤ room := by
  induction room generalizing freq d out with
  | zero =>
    rw [decodeSymbols] at h
    split at h
    · injection h with h; subst h; simp
    · cases h
  | succ room ih =>
    rw [decodeSymbols] at h
    split at h
    · injection h with h; subst h; simp
    · obtain ⟨out', h', rfl⟩ := consResult_eq_ok h
      have := ih h'
      simp; omega

theorem unarithF_le {c : Config} {S : List Byte} {cap : Nat} {out : List Byte} (h : unarithF c S cap = .ok out) :
    out.length ≤ cap := decodeSymbols_le h

/-- No command's function answers an output longer than the capacity. -/
theorem commandFunction_le {c : Config} {i : Instr} {f : List Byte → Nat → Result} (hf : commandFunction c i = some f)
    {S : List Byte} {cap : Nat} {out : List Byte} (h : f S cap = .ok out) : out.length ≤ cap := by
  cases i <;> simp only [commandFunction, Option.some.injEq, reduceCtorEq] at hf <;> subst hf
  · exact bwtF_le h
  · exact unbwtF_le h
  · exact huffF_le h
  · exact huffF_le h
  · exact huffF_le h
  · exact puffF_le h
  · exact puffF_le h
  · exact puffF_le h
  · exact arithF_le h
  · exact unarithF_le h

end Sys2Proof.Machine
end

