-- ==== Sys2Proof/Laws/Step.lean ====
section
/-! SUPPORT. What a host access and a step can do, each said once: the later lemmas cite `hostAccess_effect` and
`step_cases` and do not unfold the access or the step. -/

namespace Sys2Proof.Machine

/-- What a host access does when it answers a next state. -/
inductive HostEffect (s : State) : HostAccess → State → Prop where
  | regRead (k : Nat) (hk : k < 64) :
      HostEffect s (.regRead (s.cfg.engineBase + 4 * k) 32) { s with hostData := readRegister s k }
  | softReset (v : Word) (hv : v.getLsbD 1 = true) :
      HostEffect s (.regWrite (s.cfg.engineBase + 4 * 1) 32 v) (Machine.softReset s)
  | enable (v : Word) (hv : v.getLsbD 1 = false) :
      HostEffect s (.regWrite (s.cfg.engineBase + 4 * 1) 32 v) { s with ie := v.getLsbD 0 }
  | command (v : Word) :
      HostEffect s (.regWrite (s.cfg.engineBase + 4 * 2) 32 v) (writeCmd v s)
  | acknowledge (v : Word) :
      HostEffect s (.regWrite (s.cfg.engineBase + 4 * 3) 32 v) (clearFlags (v.getLsbD 1) (v.getLsbD 3) s)
  | buffer (k : Nat) (v : Word) (hk : k = 0 ∨ (4 ≤ k ∧ k < 64)) :
      HostEffect s (.regWrite (s.cfg.engineBase + 4 * k) 32 v) (writeBuffer k v s)
  | memRead (addr : Nat) (h : addr < s.cfg.memSize) : HostEffect s (.memRead addr) (hostLoad addr s)
  | memWrite (addr : Nat) (v : Byte) (h : addr < s.cfg.memSize) :
      HostEffect s (.memWrite addr v) (hostStore addr v s)
  | reset : HostEffect s .reset (Machine.softReset s)

/-- A soft reset forgets IE. -/
theorem softReset_ie (s : State) (b : Bool) : softReset { s with ie := b } = softReset s := by
  unfold softReset
  cases hb : s.busy <;> simp only [State.busy] at hb <;>
    simp [State.busy, hb, resetRegisters, drawDstWindow, dstWindowBytes]

theorem outsideMemory_ne_next (addr : Nat) (s t : State) : outsideMemory addr s ≠ .next t := by
  unfold outsideMemory
  split <;> exact fun h => by cases h

theorem hostAccess_effect {a : HostAccess} {s t : State} (h : hostAccess a s = .next t) : HostEffect s a t := by
  cases a with
  | regRead addr width =>
    simp only [hostAccess] at h
    split at h
    · obtain ⟨rfl, rfl, hk⟩ := registerIndex_eq_some ‹_›
      cases h
      exact .regRead _ hk
    · cases h
  | regWrite addr width v =>
    simp only [hostAccess] at h
    split at h
    · obtain ⟨rfl, rfl, hk⟩ := registerIndex_eq_some ‹_›
      unfold hostRegisterWrite at h
      split at h
      · cases hv : v.getLsbD 1 with
        | true =>
          simp only [decodeCtrl, exec, execCtrlWrite, hv, if_true, softReset_ie] at h
          cases h; exact .softReset v hv
        | false =>
          simp only [decodeCtrl, exec, execCtrlWrite, hv, Bool.false_eq_true, if_false] at h
          cases h; exact .enable v hv
      · cases h; exact .command v
      · cases h; exact .acknowledge v
      · rename_i h1 h2 h3
        have h1' : ¬_ = 1 := h1
        have h2' : ¬_ = 2 := h2
        have h3' : ¬_ = 3 := h3
        cases h
        exact .buffer _ v (by omega)
    · cases h
  | memRead addr =>
    simp only [hostAccess] at h
    split at h
    · cases h; exact .memRead addr ‹_›
    · exact absurd h (outsideMemory_ne_next _ _ _)
  | memWrite addr v =>
    simp only [hostAccess] at h
    split at h
    · cases h; exact .memWrite addr v ‹_›
    · exact absurd h (outsideMemory_ne_next _ _ _)
  | reset => cases h; exact .reset

/-- What a step does when it answers a next state: a completion, nothing, or one host access's effect. -/
theorem step_cases {s t : State} (h : step s = .next t) :
    s.cfg.legal = true ∧
    ((s.engineNext ∧ s.phase = .busy ∧ ∃ rest r, t = complete r { s with schedule := rest } ∧
        exec (decodeCmd s.latch.cmd) { s with schedule := rest } = .next t) ∨
     (s.engineNext ∧ s.phase = .idle ∧ ∃ rest, t = { s with schedule := rest }) ∨
     ∃ a u, s = State.withAccess u a ∧ HostEffect u a t) := by
  obtain ⟨hc, h⟩ := step_next h
  refine ⟨hc, ?_⟩
  rcases h with ⟨he, rest, h⟩ | ⟨a, u, hs, h⟩
  · by_cases hp : s.phase = .busy
    · have hx : engineTurn { s with schedule := rest } = exec (decodeCmd s.latch.cmd) { s with schedule := rest } := by
        simp [engineTurn, hp]
      rw [hx] at h
      obtain ⟨r, hr⟩ := exec_command (decodeCmd_port s.latch.cmd) { s with schedule := rest }
      refine .inl ⟨he, hp, rest, r, ?_, h⟩
      rw [hr] at h
      injection h with h
      exact h.symm
    · replace hp : s.phase = .idle := by
        rcases hs : s.phase with _ | _
        · rfl
        · exact absurd hs hp
      have hx : engineTurn { s with schedule := rest } = .next { s with schedule := rest } := by simp [engineTurn, hp]
      rw [hx] at h
      injection h with h
      exact .inr (.inl ⟨he, hp, rest, h.symm⟩)
  · exact .inr (.inr ⟨a, u, hs, hostAccess_effect h⟩)

/-- A host access as the next event is not the engine's turn. -/
theorem not_engineNext_withAccess (u : State) (a : HostAccess) : ¬(u.withAccess a).engineNext := by
  rintro (h | ⟨_, h⟩) <;> simp [State.withAccess] at h

end Sys2Proof.Machine
end

