-- ==== Sys2Proof/Tests/Slice0.lean ====
section
/-! SUPPORT. The model's own tests: ill-formed terms, decoding of words written out from 30_encoding.md R300 and R308, the
vectors of 95_test_vectors.md run as single steps, and for each statement with hypotheses a witness that meets them. -/

namespace Sys2Proof.Tests

open Sys2Proof Sys2Proof.Machine

set_option Elab.async false

/-! ## WellFormed -/

/-- The fields of a legal word are refused in an `illegal` term: BWT's, NOP's, HUFF.BIT's, PUFF.FSM's. -/
theorem test_wf_refuses_legal_words :
    (Instr.illegal 1 0 0).wf = false ∧ (Instr.illegal 0 0 0).wf = false ∧ (Instr.illegal 3 1 0).wf = false ∧
    (Instr.illegal 4 2 0).wf = false := by decide

/-- Each of R304's four conditions, broken alone, makes a word illegal: RSV, OP, PATH = 3, PATH on another OP. -/
theorem test_wf_accepts_each_broken_condition :
    (Instr.illegal 1 0 1).wf = true ∧ (Instr.illegal 7 0 0).wf = true ∧ (Instr.illegal 3 3 0).wf = true ∧
    (Instr.illegal 1 1 0).wf = true := by decide

/-! ## Decoding of written-out words -/

theorem test_decode_nop : decodeCmd 0b00000000000000000000000000000000#32 = .nop := by decide
theorem test_decode_bwt : decodeCmd 0b00000000000000000000000000000001#32 = .bwt := by decide
theorem test_decode_unbwt : decodeCmd 0b00000000000000000000000000000010#32 = .unbwt := by decide
theorem test_decode_huff : decodeCmd 0b00000000000000000000000000000011#32 = .huff := by decide
theorem test_decode_huffBit : decodeCmd 0b00000000000000000000000000010011#32 = .huffBit := by decide
theorem test_decode_huffFsm : decodeCmd 0b00000000000000000000000000100011#32 = .huffFsm := by decide
theorem test_decode_puff : decodeCmd 0b00000000000000000000000000000100#32 = .puff := by decide
theorem test_decode_puffBit : decodeCmd 0b00000000000000000000000000010100#32 = .puffBit := by decide
theorem test_decode_puffFsm : decodeCmd 0b00000000000000000000000000100100#32 = .puffFsm := by decide
theorem test_decode_arith : decodeCmd 0b00000000000000000000000000000101#32 = .arith := by decide
theorem test_decode_unarith : decodeCmd 0b00000000000000000000000000000110#32 = .unarith := by decide

/-- OP 0b0011 with PATH 0b11, and OP 0b0101 with PATH 0b01 and the top RSV bit: two ILLEGAL words. -/
theorem test_decode_illegal :
    decodeCmd 0b00000000000000000000000000110011#32 = .illegal 0b0011 0b11 0 ∧
    decodeCmd 0b10000000000000000000000000010101#32 =
      .illegal 0b0101 0b01 0b10000000000000000000000000 := by decide

/-- Bit 0 is IE, bit 1 is SRST. -/
theorem test_decode_ctrl :
    decodeCtrl 0b00000000000000000000000000000001#32 = .ctrlWrite true false 0 ∧
    decodeCtrl 0b10000000000000000000000000000010#32 =
      .ctrlWrite false true 0b100000000000000000000000000000 := by decide

/-- Bit 1 is DONE, bit 3 is OVERRUN. -/
theorem test_decode_status :
    decodeStatus 0b00000000000000000000000000000010#32 = .statusW1c true false false false 0 ∧
    decodeStatus 0b10000000000000000000000000001101#32 =
      .statusW1c false true true true 0b1000000000000000000000000000 := by decide

/-- Offsets 0x04, 0x08 and 0x0C are instructions, 0x10 and 0x0A are not. -/
theorem test_decode_at :
    (decodeAt 0x04 1).toOption = some (.ctrlWrite true false 0) ∧ (decodeAt 0x08 1).toOption = some .bwt ∧
    (decodeAt 0x0C 2).toOption = some (.statusW1c true false false false 0) ∧
    (decodeAt 0x10 1).toOption = none ∧ (decodeAt 0x0A 1).toOption = none := by decide

/-! ## Helpers: a small machine, and what the host sees after one step -/

/-- The listing of bytes stored from an address on, those that are 0 left out. -/
def cellsFrom (a : Nat) : List Byte → Memory
  | [] => []
  | b :: bs => if b = 0 then cellsFrom (a + 1) bs else (a, b) :: cellsFrom (a + 1) bs

theorem cellsFrom_addresses {a : Nat} {bs : List Byte} {c : Host.Cell} (h : c ∈ cellsFrom a bs) : a ≤ c.1 := by
  induction bs generalizing a with
  | nil => simp [cellsFrom] at h
  | cons b bs ih =>
    unfold cellsFrom at h
    split at h
    · have := ih h; omega
    · rcases List.mem_cons.1 h with rfl | h
      · simp
      · have := ih h; omega

theorem cellsFrom_wf (a : Nat) (bs : List Byte) : Memory.wf (cellsFrom a bs) := by
  induction bs generalizing a with
  | nil => exact ⟨List.Pairwise.nil, by simp [cellsFrom]⟩
  | cons b bs ih =>
    rw [cellsFrom]
    split
    · exact ih _
    · refine ⟨List.pairwise_cons.2 ⟨fun c hc => ?_, (ih _).1⟩, fun c hc => ?_⟩
      · have := cellsFrom_addresses hc
        simp only; omega
      · rcases List.mem_cons.1 hc with rfl | hc
        · assumption
        · exact (ih _).2 c hc

theorem memRead_cellsFrom (a : Nat) (bs : List Byte) : memRead (cellsFrom a bs) a bs.length = bs := by
  induction bs generalizing a with
  | nil => rfl
  | cons b bs ih =>
    have htail : memRead (cellsFrom a (b :: bs)) (a + 1) bs.length = bs := by
      rw [memRead_congr (m' := cellsFrom (a + 1) bs), ih]
      intro x hx _
      rw [cellsFrom]
      split
      · rfl
      · rw [readByte, if_neg (by omega)]
    have hhead : readByte (cellsFrom a (b :: bs)) a = b := by
      rw [cellsFrom]
      split
      · rw [readByte_of_lt fun c hc => cellsFrom_addresses hc]; exact Eq.symm ‹_›
      · simp [readByte]
    rw [List.length_cons, memRead, htail, hhead]

/-- An idle machine with its source bytes at 0x1000 and its destination at 0x2000. -/
def idle (src : List Byte) (cap : Nat) : State :=
  { State.reset with
    srcAddr := 0x1000
    srcLen := BitVec.ofNat 32 src.length
    dstAddr := 0x2000
    dstCap := BitVec.ofNat 32 cap
    mem := cellsFrom 0x1000 src }

/-- The same machine while it runs the command word w. -/
def running (w : Word) (src : List Byte) (cap : Nat) : State := issue w (idle src cap)

theorem running_wf (w : Word) (src : List Byte) (cap : Nat) : Memory.wf (running w src cap).mem := cellsFrom_wf _ _

theorem sourceBytes_running (w : Word) {src : List Byte} (h : src.length < 2 ^ 32) (cap : Nat) :
    sourceBytes (running w src cap) = src := by
  have hlen : (BitVec.ofNat 32 src.length).toNat = src.length := by
    rw [BitVec.toNat_ofNat, Nat.mod_eq_of_lt h]
  show memRead (cellsFrom 0x1000 src) 0x1000 (BitVec.ofNat 32 src.length).toNat = src
  rw [hlen, memRead_cellsFrom]

/-- The next state, if the step answers one. -/
def after (s : State) : Option State :=
  match step s with
  | .next t => some t
  | _ => none

theorem step_of_after {s t : State} (h : after s = some t) : step s = .next t := by
  unfold after at h
  split at h
  · rw [‹step s = _›, Option.some.inj h]
  · cases h

/-- The next state of a step, or the state itself. -/
def next (s : State) : State := (after s).getD s

theorem step_next_of_isSome {s : State} (h : (after s).isSome = true) : step s = .next (next s) := by
  obtain ⟨t, ht⟩ := Option.isSome_iff_exists.1 h
  rw [step_of_after ht, next, ht, Option.getD_some]

/-- STATUS and the bytes RESULT_LEN counts at the destination, after the step that runs the word. -/
def result (w : Nat) (src : List Byte) (cap : Nat) : Option (Nat × List Nat) :=
  (after ((idle src cap).withFetchWord 32 w)).map fun t =>
    ((statusWord t).toNat, (memRead t.mem 0x2000 t.resultLen.toNat).map BitVec.toNat)

/-- A list of runs as bytes. -/
def bytesOfRuns (runs : List (Nat × Byte)) : List Byte := runs.flatMap fun r => List.replicate r.1 r.2

/-- H(V31): the header of "A". -/
def headerA : List Byte := bytesOfRuns [(65, 9), (1, 1), (189, 9), (1, 8)]

/-- V33's output. -/
def recordAB : List Byte := bytesOfRuns [(65, 10), (1, 2), (1, 1), (187, 10), (2, 9)] ++ [0x60]

/-- "MISSISSIPPI" -/
def mississippi : List Byte := [77, 73, 83, 83, 73, 83, 83, 73, 80, 80, 73]

/-! ## One step each, against 95_test_vectors.md -/

/-- V70. -/
theorem test_nop : result 0x00 [] 0 = some (0x2, []) := by decide +kernel

/-- V2. -/
theorem test_bwt_mississippi :
    result 0x01 mississippi 64 =
      some (0x2, [0, 0, 0, 2, 0, 0, 0, 4, 83, 83, 77, 80, 0, 80, 73, 83, 83, 73, 73, 73]) := by decide +kernel

/-- V13. -/
theorem test_bwt_empty : result 0x01 [] 64 = some (0x1006, []) := by decide +kernel

/-- V20. -/
theorem test_unbwt_mississippi :
    result 0x02 [0, 0, 0, 2, 0, 0, 0, 4, 83, 83, 77, 80, 0, 80, 73, 83, 83, 73, 73, 73] 11 =
      some (0x2, [77, 73, 83, 83, 73, 83, 83, 73, 80, 80, 73]) := by decide +kernel

/-- V26. -/
theorem test_unbwt_inconsistent : result 0x02 [0, 0, 0, 0, 0, 0, 0, 0, 0, 0x58] 16 = some (0x2306, []) := by
  decide +kernel

/-- V33: header and payload of "AB". -/
theorem test_huff_ab :
    huffF refTie [65, 66] 257 = .ok recordAB := by decide +kernel

/-- V38. -/
theorem test_huffBit_overflow : result 0x13 [] 255 = some (0x406, []) := by decide +kernel

/-- V48c and V48a, read as encodings: the automaton's run and the bit packer give the payload of eight and of two 'A'. -/
theorem test_huff_payload_of_a :
    encRun (canonical (headerA.map BitVec.toNat)) ⟨0, 0⟩ (List.replicate 8 65) = [0xFF] ∧
    packBits ⟨0, 0⟩ ([65, 65].flatMap (codeBitsOf (canonical (headerA.map BitVec.toNat)))) = [0xC0] := by
  decide +kernel

/-- V45. -/
theorem test_puff_uniform : result 0x04 (List.replicate 256 8 ++ [0x41, 0x42]) 16 = some (0x2, [0x41, 0x42]) := by
  decide +kernel

/-- V47. -/
theorem test_puffBit_bad_payload : result 0x14 (headerA ++ [0x00]) 16 = some (0x3206, []) := by decide +kernel

/-- V48b. -/
theorem test_puffFsm_padding : result 0x24 (headerA ++ [0x80, 0x00]) 16 = some (0x2, [0x41, 0x00]) := by
  decide +kernel

/-- V50. -/
theorem test_arith_a : result 0x05 [65] 3 = some (0x2, [0x41, 0xBD, 0x40]) := by decide +kernel

/-- P4's first command. -/
theorem test_arith_overflow : result 0x05 [65] 2 = some (0x406, []) := by decide +kernel

/-- V63. -/
theorem test_unarith_a : result 0x06 [0x41, 0xBD, 0x40] 1 = some (0x2, [65]) := by decide +kernel

/-- V64. -/
theorem test_unarith_empty : result 0x06 [] 4 = some (0x406, []) := by decide +kernel

/-- V73. -/
theorem test_illegal_path : result 0x11 [] 4 = some (0x106, []) := by decide +kernel

/-- V79: the DST window is checked, and ERR_INFO is its address. -/
theorem test_window_fault :
    (after { running 1 [88] 10 with latch := ⟨1, 0x1000, 1, 0x7FFFFFFC, 10⟩ }).map
      (fun t => ((statusWord t).toNat, t.errInfo.toNat)) = some (0x206, 0x7FFFFFFC) := by decide +kernel

/-- V85: the acknowledge clears DONE and leaves ERR and ERRCODE. -/
theorem test_status_acknowledge :
    (after (State.withWrite { State.reset with done := true, err := true, errCode := 0x10 } 3 2)).map
      (fun t => (statusWord t).toNat) = some 0x1004 := by decide +kernel

/-- V87: a CTRL write of 3 resets, IE too. -/
theorem test_ctrl_soft_reset :
    after (State.withWrite { State.reset with done := true, srcLen := 7 } 1 3) = some State.reset := by decide +kernel

/-- V88: IE set while DONE asserts the interrupt line. -/
theorem test_ctrl_enable :
    (after (State.withWrite { State.reset with done := true } 1 1)).map State.irq = some true := by decide +kernel

/-- V2 and V1 by the suffix tree (41_bwt.md R540). -/
theorem test_suffix_tree :
    treeRecord mississippi =
      some [0, 0, 0, 2, 0, 0, 0, 4, 83, 83, 77, 80, 0, 80, 73, 83, 83, 73, 73, 73] ∧
    treeRecord [88] = some [0, 0, 0, 1, 0, 0, 0, 0, 0, 88] := by decide +kernel

/-! ## Witnesses: for each statement with hypotheses, states and operands that meet them, one for each clause -/

theorem reset_inv : State.reset.Inv where
  memCanonical := by decide
  memInside := by simp [State.reset, State.resetWith]
  status := by constructor <;> simp [State.reset, State.resetWith]
  operands := by constructor <;> simp [State.reset, State.resetWith]

/-- BWT running on one byte. -/
def bwtRunning : State := running 1 [88] 10

theorem bwtRunning_inv : bwtRunning.Inv where
  memCanonical := by decide +kernel
  memInside := by decide +kernel
  status := by constructor <;> simp [bwtRunning, running, idle, State.reset, State.resetWith]
  operands := by constructor <;> simp [bwtRunning, running, idle, State.reset, State.resetWith, issue]

/-- A configuration too narrow for the coder. -/
def narrowConfig : Config := { Config.reference with arithW := 10 }

theorem witness_DecodeOfEncodeIsTheInstruction :
    (Instr.illegal 7 0 0).wf = true ∧ (Instr.illegal 1 1 0).wf = true ∧ Instr.huffFsm.wf = true := by decide

theorem witness_LegalWordsAreTheElevenTableRows :
    legal 0 = true ∧ legal 6 = true ∧ legal 0x24 = true ∧ legal 7 = false ∧ legal 0x11 = false ∧ legal 0x33 = false ∧
    legal 0x40 = false := by decide

theorem witness_StepRunsTheDecodedInstruction :
    bwtRunning.cfg.legal = true ∧ bwtRunning.phase = .busy ∧ bwtRunning.schedule = [] ∧
    State.schedule { bwtRunning with schedule := [.engine] } = [.engine] := by decide +kernel

theorem witness_EveryStepKeepsTheInvariant :
    (∃ t, State.reset.Inv ∧ step State.reset = .next t) ∧ ∃ t, bwtRunning.Inv ∧ step bwtRunning = .next t :=
  ⟨⟨_, reset_inv, step_next_of_isSome (by decide +kernel)⟩,
    ⟨_, bwtRunning_inv, step_next_of_isSome (by decide +kernel)⟩⟩

theorem witness_RunningCommandCompletesWhenTheEngineMoves :
    bwtRunning.cfg.legal = true ∧ bwtRunning.phase = .busy ∧ bwtRunning.engineNext :=
  ⟨by decide +kernel, by decide +kernel, .inl (by decide +kernel)⟩

/-- An issue; a completion; a hardware reset; a soft reset. -/
theorem witness_PhaseChangesOnlyByIssueCompletionAndReset :
    (∃ t, step (State.reset.withWrite 2 1) = .next t ∧ State.reset.phase = .idle ∧ t.phase = .busy) ∧
    (∃ t, step bwtRunning = .next t ∧ bwtRunning.phase = .busy ∧ t.phase = .idle) ∧
    (∃ t, step (bwtRunning.withAccess .reset) = .next t ∧ t.phase = .idle) ∧
    ∃ t, step (bwtRunning.withWrite 1 2) = .next t ∧ t.phase = .idle :=
  ⟨⟨_, step_next_of_isSome (by decide +kernel), by decide +kernel⟩,
    ⟨_, step_next_of_isSome (by decide +kernel), by decide +kernel⟩,
    ⟨_, step_next_of_isSome (by decide +kernel), by decide +kernel⟩,
    ⟨_, step_next_of_isSome (by decide +kernel), by decide +kernel⟩⟩

theorem witness_RunningCommandCannotBeChanged :
    ∃ t, step (bwtRunning.withWrite 2 7) = .next t ∧ bwtRunning.phase = .busy ∧ t.phase = .busy :=
  ⟨_, step_next_of_isSome (by decide +kernel), by decide +kernel⟩

/-- The line rises at a completion and when IE is set, and falls at the acknowledge, an issue, IE = 0, SRST and a reset. -/
theorem witness_InterruptLineChangesOnlyAsListed :
    let pending : State := { State.reset with done := true, ie := true }
    (∃ t, step { bwtRunning with ie := true } = .next t ∧ State.irq { bwtRunning with ie := true } = false ∧
      t.irq = true) ∧
    (∃ t, step (State.withWrite { State.reset with done := true } 1 1) = .next t ∧
      State.irq { State.reset with done := true } = false ∧ t.irq = true) ∧
    pending.irq = true ∧
    (∃ t, step (pending.withWrite 3 2) = .next t ∧ t.irq = false) ∧
    (∃ t, step (pending.withWrite 2 0) = .next t ∧ t.irq = false) ∧
    (∃ t, step (pending.withWrite 1 0) = .next t ∧ t.irq = false) ∧
    (∃ t, step (pending.withWrite 1 3) = .next t ∧ t.irq = false) ∧
    ∃ t, step (pending.withAccess .reset) = .next t ∧ t.irq = false :=
  ⟨⟨_, step_next_of_isSome (by decide +kernel), by decide +kernel⟩,
    ⟨_, step_next_of_isSome (by decide +kernel), by decide +kernel⟩, rfl,
    ⟨_, step_next_of_isSome (by decide +kernel), by decide +kernel⟩,
    ⟨_, step_next_of_isSome (by decide +kernel), by decide +kernel⟩,
    ⟨_, step_next_of_isSome (by decide +kernel), by decide +kernel⟩,
    ⟨_, step_next_of_isSome (by decide +kernel), by decide +kernel⟩,
    ⟨_, step_next_of_isSome (by decide +kernel), by decide +kernel⟩⟩

theorem witness_IllegalConfigurationIsRefused :
    ¬(11 ≤ narrowConfig.arithW ∧ narrowConfig.arithW ≤ 32) ∧ Config.reference.legal = true := by decide

theorem witness_ResetRegistersReadTheirResetValues :
    Config.reference.legal = true ∧ (16 : Nat) ∉ [0, 10, 11, 12, 13, 14, 15] ∧
    (1 : Nat) ∉ [0, 10, 11, 12, 13, 14, 15] := by decide

/-- The first and the last byte of the window, and the byte after it. -/
theorem witness_SoftResetDiscardsTheRunningCommand :
    Memory.wf bwtRunning.mem ∧ (idle [88] 10).phase = .idle ∧ Memory.wf (idle [88] 10).mem ∧
    bwtRunning.phase = .busy ∧ inDstWindow bwtRunning 0x2000 = true ∧ inDstWindow bwtRunning 0x2009 = true ∧
    0x2009 < bwtRunning.cfg.memSize ∧ inDstWindow bwtRunning 0x200A = false := by decide +kernel

theorem witness_SoftResetEqualsHardwareReset :
    bwtRunning.cfg.legal = true ∧ (2 : Word).getLsbD 1 = true ∧ inDstWindow bwtRunning 0x1FFF = false := by
  decide +kernel

theorem witness_CmdWriteWhileIdleIssues : State.reset.cfg.legal = true ∧ State.reset.phase = .idle := by decide

theorem witness_CmdWriteWhileBusyOnlySetsOverrun :
    bwtRunning.cfg.legal = true ∧ bwtRunning.phase = .busy := by decide +kernel

theorem witness_BufferWritesAreStoredOnlyWhileIdle :
    (bwtRunning.cfg.legal = true ∧ bwtRunning.phase = .busy ∧ 4 ∈ [4, 5, 6, 7] ∧ 7 ∈ [4, 5, 6, 7]) ∧
    State.reset.cfg.legal = true ∧ State.reset.phase = .idle := by decide +kernel

theorem witness_ReadOnlyAndReservedWritesAreIgnored :
    State.reset.cfg.legal = true ∧ (∃ k, k = 0 ∨ (8 ≤ k ∧ k < 64)) ∧ (8 ≤ 8 ∧ 8 < 64) ∧ 8 ≤ 63 ∧ 63 < 64 :=
  ⟨by decide, ⟨0, by decide⟩, by decide⟩

theorem witness_RegisterReadsReturnValuesAndChangeNothing :
    bwtRunning.cfg.legal = true ∧ 0 < 64 ∧ 63 < 64 ∧ 16 ≤ 16 ∧ bwtRunning.Inv ∧ bwtRunning.phase = .busy :=
  ⟨by decide +kernel, by decide, by decide, by decide, bwtRunning_inv, by decide +kernel⟩

theorem witness_CtrlWriteSetsInterruptEnable :
    State.reset.cfg.legal = true ∧ (1 : Word).getLsbD 1 = false ∧ (3 : Word).getLsbD 1 = true := by decide

theorem witness_StatusWriteClearsDoneAndOverrun : State.reset.cfg.legal = true := by decide

/-- Too narrow, misaligned, one past the block, one before it. -/
theorem witness_BadRegisterAccessIsRefused :
    let s := State.reset
    s.cfg.legal = true ∧
    (¬∃ k, k < 64 ∧ s.cfg.engineBase = s.cfg.engineBase + 4 * k ∧ 8 = 32) ∧
    (¬∃ k, k < 64 ∧ s.cfg.engineBase + 2 = s.cfg.engineBase + 4 * k ∧ 32 = 32) ∧
    (¬∃ k, k < 64 ∧ s.cfg.engineBase + 256 = s.cfg.engineBase + 4 * k ∧ 32 = 32) ∧
    ¬∃ k, k < 64 ∧ 0x7FFFFFFC = s.cfg.engineBase + 4 * k ∧ 32 = 32 := by
  refine ⟨by decide, ?_, ?_, ?_, ?_⟩
  · rintro ⟨k, _, _, h⟩; cases h
  · rintro ⟨k, _, h, _⟩; omega
  · rintro ⟨k, _, h, _⟩; omega
  · rintro ⟨k, _, h, _⟩
    have : State.reset.cfg.engineBase = 0x80000000 := by decide
    omega

/-- A DST byte and an SRC byte while BUSY; the last byte of memory while IDLE. -/
theorem witness_HostMemoryAccessesFollowTheRaceRules :
    (bwtRunning.cfg.legal = true ∧ 0x2009 < bwtRunning.cfg.memSize ∧ Memory.wf bwtRunning.mem ∧
      bwtRunning.phase = .busy ∧ inDstWindow bwtRunning 0x2009 = true) ∧
    inSrcWindow bwtRunning 0x1000 = true ∧ ¬(bwtRunning.phase = .busy ∧ inDstWindow bwtRunning 0x1000 = true) ∧
    (State.reset.cfg.legal = true ∧ 0x7FFFFFFF < State.reset.cfg.memSize ∧ Memory.wf State.reset.mem) := by
  decide +kernel

theorem witness_CanonicalMemoriesThatReadAlikeAreEqual :
    let m : Memory := writeByte (writeByte [] 4 7) 2 9
    let m' : Memory := [(2, 9), (4, 7)]
    Memory.wf m ∧ Memory.wf m' ∧ ∀ a, readByte m a = readByte m' a :=
  ⟨by decide, by decide, fun _ => rfl⟩

theorem witness_NopCompletes : (running 0 [] 0).raceFree := by decide +kernel

theorem witness_IllegalWordCompletesWithIllegalCmd : (running 7 [] 0).raceFree := by decide +kernel

/-- A window-checked command, NOP and an illegal word; and one that answers an output. -/
theorem witness_EveryCommandCompletesWithItsFunction :
    (bwtRunning.raceFree ∧ Memory.wf bwtRunning.mem ∧
      commandResult bwtRunning .bwt = some (.ok [0, 0, 0, 1, 0, 0, 0, 0, 0, 88])) ∧
    commandResult bwtRunning .nop = some (.ok []) ∧
    commandResult bwtRunning (.illegal 7 0 0) = some (.err .illegalCmd 0) := by decide +kernel

/-- A running command with other latched windows. -/
def windows (srcAddr srcLen dstAddr dstCap : Word) : State :=
  { bwtRunning with latch := ⟨1, srcAddr, srcLen, dstAddr, dstCap⟩ }

/-- V77 and V79 at the first failing byte, V80 and V81 at the byte where windows meet. -/
theorem witness_WindowChecksComeFirst :
    (bwtRunning.raceFree ∧ Memory.wf bwtRunning.mem ∧ (commandFunction bwtRunning.cfg .bwt).isSome = true) ∧
    (let s := windows 0x7FFFFFFF 2 0x2000 10
     s.cfg.memSize < s.latch.srcAddr.toNat + s.latch.srcLen.toNat) ∧
    (let s := windows 0x1000 1 0x7FFFFFF7 10
     s.latch.srcAddr.toNat + s.latch.srcLen.toNat ≤ s.cfg.memSize ∧
       s.cfg.memSize < s.latch.dstAddr.toNat + s.latch.dstCap.toNat) ∧
    (let s := windows 0x7FFFFFFF 1 0x7FFFFFF5 10
     s.latch.srcAddr.toNat + s.latch.srcLen.toNat ≤ s.cfg.memSize ∧
       s.latch.dstAddr.toNat + s.latch.dstCap.toNat ≤ s.cfg.memSize ∧ windowsOverlap s = false) ∧
    (let s := windows 0x1000 11 0x100A 0x40
     s.latch.srcAddr.toNat + s.latch.srcLen.toNat ≤ s.cfg.memSize ∧
       s.latch.dstAddr.toNat + s.latch.dstCap.toNat ≤ s.cfg.memSize ∧ windowsOverlap s = true) ∧
    windowsOverlap (windows 0x1000 11 0x100B 0x40) = false := by decide +kernel

theorem witness_RacedCommandCompletesWithAnyValues :
    let s : State := { bwtRunning with touched := true }
    s.touched = true ∧ Memory.wf s.mem ∧ inDstWindow s 0x2000 = true ∧ inDstWindow s 0x2009 = true ∧
    0x2009 < s.cfg.memSize ∧ inDstWindow s 0x1FFF = false ∧ inDstWindow s 0x200A = false := by decide +kernel

theorem witness_CommandsChangeOnlyResultRegistersAndDst :
    ∃ t, Instr.bwt.port = .cmd ∧ exec .bwt bwtRunning = .next t ∧ inDstWindow bwtRunning 0x1FFF = false :=
  ⟨_, rfl, rfl, by decide +kernel⟩

/-- Two memories that differ outside the SRC window. -/
theorem witness_CommandsReadOnlyTheSrcWindow :
    let m : Memory := [(0x1000, 88), (0x3000, 5)]
    Instr.bwt.port = .cmd ∧ Memory.wf bwtRunning.mem ∧ Memory.wf m ∧
    ∀ a, inSrcWindow bwtRunning a = true → readByte bwtRunning.mem a = readByte m a := by
  refine ⟨rfl, by decide +kernel, by decide, fun a ha => ?_⟩
  have : a = 0x1000 := by
    simp [inSrcWindow, inWindow, bwtRunning, running, idle, issue] at ha
    omega
  subst this
  decide +kernel

/-- The empty block, one byte over, too small a capacity, the exact capacity; and the order of "X". -/
theorem witness_BwtIsTheSortedSuffixPermutation :
    ([] : List Byte).length < 1 ∧ Config.bwtMaxN < (List.replicate (Config.bwtMaxN + 1) (0 : Byte)).length ∧
    (let T : List Byte := [88]
     1 ≤ T.length ∧ T.length ≤ Config.bwtMaxN ∧ 9 < T.length + 9 ∧ T.length + 9 ≤ 10 ∧ SortsSuffixes T [0, 1]) :=
  ⟨by decide, by simp, by decide, by decide, by decide, by decide, by decide, by decide⟩

theorem witness_BwtCompletesWithItsRecord :
    (bwtRunning.raceFree ∧ Memory.wf bwtRunning.mem ∧ windowError bwtRunning = none ∧
      1 ≤ bwtRunning.latch.srcLen.toNat ∧ bwtRunning.latch.srcLen.toNat ≤ Config.bwtMaxN ∧
      bwtRunning.latch.srcLen.toNat + 9 ≤ bwtRunning.latch.dstCap.toNat) ∧
    (let s := windows 0x1000 0 0x2000 10
     windowError s = none ∧ s.latch.srcLen.toNat < 1) ∧
    (let s := windows 0x1000 0x20000001 0x30000000 10
     windowError s = none ∧ Config.bwtMaxN < s.latch.srcLen.toNat) ∧
    (let s := windows 0x1000 1 0x2000 9
     windowError s = none ∧ 1 ≤ s.latch.srcLen.toNat ∧ s.latch.srcLen.toNat ≤ Config.bwtMaxN ∧
       s.latch.dstCap.toNat < s.latch.srcLen.toNat + 9) := by decide +kernel

theorem witness_BwtOfEqualBytes : 1 ≤ 1 := by decide

theorem witness_SuccessorsAreAStableSortOfTheRows : ∀ x ∈ [256, 0, 255, 0], x ≤ 256 := by decide

/-- One record for each check that fails; V27, which passes them all with the exact capacity and whose walk ends on the
filler; and V26, whose walk does not. -/
theorem witness_UnbwtErrorsComeInOrder :
    ([0, 0, 0, 0, 0, 0, 0, 0, 0] : List Byte).length < 10 ∧
    (let R : List Byte := [0, 0, 0, 2, 0, 0, 0, 0, 0, 88]
     10 ≤ R.length ∧ R.length - 9 ≤ Config.bwtMaxN ∧ R.length - 9 < be32At R 0) ∧
    (let R : List Byte := [0, 0, 0, 1, 0, 0, 0, 1, 0, 88]
     be32At R 0 ≤ R.length - 9 ∧ be32At R 4 ≤ R.length - 9 ∧ R.getD (8 + be32At R 4) 0 ≠ 0x00) ∧
    (let R : List Byte := [0, 0, 0, 1, 0, 0, 0, 0, 0, 88]
     10 ≤ R.length ∧ R.length - 9 ≤ Config.bwtMaxN ∧ be32At R 0 ≤ R.length - 9 ∧ be32At R 4 ≤ R.length - 9 ∧
       R.getD (8 + be32At R 4) 0 = 0x00 ∧ 0 < R.length - 9 ∧ R.length - 9 ≤ 1 ∧
       StableRowOrder (R.drop 8) (be32At R 4) [1, 0] ∧
       R.getD (8 + (fun r => [1, 0].getD r 0)^[R.length - 9] (be32At R 0)) 0 = 0x00) ∧
    (let R : List Byte := [0, 0, 0, 0, 0, 0, 0, 0, 0, 88]
     10 ≤ R.length ∧ R.length - 9 ≤ Config.bwtMaxN ∧ be32At R 0 ≤ R.length - 9 ∧ be32At R 4 ≤ R.length - 9 ∧
       R.getD (8 + be32At R 4) 0 = 0x00 ∧ R.length - 9 ≤ 1 ∧ StableRowOrder (R.drop 8) (be32At R 4) [1, 0] ∧
       R.getD (8 + (fun r => [1, 0].getD r 0)^[R.length - 9] (be32At R 0)) 0 ≠ 0x00) := by
  unfold StableRowOrder
  decide +kernel

theorem witness_UnbwtInvertsBwt :
    let T : List Byte := [88]
    1 ≤ T.length ∧ T.length ≤ Config.bwtMaxN ∧ T.length ≤ 1 := by decide

theorem witness_UnbwtCompletesWithTheBlock :
    let s := running 2 [0, 0, 0, 1, 0, 0, 0, 0, 0, 88] 1
    let T : List Byte := [88]
    s.raceFree ∧ Memory.wf s.mem ∧ windowError s = none ∧ 1 ≤ T.length ∧ T.length ≤ Config.bwtMaxN ∧
    sourceBytes s = permutationRecord T ∧ T.length ≤ s.latch.dstCap.toNat := by decide +kernel

/-- The exact capacity for the empty input is 256 bytes under every policy, so 255 is too small and 256 is enough. -/
theorem witness_HuffCompletesWithHeaderAndPayload :
    (∀ cap, cap = 255 ∨ cap = 256 →
      let s := running 3 [] cap
      Instr.huff ∈ [Instr.huff, .huffBit, .huffFsm] ∧ s.raceFree ∧ Memory.wf s.mem ∧ windowError s = none) ∧
    (∀ lens : List Nat,
      256 + (((List.range 256).map fun b => byteCount (sourceBytes (running 3 [] 256)) b * lens.getD b 0).sum + 7) / 8
        = (running 3 [] 256).latch.dstCap.toNat) := by
  refine ⟨?_, fun lens => ?_⟩
  · rintro cap (rfl | rfl) <;> decide +kernel
  · have hsum : ((List.range 256).map fun b => byteCount [] b * lens.getD b 0).sum = 0 := by
      refine List.sum_eq_zero fun x hx => ?_
      obtain ⟨b, -, rfl⟩ := List.mem_map.1 hx
      exact Nat.zero_mul _
    rw [sourceBytes_running 3 (by decide), hsum]
    decide +kernel

/-- PUFF running on the uniform header and two payload bytes, with room for n bytes. -/
def uniformRunning (n : Nat) : State := running 4 (List.replicate 256 8 ++ [0x41, 0x42]) n

theorem witness_PuffOfTheUniformHeaderCopiesThePayload :
    (∀ n, n = 1 ∨ n = 2 →
      Instr.puff ∈ [Instr.puff, .puffBit, .puffFsm] ∧ (uniformRunning n).raceFree ∧
      Memory.wf (uniformRunning n).mem ∧ windowError (uniformRunning n) = none ∧
      sourceBytes (uniformRunning n) = List.replicate 256 8 ++ [0x41, 0x42]) ∧
    ([0x41, 0x42] : List Byte).length ≤ (uniformRunning 2).latch.dstCap.toNat ∧
    (uniformRunning 1).latch.dstCap.toNat < ([0x41, 0x42] : List Byte).length := by
  refine ⟨?_, by decide +kernel, by decide +kernel⟩
  rintro n (rfl | rfl) <;>
    exact ⟨by decide, by decide +kernel, running_wf _ _ _, by decide +kernel,
      sourceBytes_running _ (by decide +kernel) _⟩

/-- V40, V42, V43 and V41. -/
theorem witness_PuffChecksItsHeader :
    (List.replicate 255 (8 : Byte)).length < 256 ∧
    (let S : List Byte := 0 :: List.replicate 255 8
     256 ≤ S.length ∧ 0 ∈ (S.take 256).map BitVec.toNat) ∧
    (let S : List Byte := List.replicate 256 9
     256 ≤ S.length ∧ kraftSum ((S.take 256).map BitVec.toNat) ≠ 2 ^ 255) ∧
    (let S : List Byte := List.replicate 256 8
     0 ∉ (S.take 256).map BitVec.toNat ∧ kraftSum ((S.take 256).map BitVec.toNat) = 2 ^ 255 ∧ S.length = 256) := by
  decide +kernel

/-- Under V31's header: 0xC0 is two 'A' and six zeros (V48c's neighbours V48a, V48d and V48e), 0xA0 is one 'A' and seven bits
that are not all zero, 0x00 is eight bits with no code (V47). -/
theorem witness_PuffDecodesCodesAndChecksTheRest :
    (∀ payload : Byte, 256 ≤ (headerA ++ [payload]).length ∧
      (headerA ++ [payload]).take 256 = headerA ∧ (headerA ++ [payload]).drop 256 = [payload]) ∧
    (0 ∉ headerA.map BitVec.toNat ∧ kraftSum (headerA.map BitVec.toNat) = 2 ^ 255) ∧
    (let table := canonical (headerA.map BitVec.toNat)
     ReadsAs table (payloadBits [0xC0]) [65, 65] (List.replicate 6 false) ∧
     ReadsAs table (payloadBits [0xA0]) [65] [false, true, false, false, false, false, false] ∧
     ReadsAs table (payloadBits [0x00]) [] (List.replicate 8 false)) ∧
    (1 < ([65, 65] : List Byte).length ∧ ([65, 65] : List Byte).length ≤ 2) ∧
    ((List.replicate 6 false).length ≤ 7 ∧ true ∉ List.replicate 6 false) ∧
    (([65] : List Byte).length ≤ 1 ∧ true ∈ [false, true, false, false, false, false, false]) ∧
    7 < (List.replicate 8 false).length := by
  have hlen : headerA.length = 256 := by decide +kernel
  refine ⟨fun payload => ⟨by simp [hlen], by simp [← hlen], by simp [← hlen]⟩, by decide +kernel, ?_, by decide,
    by decide, by decide, by decide⟩
  unfold ReadsAs
  decide +kernel

theorem witness_ReferenceTieTakesTheTwoLeast :
    let forest := [HuffTree.leaf 0 3, .leaf 1 2, .leaf 2 2]
    2 ≤ forest.length ∧ (forest.map treeSeq).Nodup ∧ HuffTree.leaf 0 3 ∈ forest ∧
    HuffTree.leaf 0 3 ≠ (refTie forest).1 ∧ HuffTree.leaf 0 3 ≠ (refTie forest).2 := by decide +kernel

theorem witness_HuffmanLengthsFormACompleteCode : LegalTie refTie := legalTie_refTie

theorem witness_CanonicalCodeIsPrefixFree :
    let lens := List.replicate 256 8
    lens.length = 256 ∧ (∀ l ∈ lens, 1 ≤ l ∧ l ≤ 255) ∧ kraftSum lens = 2 ^ 255 := by decide +kernel

theorem witness_PuffInvertsHuff :
    LegalTie refTie ∧ huffF refTie [65, 66] 257 = .ok recordAB ∧ ([65, 66] : List Byte).length ≤ 2 :=
  ⟨legalTie_refTie, test_huff_ab, by decide⟩

theorem witness_PuffCompletesWithTheBytes :
    LegalTie refTie ∧
    (∀ n, n = 1 ∨ n = 2 →
      let s := running 0x14 recordAB n
      Instr.puffBit ∈ [Instr.puff, .puffBit, .puffFsm] ∧ s.raceFree ∧ Memory.wf s.mem ∧ windowError s = none ∧
      huffF refTie [65, 66] 257 = .ok (sourceBytes s)) ∧
    ([65, 66] : List Byte).length ≤ (running 0x14 recordAB 2).latch.dstCap.toNat ∧
    (running 0x14 recordAB 1).latch.dstCap.toNat < ([65, 66] : List Byte).length := by
  refine ⟨legalTie_refTie, ?_, by decide +kernel, by decide +kernel⟩
  rw [test_huff_ab]
  rintro n (rfl | rfl) <;>
    exact ⟨by decide, by decide +kernel, running_wf _ _ _, by decide +kernel,
      congrArg Result.ok (sourceBytes_running _ (by decide +kernel) _).symm⟩

theorem witness_ModelUpdateKeepsTheModelLegal :
    Config.reference.legal = true ∧ LegalModel Config.reference initFreq ∧ 0 ≤ 256 ∧ 256 ≤ 256 :=
  ⟨by decide, ⟨by decide +kernel, by decide +kernel, by decide +kernel⟩, by decide, by decide⟩

theorem witness_CoderIntervalStaysWide :
    let e := initEncoder Config.reference
    Config.reference.legal = true ∧ LegalModel Config.reference initFreq ∧ 256 ≤ 256 ∧
    WideInterval Config.reference e.interval :=
  ⟨by decide, ⟨by decide +kernel, by decide +kernel, by decide +kernel⟩, by decide,
    ⟨by decide +kernel, by decide +kernel, by decide +kernel⟩⟩

theorem witness_DecoderValueStaysInTheInterval :
    let d := initDecoder Config.reference [0x41, 0xBD, 0x40]
    Config.reference.legal = true ∧ LegalModel Config.reference initFreq ∧
    WideInterval Config.reference d.interval ∧ d.interval.Holds d.value :=
  ⟨by decide, ⟨by decide +kernel, by decide +kernel, by decide +kernel⟩,
    ⟨by decide +kernel, by decide +kernel, by decide +kernel⟩, by decide +kernel, by decide +kernel⟩

/-- V49: the empty input needs two bytes. -/
theorem witness_ArithCompletesWithThePackedBits :
    (∀ n, n = 1 ∨ n = 2 →
      let s := running 5 [] n
      s.raceFree ∧ Memory.wf s.mem ∧ windowError s = none ∧
      ((arithBits s.cfg (sourceBytes s)).length + 7) / 8 = 2) ∧
    (running 5 [] 2).latch.dstCap.toNat = 2 ∧ (running 5 [] 1).latch.dstCap.toNat = 1 := by
  refine ⟨?_, by decide +kernel, by decide +kernel⟩
  rintro n (rfl | rfl) <;> decide +kernel

theorem witness_UnarithInvertsArith :
    Config.reference.legal = true ∧ arithF Config.reference [65] 3 = .ok [0x41, 0xBD, 0x40] ∧
    ([65] : List Byte).length ≤ 1 := by decide +kernel

/-- V62 and V63. -/
theorem witness_UnarithCompletesWithTheBytes :
    (∀ n, n = 0 ∨ n = 1 →
      let s := running 6 [0x41, 0xBD, 0x40] n
      s.cfg.legal = true ∧ s.raceFree ∧ Memory.wf s.mem ∧ windowError s = none ∧
      sourceBytes s = packMsb (arithBits s.cfg [65])) ∧
    ([65] : List Byte).length ≤ (running 6 [0x41, 0xBD, 0x40] 1).latch.dstCap.toNat ∧
    (running 6 [0x41, 0xBD, 0x40] 0).latch.dstCap.toNat < ([65] : List Byte).length := by
  refine ⟨?_, by decide +kernel, by decide +kernel⟩
  rintro n (rfl | rfl) <;> decide +kernel

end Sys2Proof.Tests
end

/-! ## Register accesses outside the block's registers (20_memory.md R201, R220) -/

namespace Sys2Proof.Machine

/-- The accesses that name no register, as R220 words them. -/
theorem registerIndex_eq_none_iff {c : Config} {addr width : Nat} :
    registerIndex c addr width = none ↔ ¬∃ k, k < 64 ∧ addr = c.engineBase + 4 * k ∧ width = 32 := by
  constructor
  · rintro hnone ⟨k, hk, rfl, rfl⟩
    rw [registerIndex_register c hk] at hnone
    cases hnone
  · intro hbad
    cases hidx : registerIndex c addr width with
    | none => rfl
    | some k =>
      obtain ⟨hwidth, haddr, hk⟩ := registerIndex_eq_some hidx
      exact absurd ⟨k, hk, haddr, hwidth⟩ hbad

theorem hostAccess_regRead_of_registerIndex_eq_none {s : State} {addr width : Nat}
    (h : registerIndex s.cfg addr width = none) :
    hostAccess (.regRead addr width) s = .refused (.badRegisterAccess addr width) := by
  simp only [hostAccess, h]

theorem hostAccess_regWrite_of_registerIndex_eq_none {s : State} {addr width : Nat}
    (h : registerIndex s.cfg addr width = none) (v : Word) :
    hostAccess (.regWrite addr width v) s = .refused (.badRegisterAccess addr width) := by
  simp only [hostAccess, h]

/-- Settles O25: the step is the host's access, and an access that R220 does not allow names no register. -/
theorem badRegisterAccessIsRefused : Obligations.BadRegisterAccessIsRefused := by
  unfold Obligations.BadRegisterAccessIsRefused
  intro s addr width v hlegal hbad
  have hnone : registerIndex s.cfg addr width = none := registerIndex_eq_none_iff.mpr hbad
  constructor
  · rw [step_withAccess hlegal, hostAccess_regRead_of_registerIndex_eq_none hnone]
  · rw [step_withAccess hlegal, hostAccess_regWrite_of_registerIndex_eq_none hnone]

end Sys2Proof.Machine

/-! ## The legal command words are the words of the opcode table (30_encoding.md R300, R301, R304, R307) -/

namespace Sys2Proof

/-- A command word is its three fields, the most significant first (R300). -/
theorem rsv_append_path_append_op (w : Word) :
    w.extractLsb' 6 26 ++ w.extractLsb' 4 2 ++ w.extractLsb' 0 4 = w := by
  rw [BitVec.extractLsb'_append_extractLsb'_eq_extractLsb' (by rfl),
    BitVec.extractLsb'_append_extractLsb'_eq_extractLsb' (by rfl), BitVec.extractLsb'_eq_self]

theorem legal_eq_legalFields (w : Word) :
    legal w = legalFields (w.extractLsb' 0 4) (w.extractLsb' 4 2) (w.extractLsb' 6 26) := rfl

theorem legalFields_iff {op : BitVec 4} {path : BitVec 2} {rsv : BitVec 26} :
    legalFields op path rsv = true ↔ rsv = 0 ∧ op.toNat ≤ 6 ∧ path ≠ 3 ∧ (path = 0 ∨ op = 3 ∨ op = 4) := by
  simp [legalFields, and_assoc, or_assoc]

/-- Of the 64 words with RSV = 0, the legal ones stand in the table. -/
theorem append_mem_opcodeRows_of_legalFields :
    ∀ (op : BitVec 4) (path : BitVec 2), legalFields op path 0 = true →
      (0 : BitVec 26) ++ path ++ op ∈ opcodeRows.map Prod.fst := by
  decide

theorem legal_of_mem_opcodeRows : ∀ row ∈ opcodeRows, legal row.1 = true := by decide

theorem legal_iff_mem_opcodeRows {w : Word} : legal w = true ↔ w ∈ opcodeRows.map Prod.fst := by
  constructor
  · intro hlegal
    rw [legal_eq_legalFields] at hlegal
    obtain ⟨hrsv, -⟩ := legalFields_iff.mp hlegal
    rw [hrsv] at hlegal
    rw [← rsv_append_path_append_op w, hrsv]
    exact append_mem_opcodeRows_of_legalFields _ _ hlegal
  · intro hmem
    obtain ⟨row, hrow, rfl⟩ := List.mem_map.mp hmem
    exact legal_of_mem_opcodeRows row hrow

/-- The table's words are the eleven of R304, which lists them by value and the table by operation. -/
theorem opcodeRows_toNat_perm :
    ((opcodeRows.map Prod.fst).map BitVec.toNat).Perm
      [0x00, 0x01, 0x02, 0x03, 0x04, 0x05, 0x06, 0x13, 0x14, 0x23, 0x24] := by
  decide

/-- No other row of the table has a row's word. -/
theorem filter_opcodeRows_of_mem :
    ∀ row ∈ opcodeRows, opcodeRows.filter (fun r => r.1 == row.1) = [row] := by
  decide

theorem decodeCmd_of_mem_opcodeRows {w : Word} {i : Instr} (h : (w, i) ∈ opcodeRows) : decodeCmd w = i := by
  have hfind : opcodeRows.find? (fun row => row.1 == w) = some (w, i) := by
    rw [← List.head?_filter, filter_opcodeRows_of_mem _ h, List.head?_cons]
  simp only [decodeCmd, hfind]

theorem decodeCmd_of_legal_eq_false {w : Word} (h : legal w = false) :
    decodeCmd w = .illegal (w.extractLsb' 0 4) (w.extractLsb' 4 2) (w.extractLsb' 6 26) := by
  have hfind : opcodeRows.find? (fun row => row.1 == w) = none := by
    rw [List.find?_eq_none]
    rintro row hrow heq
    have hlegal := legal_of_mem_opcodeRows row hrow
    rw [beq_iff_eq.mp heq, h] at hlegal
    cases hlegal
  simp only [decodeCmd, hfind]

/-- Settles O3: R304's four conditions pick out the words of the table's rows, and no two rows have one word. -/
theorem legalWordsAreTheElevenTableRows : Obligations.LegalWordsAreTheElevenTableRows := by
  unfold Obligations.LegalWordsAreTheElevenTableRows
  intro w
  refine ⟨?fourConditions, ?elevenWords, ?oneRow, decodeCmd_of_legal_eq_false⟩
  case fourConditions => rw [legal_eq_legalFields, legalFields_iff]
  case elevenWords =>
    rw [legal_iff_mem_opcodeRows, ← opcodeRows_toNat_perm.mem_iff,
      List.mem_map_of_injective fun _ _ => BitVec.eq_of_toNat_eq]
  case oneRow =>
    intro hlegal
    obtain ⟨⟨_, i⟩, hrow, rfl⟩ := List.mem_map.mp (legal_iff_mem_opcodeRows.mp hlegal)
    exact ⟨i, filter_opcodeRows_of_mem _ hrow, decodeCmd_of_mem_opcodeRows hrow⟩

end Sys2Proof

/-! ## Register writes and reads of the host (40_sequencer.md sections 1 and 4) -/

namespace Sys2Proof.Machine

theorem busy_of_phase_busy {s : State} (h : s.phase = .busy) : s.busy = true := by simp [State.busy, h]

theorem busy_of_phase_idle {s : State} (h : s.phase = .idle) : s.busy = false := by simp [State.busy, h]

/-- A write to CMD while IDLE issues (R400). -/
theorem writeCmd_of_idle {s : State} (h : s.phase = .idle) (w : Word) : writeCmd w s = issue w s := by
  simp [writeCmd, busy_of_phase_idle h]

/-- A write to CMD while BUSY is dropped with OVERRUN (R402). -/
theorem writeCmd_of_busy {s : State} (h : s.phase = .busy) (w : Word) : writeCmd w s = { s with overrun := true } := by
  simp [writeCmd, busy_of_phase_busy h]

theorem step_withWrite_cmd {s : State} (h : s.cfg.legal = true) (w : Word) :
    step (s.withWrite 2 w) = .next (writeCmd w s) :=
  step_withWrite h (by decide) w

/-- Settles O16: the write is an issue, and an issue clears DONE. -/
theorem cmdWriteWhileIdleIssues : Obligations.CmdWriteWhileIdleIssues := by
  unfold Obligations.CmdWriteWhileIdleIssues
  intro s w hlegal hidle
  refine ⟨issue w s, ?_, rfl, ?_⟩
  · rw [step_withWrite_cmd hlegal, writeCmd_of_idle hidle]
  · rw [State.irq, issue_done, Bool.false_and]

/-- Settles O17. -/
theorem cmdWriteWhileBusyOnlySetsOverrun : Obligations.CmdWriteWhileBusyOnlySetsOverrun := by
  unfold Obligations.CmdWriteWhileBusyOnlySetsOverrun
  intro s w hlegal hbusy
  rw [step_withWrite_cmd hlegal, writeCmd_of_busy hbusy]

/-! ### Buffer, read-only and reserved registers -/

/-- A write to any register but CTRL, CMD and STATUS is `writeBuffer`. -/
theorem hostRegisterWrite_eq_writeBuffer {k : Nat} (hk : k = 0 ∨ 4 ≤ k) (v : Word) (s : State) :
    hostRegisterWrite k v s = .next (writeBuffer k v s) := by
  unfold hostRegisterWrite
  split
  · omega
  · omega
  · omega
  · rfl

theorem step_withWrite_buffer {s : State} (h : s.cfg.legal = true) {k : Nat} (hk : k = 0 ∨ (4 ≤ k ∧ k < 64))
    (v : Word) : step (s.withWrite k v) = .next (writeBuffer k v s) := by
  rw [step_withWrite h (by omega), hostRegisterWrite_eq_writeBuffer (by omega)]

theorem writeBuffer_of_busy {s : State} (h : s.phase = .busy) (k : Nat) (v : Word) : writeBuffer k v s = s := by
  simp [writeBuffer, busy_of_phase_busy h]

/-- What a write stores in each buffer register while IDLE (R403). -/
theorem writeBuffer_of_idle {s : State} (h : s.phase = .idle) (v : Word) :
    writeBuffer 4 v s = { s with srcAddr := v } ∧ writeBuffer 5 v s = { s with srcLen := v } ∧
    writeBuffer 6 v s = { s with dstAddr := v } ∧ writeBuffer 7 v s = { s with dstCap := v } := by
  simp [writeBuffer, busy_of_phase_idle h]

/-- Only the buffer registers 4 to 7 store a value (R444). -/
theorem writeBuffer_of_not_buffer {k : Nat} (hk : k = 0 ∨ 8 ≤ k) (v : Word) (s : State) : writeBuffer k v s = s := by
  unfold writeBuffer
  split
  · rfl
  · split
    · omega
    · omega
    · omega
    · omega
    · rfl

/-- Settles O18: the step is `writeBuffer`, which the phase decides. -/
theorem bufferWritesAreStoredOnlyWhileIdle : Obligations.BufferWritesAreStoredOnlyWhileIdle := by
  unfold Obligations.BufferWritesAreStoredOnlyWhileIdle
  intro s v hlegal
  constructor
  · intro hbusy k hk
    have hrange : 4 ≤ k ∧ k < 64 := by
      simp only [List.mem_cons, List.not_mem_nil, or_false] at hk
      omega
    rw [step_withWrite_buffer hlegal (.inr hrange), writeBuffer_of_busy hbusy]
  · intro hidle
    obtain ⟨hsrcAddr, hsrcLen, hdstAddr, hdstCap⟩ := writeBuffer_of_idle hidle v
    rw [step_withWrite_buffer hlegal (by decide), step_withWrite_buffer hlegal (by decide),
      step_withWrite_buffer hlegal (by decide), step_withWrite_buffer hlegal (by decide),
      hsrcAddr, hsrcLen, hdstAddr, hdstCap]
    exact ⟨rfl, rfl, rfl, rfl⟩

/-- Settles O19: the step is `writeBuffer` of a register that is no buffer register. -/
theorem readOnlyAndReservedWritesAreIgnored : Obligations.ReadOnlyAndReservedWritesAreIgnored := by
  unfold Obligations.ReadOnlyAndReservedWritesAreIgnored
  intro s k v hlegal hk
  rw [step_withWrite_buffer hlegal (by omega), writeBuffer_of_not_buffer (by omega)]

/-! ### Register reads -/

/-- STATUS is the sum of its fields, whose bits do not overlap (10_state.md R114). -/
theorem toNat_statusWord (s : State) :
    (statusWord s).toNat =
      s.busy.toNat + 2 * s.done.toNat + 4 * s.err.toNat + 8 * s.overrun.toNat + 256 * s.errCode.toNat := by
  have hbusy := s.busy.toNat_le
  have hdone := s.done.toNat_le
  have herr := s.err.toNat_le
  have hoverrun := s.overrun.toNat_le
  have hcode := s.errCode.isLt
  rw [statusWord, BitVec.toNat_ofNat, Nat.mod_eq_of_lt (by omega)]

theorem toNat_ctrlWord (s : State) : (ctrlWord s).toNat = s.ie.toNat := by
  have hie := s.ie.toNat_le
  rw [ctrlWord, BitVec.toNat_ofNat, Nat.mod_eq_of_lt (by omega)]

/-- The parameters that a CFG register shows fit a register (00_scope.md R20). -/
theorem cfgRegisters_fit {c : Config} (h : c.legal = true) :
    c.arithW < 2 ^ 32 ∧ c.arithCeil < 2 ^ 32 ∧ c.arithInc < 2 ^ 32 ∧ c.memSize - 1 < 2 ^ 32 := by
  obtain ⟨⟨-, hwidth⟩, -, hroom, hceiling, -, -⟩ := coderBounds h
  have hquarter : coderQuarter c ≤ 2 ^ 30 := Nat.pow_le_pow_right (by decide) (by omega)
  have hmem : c.memSize ≤ 2 ^ 32 := by
    simp only [Config.legal, Bool.and_eq_true, decide_eq_true_eq] at h
    obtain ⟨⟨⟨-, hmem⟩, -⟩, -⟩ := h
    exact hmem
  omega

/-- The CFG registers of a legal configuration read their parameters (10_state.md R130 to R135). -/
theorem toNat_readRegister_cfg {s : State} (h : s.cfg.legal = true) :
    (readRegister s 11).toNat = s.cfg.arithW ∧ (readRegister s 12).toNat = s.cfg.arithCeil ∧
    (readRegister s 13).toNat = s.cfg.arithInc ∧ (readRegister s 15).toNat = s.cfg.memSize - 1 := by
  obtain ⟨hw, hceil, hinc, hmem⟩ := cfgRegisters_fit h
  exact ⟨Nat.mod_eq_of_lt hw, Nat.mod_eq_of_lt hceil, Nat.mod_eq_of_lt hinc, Nat.mod_eq_of_lt hmem⟩

theorem readRegister_reserved (s : State) {k : Nat} (hk : 16 ≤ k) : readRegister s k = 0 := by
  obtain ⟨j, rfl⟩ := Nat.exists_eq_add_of_le' hk
  rfl

/-- While BUSY, STATUS shows no flag but BUSY and OVERRUN (R443). -/
theorem statusWord_of_busy {s : State} (hstatus : s.LegalStatus) (hbusy : s.phase = .busy) :
    statusWord s = if s.overrun then 9 else 1 := by
  obtain ⟨hdone, herr, hcode⟩ := hstatus.busyClears hbusy
  rw [statusWord, busy_of_phase_busy hbusy, hdone, herr, hcode]
  cases s.overrun <;> rfl

/-- Settles O20: the hardwired registers by the bounds of a legal configuration, the reading while BUSY by the
invariant. -/
theorem registerReadsReturnValuesAndChangeNothing : Obligations.RegisterReadsReturnValuesAndChangeNothing := by
  unfold Obligations.RegisterReadsReturnValuesAndChangeNothing
  intro s k hlegal hk
  obtain ⟨harithW, harithCeil, harithInc, hmemSize⟩ := toNat_readRegister_cfg hlegal
  refine ⟨step_withRead hlegal hk, rfl, toNat_ctrlWord s, rfl, toNat_statusWord s, rfl, rfl, rfl, rfl, rfl, rfl, rfl,
    harithW, harithCeil, harithInc, rfl, hmemSize, readRegister_reserved s, ?whileBusy⟩
  case whileBusy =>
    intro hinv hbusy
    obtain ⟨hlen, hinfo⟩ := hinv.operands.noResultYet hbusy
    exact ⟨hlen, hinfo, statusWord_of_busy hinv.status hbusy⟩

/-! ### CTRL and STATUS -/

theorem step_withWrite_ctrl {s : State} (h : s.cfg.legal = true) (v : Word) :
    step (s.withWrite 1 v) = exec (decodeCtrl v) s :=
  step_withWrite h (by decide) v

theorem step_withWrite_status {s : State} (h : s.cfg.legal = true) (v : Word) :
    step (s.withWrite 3 v) = exec (decodeStatus v) s :=
  step_withWrite h (by decide) v

theorem exec_decodeCtrl_of_srst_eq_false {v : Word} (h : v.getLsbD 1 = false) (s : State) :
    exec (decodeCtrl v) s = .next { s with ie := v.getLsbD 0 } := by
  simp only [decodeCtrl, exec, execCtrlWrite, h, Bool.false_eq_true, if_false]

/-- With SRST the value written to IE is lost in the reset (R441). -/
theorem exec_decodeCtrl_of_srst {v : Word} (h : v.getLsbD 1 = true) (s : State) :
    exec (decodeCtrl v) s = .next (softReset s) := by
  simp only [decodeCtrl, exec, execCtrlWrite, h, if_true, softReset_ie]

/-- Settles O22: bit 1 decides between the two forms of the instruction. -/
theorem ctrlWriteSetsInterruptEnable : Obligations.CtrlWriteSetsInterruptEnable := by
  unfold Obligations.CtrlWriteSetsInterruptEnable
  intro s v hlegal
  constructor
  · intro hsrst
    rw [step_withWrite_ctrl hlegal, exec_decodeCtrl_of_srst_eq_false hsrst]
  · intro hsrst
    refine ⟨softReset s, ?_, rfl, resetRegisters_ie _⟩
    rw [step_withWrite_ctrl hlegal, exec_decodeCtrl_of_srst hsrst]

/-- Write one to clear, by cases on the bits written (R442). -/
theorem clearFlags_eq (doneClr overrunClr : Bool) (s : State) :
    clearFlags doneClr overrunClr s =
      { s with
        done := if doneClr then false else s.done,
        overrun := if overrunClr then false else s.overrun } := by
  cases doneClr <;> cases overrunClr <;> simp [clearFlags]

theorem exec_statusW1c (doneClr overrunClr ignored0 ignored2 : Bool) (ignored : BitVec 28) (s : State) :
    exec (.statusW1c doneClr overrunClr ignored0 ignored2 ignored) s = .next (clearFlags doneClr overrunClr s) := rfl

/-- Settles O24: the write runs the instruction its word decodes to. -/
theorem statusWriteClearsDoneAndOverrun : Obligations.StatusWriteClearsDoneAndOverrun := by
  unfold Obligations.StatusWriteClearsDoneAndOverrun
  constructor
  · intro s v hlegal
    rw [step_withWrite_status hlegal, decodeStatus, exec_statusW1c, clearFlags_eq]
  · intro s doneClr overrunClr ignored0 ignored2 ignored
    rw [exec_statusW1c, clearFlags_eq]

/-! ## NOP and the illegal words (40_sequencer.md section 3) -/

theorem exec_nop (s : State) : exec .nop s = .next (complete (.ok []) s) := rfl

theorem exec_illegal (op : BitVec 4) (path : BitVec 2) (rsv : BitVec 26) (s : State) :
    exec (.illegal op path rsv) s = .next (complete (.err .illegalCmd 0) s) := rfl

/-- Settles O28: an empty output is stored nowhere. -/
theorem nopCompletes : Obligations.NopCompletes := by
  unfold Obligations.NopCompletes
  refine ⟨decodeCmd_of_mem_opcodeRows (by decide), fun s hfree => ?_⟩
  rw [exec_nop, complete_ok hfree]
  rfl

theorem opcodeRows_ne_illegal :
    ∀ row ∈ opcodeRows, ∀ op path rsv, row.2 ≠ Instr.illegal op path rsv := by
  simp [opcodeRows]

/-- A word decodes to ILLEGAL exactly when it is not legal (30_encoding.md R304, R307). -/
theorem legal_eq_false_iff (w : Word) :
    legal w = false ↔ ∃ op path rsv, decodeCmd w = .illegal op path rsv := by
  constructor
  · intro hillegal
    exact ⟨_, _, _, decodeCmd_of_legal_eq_false hillegal⟩
  · rintro ⟨op, path, rsv, hdecode⟩
    rw [← Bool.not_eq_true]
    intro hlegal
    obtain ⟨row, hrow, rfl⟩ := List.mem_map.mp (legal_iff_mem_opcodeRows.mp hlegal)
    rw [decodeCmd_of_mem_opcodeRows hrow] at hdecode
    exact opcodeRows_ne_illegal row hrow op path rsv hdecode

/-- Settles O29: ILLEGAL_CMD comes before every memory access, so its record is all that the completion leaves. -/
theorem illegalWordCompletesWithIllegalCmd : Obligations.IllegalWordCompletesWithIllegalCmd := by
  unfold Obligations.IllegalWordCompletesWithIllegalCmd
  refine ⟨legal_eq_false_iff, fun s op path rsv hfree => ?_⟩
  rw [exec_illegal, complete_err hfree]
  rfl

end Sys2Proof.Machine

/-! ## The paths of HUFF are one function (43_huffman.md R730, R751, R754) -/

namespace Sys2Proof.Machine

/-! ### Packing in pieces -/

theorem bitsValue_replicate_false (n : Nat) : bitsValue (List.replicate n false) = 0 := by
  induction n with
  | zero => rfl
  | succ n ih => rw [List.replicate_succ, bitsValue_cons, ih, Bool.toNat_false, Nat.zero_mul]

theorem bitsValue_concat (u : List Bool) (bit : Bool) : bitsValue (u ++ [bit]) = 2 * bitsValue u + bit.toNat := by
  rw [bitsValue_append, bitsValue_cons]
  simp [bitsValue, bitsValueFrom, Nat.mul_comm]

/-- A byte of the packing is decided by its eight bits. -/
theorem packedByte_congr {x y : List Bool} {k j : Nat}
    (h : ∀ i, i < 8 → x.getD (8 * k + i) false = y.getD (8 * j + i) false) : packedByte x k = packedByte y j := by
  refine congrArg (fun bits => BitVec.ofNat 8 (bitsValue bits)) (List.map_congr_left fun i hi => ?_)
  exact h i (List.mem_range.mp hi)

/-- Whole bytes in front of a bit string are packed on their own. -/
theorem packMsb_append_of_dvd {x : List Bool} (h : 8 ∣ x.length) (y : List Bool) :
    packMsb (x ++ y) = packMsb x ++ packMsb y := by
  obtain ⟨q, hq⟩ := h
  have hx : (x.length + 7) / 8 = q := by omega
  have hxy : ((x ++ y).length + 7) / 8 = q + (y.length + 7) / 8 := by rw [List.length_append]; omega
  have hfirst : ∀ k ∈ List.range q, packedByte (x ++ y) k = packedByte x k := fun k hk => by
    have hk := List.mem_range.mp hk
    exact packedByte_congr fun i hi => List.getD_append _ _ _ _ (by omega)
  have hrest : ∀ k, packedByte (x ++ y) (q + k) = packedByte y k := fun k =>
    packedByte_congr fun i _ => by
      rw [List.getD_append_right _ _ _ _ (by omega), show 8 * (q + k) + i - x.length = 8 * k + i by omega]
  rw [packMsb, packMsb, packMsb, hx, hxy, List.range_add, List.map_append, List.map_map, List.map_congr_left hfirst]
  exact congrArg _ (List.map_congr_left fun k _ => hrest k)

/-- A bit string of one to eight bits is packed into one byte, padded with zeros. -/
theorem packMsb_of_length_le {u : List Bool} (hpos : 0 < u.length) (hle : u.length ≤ 8) :
    packMsb u = [BitVec.ofNat 8 (bitsValue u * 2 ^ (8 - u.length))] := by
  have hone : (u.length + 7) / 8 = 1 := by omega
  have hbits : ((List.range 8).map fun i => u.getD (8 * 0 + i) false) = u ++ List.replicate (8 - u.length) false := by
    refine List.ext_getElem (by simp; omega) fun i _ _ => ?_
    rcases Nat.lt_or_ge i u.length with hi | hi
    · simp [List.getElem_append_left hi, hi]
    · simp [List.getElem_append_right hi, List.getElem?_eq_none hi]
  rw [packMsb, hone, List.range_one, List.map_singleton, packedByte, hbits, bitsValue_append, List.length_replicate,
    bitsValue_replicate_false, Nat.add_zero]

/-! ### The packer holds the bits that fill no byte yet -/

/-- The packer that holds the pending bits u. -/
def packerOf (u : List Bool) : Packer := ⟨bitsValue u, u.length⟩

theorem flushPacker_packerOf {u : List Bool} (h : u.length < 8) : flushPacker (packerOf u) = packMsb u := by
  cases u with
  | nil => rfl
  | cons bit u =>
    rw [packMsb_of_length_le (by simp) (by omega)]
    simp [flushPacker, packerOf]

theorem pushBit_packerOf {u : List Bool} (h : u.length < 7) (bit : Bool) :
    pushBit (packerOf u) bit = ([], packerOf (u ++ [bit])) := by
  simp [pushBit, packerOf, bitsValue_concat, h.ne]

/-- The eighth bit fills a byte. -/
theorem pushBit_packerOf_full {u : List Bool} (h : u.length = 7) (bit : Bool) :
    pushBit (packerOf u) bit = (packMsb (u ++ [bit]), packerOf []) := by
  have hlen : (u ++ [bit]).length = 8 := by simp [h]
  rw [packMsb_of_length_le (by omega) (by omega), hlen, bitsValue_concat]
  simp [pushBit, packerOf, h, bitsValue, bitsValueFrom]

/-- The bit-level packer packs. -/
theorem packBits_packerOf {u : List Bool} (h : u.length < 8) (bits : List Bool) :
    packBits (packerOf u) bits = packMsb (u ++ bits) := by
  induction bits generalizing u with
  | nil => rw [packBits, flushPacker_packerOf h, List.append_nil]
  | cons bit bits ih =>
    rw [packBits, List.append_cons]
    rcases Nat.lt_or_eq_of_le (Nat.le_of_lt_succ h) with hlt | hfull
    · rw [pushBit_packerOf hlt, ih (by simp; omega), List.nil_append]
    · rw [pushBit_packerOf_full hfull, ih (by simp), packMsb_append_of_dvd (x := u ++ [bit]) (by simp [hfull]),
        List.nil_append]

/-- An entry of the encode automaton: the whole bytes of the pending bits and the code leave, the others stay. -/
theorem encEntry_packerOf (table : List CodeRow) (u : List Bool) (b : Byte) :
    encEntry table (packerOf u) b =
      (packMsb ((u ++ codeBitsOf table b).take (8 * ((u ++ codeBitsOf table b).length / 8))),
        packerOf ((u ++ codeBitsOf table b).drop (8 * ((u ++ codeBitsOf table b).length / 8)))) := by
  simp only [encEntry, packerOf, codeBits_bitsValue, List.length_drop]

/-- The encode automaton packs the codes of the bytes it reads. -/
theorem encRun_packerOf (table : List CodeRow) {u : List Bool} (h : u.length < 8) (S : List Byte) :
    encRun table (packerOf u) S = packMsb (u ++ S.flatMap (codeBitsOf table)) := by
  induction S generalizing u with
  | nil => rw [encRun, flushPacker_packerOf h, List.flatMap_nil, List.append_nil]
  | cons b S ih =>
    rw [encRun, encEntry_packerOf, List.flatMap_cons, ← List.append_assoc]
    generalize u ++ codeBitsOf table b = w
    have hdvd : 8 ∣ (w.take (8 * (w.length / 8))).length := ⟨w.length / 8, by rw [List.length_take]; omega⟩
    rw [ih (by rw [List.length_drop]; omega), ← packMsb_append_of_dvd hdvd, ← List.append_assoc,
      List.take_append_drop]

/-- The bit-level path of HUFF is its pure function (R754). -/
theorem huffBitLevel_eq_huffF (tie : List HuffTree → HuffTree × HuffTree) (S : List Byte) (cap : Nat) :
    huffBitLevel tie S cap = huffF tie S cap := by
  have hpack := packBits_packerOf (u := []) (by decide)
    (S.flatMap (codeBitsOf (canonical (huffLengths tie S))))
  exact congrArg (fun payload => okWithin cap (headerBytes (huffLengths tie S) ++ payload)) hpack

/-- The automaton path of HUFF is its pure function (R754). -/
theorem huffAutomaton_eq_huffF (tie : List HuffTree → HuffTree × HuffTree) (S : List Byte) (cap : Nat) :
    huffAutomaton tie S cap = huffF tie S cap := by
  have hpack := encRun_packerOf (canonical (huffLengths tie S)) (u := []) (by decide) S
  exact congrArg (fun payload => okWithin cap (headerBytes (huffLengths tie S) ++ payload)) hpack

end Sys2Proof.Machine

/-! ## The paths of PUFF are one function (43_huffman.md R752, R753, R754) -/

namespace Sys2Proof.Machine

/-! ### The codes of a length table within the Kraft bound fit their lengths (R715) -/

/-- A length table lists each byte's length. -/
theorem map_getD_range {lens : List Nat} (h : lens.length = 256) :
    (List.range 256).map (fun b => lens.getD b 0) = lens := by
  refine List.ext_getElem (by simp [h]) fun i hi hi' => ?_
  simp [hi']

theorem length_bytesOfLength {lens : List Nat} (h : lens.length = 256) (l : Nat) :
    (bytesOfLength lens l).length = lens.count l := by
  rw [bytesOfLength, ← List.countP_eq_length_filter]
  conv_rhs => rw [← map_getD_range h, List.count, List.countP_map]
  rfl

/-- The codes longer than l are those of length l + 1 and the longer ones. -/
theorem kraftSum_filter_lt (lens : List Nat) (l : Nat) :
    kraftSum (lens.filter (l < ·)) =
      lens.count (l + 1) * 2 ^ (255 - (l + 1)) + kraftSum (lens.filter (l + 1 < ·)) := by
  induction lens with
  | nil => simp [kraftSum]
  | cons x lens ih =>
    have hcons : ∀ y ys, kraftSum (y :: ys) = 2 ^ (255 - y) + kraftSum ys := fun y ys => by simp [kraftSum]
    rcases Nat.lt_trichotomy x (l + 1) with hlt | rfl | hgt
    · rw [List.filter_cons_of_neg (by simp; omega), List.filter_cons_of_neg (by simp; omega),
        List.count_cons_of_ne (by omega), ih]
    · rw [List.filter_cons_of_pos (by simp), List.filter_cons_of_neg (by simp), List.count_cons_self, hcons, ih]
      ring
    · rw [List.filter_cons_of_pos (by simp; omega), List.filter_cons_of_pos (by simp; omega),
        List.count_cons_of_ne (by omega), hcons, hcons, ih]
      ring

theorem kraftSum_filter_le (lens : List Nat) (p : Nat → Bool) : kraftSum (lens.filter p) ≤ kraftSum lens :=
  (List.filter_sublist.map _).sum_le_sum fun _ _ => Nat.zero_le _

theorem mem_assignCodes {l c : Nat} {bs : List Nat} {row : CodeRow} (h : row ∈ assignCodes l c bs) :
    row.len = l ∧ row.code < c + bs.length := by
  induction bs generalizing c with
  | nil => cases h
  | cons b bs ih =>
    rw [List.length_cons]
    rcases List.mem_cons.mp h with rfl | h
    · simp
    · obtain ⟨hlen, hcode⟩ := ih h
      omega

/-- The counter stays within the Kraft weight of the codes assigned so far, so every code fits its length. -/
theorem canonicalFrom_code_lt {lens : List Nat} (hlen : lens.length = 256) (hkraft : kraftSum lens ≤ 2 ^ 255)
    {l c : Nat} (hl : l ≤ 255) (hc : c * 2 ^ (255 - l) ≤ kraftSum (lens.filter (l < ·)))
    {row : CodeRow} (hrow : row ∈ canonicalFrom lens l c) : row.code < 2 ^ row.len := by
  induction l generalizing c with
  | zero => cases hrow
  | succ l ih =>
    have hweight : (c + lens.count (l + 1)) * 2 ^ (255 - (l + 1)) ≤ kraftSum (lens.filter (l < ·)) := by
      rw [kraftSum_filter_lt, Nat.add_mul]
      omega
    rw [canonicalFrom, length_bytesOfLength hlen] at hrow
    rcases List.mem_append.mp hrow with hrow | hrow
    · obtain ⟨hrowLen, hcode⟩ := mem_assignCodes hrow
      rw [length_bytesOfLength hlen] at hcode
      have hroom : (c + lens.count (l + 1)) * 2 ^ (255 - (l + 1)) ≤ 2 ^ (l + 1) * 2 ^ (255 - (l + 1)) := by
        rw [← pow_add, Nat.add_sub_cancel' hl]
        exact hweight.trans ((kraftSum_filter_le _ _).trans hkraft)
      rw [hrowLen]
      exact hcode.trans_le (Nat.le_of_mul_le_mul_right hroom (by positivity))
    · refine ih (by omega) ?_ hrow
      calc (c + lens.count (l + 1)) / 2 * 2 ^ (255 - l)
          = (c + lens.count (l + 1)) / 2 * 2 * 2 ^ (255 - (l + 1)) := by
            rw [show 255 - l = 255 - (l + 1) + 1 by omega, pow_succ]; ring
        _ ≤ (c + lens.count (l + 1)) * 2 ^ (255 - (l + 1)) := Nat.mul_le_mul_right _ (Nat.div_mul_le_self _ _)
        _ ≤ _ := hweight

theorem foldl_max_le {lens : List Nat} {n : Nat} (h : ∀ l ∈ lens, l ≤ n) : lens.foldl max 0 ≤ n := by
  rw [List.foldl_eq_foldr]
  exact List.max_le_of_forall_le lens n h

theorem canonical_code_lt {lens : List Nat} (hlen : lens.length = 256) (hle : ∀ l ∈ lens, l ≤ 255)
    (hkraft : kraftSum lens ≤ 2 ^ 255) : ∀ row ∈ canonical lens, row.code < 2 ^ row.len := fun _ hrow =>
  canonicalFrom_code_lt hlen hkraft (foldl_max_le hle) (by simp) hrow

/-! ### The bit string of a node, and its value and length -/

theorem bitsValue_eq_zero_iff {u : List Bool} : bitsValue u = 0 ↔ u.all (! ·) = true := by
  induction u with
  | nil => simp [bitsValue, bitsValueFrom]
  | cons bit u ih => rw [bitsValue_cons]; cases bit <;> simp [ih]

/-- The end test of R720 and that of R753. -/
theorem isZeroNode_eq_true_iff {u : List Bool} : isZeroNode u = true ↔ ¬(7 < u.length ∨ bitsValue u ≠ 0) := by
  rw [isZeroNode, Bool.and_eq_true, decide_eq_true_eq, ← bitsValue_eq_zero_iff]
  omega

/-- A code that fits its length is u exactly when it has u's length and value. -/
theorem codeBits_eq_iff {row : CodeRow} (h : row.code < 2 ^ row.len) {u : List Bool} :
    codeBits row.code row.len = u ↔ row.len = u.length ∧ row.code = bitsValue u := by
  constructor
  · rintro rfl
    exact ⟨(length_codeBits _ _).symm, by rw [bitsValue_codeBits, Nat.mod_eq_of_lt h]⟩
  · rintro ⟨hlen, hcode⟩
    rw [hlen, hcode, codeBits_bitsValue]

section
variable {table : List CodeRow} (hfit : ∀ row ∈ table, row.code < 2 ^ row.len)
include hfit

/-- The lookup by length and value and the lookup by bit string find one row. -/
theorem matchCode_eq_codeAt (u : List Bool) : matchCode table u.length (bitsValue u) = codeAt table u := by
  rw [matchCode, codeAt, List.find?_congr fun row hrow => ?_]
  rw [Bool.eq_iff_iff]
  simp [codeBits_eq_iff (hfit row hrow)]

/-- The decoding loop over some bits is the walk of the code tree along them, its symbols put out, and the loop over the
rest from the node the walk ends in. -/
theorem puffBits_append (u : List Bool) (room : Nat) (bits rest : List Bool) :
    puffBits table (bitsValue u) u.length room (bits ++ rest) =
      emitSymbols room
        (fun room => puffBits table (bitsValue (decWalk table u bits).2) (decWalk table u bits).2.length room rest)
        (decWalk table u bits).1 := by
  induction bits generalizing u room with
  | nil => rw [decWalk, emitSymbols, List.nil_append]
  | cons bit bits ih =>
    have hmatch := matchCode_eq_codeAt hfit (u ++ [bit])
    rw [bitsValue_concat, List.length_append, List.length_singleton] at hmatch
    rw [List.cons_append, puffBits, hmatch, decWalk]
    cases codeAt table (u ++ [bit]) with
    | none =>
      have hstep := ih (u ++ [bit]) room
      rwa [bitsValue_concat, List.length_append, List.length_singleton] at hstep
    | some b =>
      cases room with
      | zero => rfl
      | succ room => exact congrArg (consResult b) (ih [] room)

/-- The decode automaton computes the decoding loop (R753). -/
theorem decRun_eq_puffBits (u : List Bool) (room : Nat) (payload : List Byte) :
    decRun table u room payload = puffBits table (bitsValue u) u.length room (payloadBits payload) := by
  induction payload generalizing u room with
  | nil =>
    rw [decRun, payloadBits, List.flatMap_nil, puffBits]
    by_cases hzero : isZeroNode u = true
    · rw [if_pos hzero, if_neg (isZeroNode_eq_true_iff.mp hzero)]
    · rw [if_neg hzero, if_pos (not_not.mp (mt isZeroNode_eq_true_iff.mpr hzero))]
  | cons y payload ih =>
    rw [decRun, payloadBits, List.flatMap_cons, puffBits_append hfit]
    exact congrArg (fun rest => emitSymbols room rest _) (funext fun room => ih _ room)

end

/-- The automaton path of PUFF is its pure function (R754). -/
theorem puffAutomaton_eq_puffF (S : List Byte) (cap : Nat) : puffAutomaton S cap = puffF S cap := by
  unfold puffAutomaton puffF puffWith
  split
  · rfl
  · next hlen =>
    dsimp only
    split
    · next hheader =>
      have hkraft : kraftSum ((S.take 256).map BitVec.toNat) = 2 ^ 255 :=
        beq_iff_eq.mp (Bool.and_eq_true_iff.mp hheader).2
      have hbytes : ∀ l ∈ (S.take 256).map BitVec.toNat, l ≤ 255 := by
        rintro _ hl
        obtain ⟨y, -, rfl⟩ := List.mem_map.mp hl
        exact Nat.le_of_lt_succ y.isLt
      exact decRun_eq_puffBits (canonical_code_lt (by simp; omega) hbytes hkraft.le) [] cap _
    · rfl

/-- PUFF with PATH auto is its pure function on either side of the threshold (R754, R760). -/
theorem puffAuto_eq_puffF (S : List Byte) (cap : Nat) : puffAuto S cap = puffF S cap := by
  unfold puffAuto
  split
  · rfl
  · exact puffAutomaton_eq_puffF S cap

end Sys2Proof.Machine

/-! ## Every command completes with its result (40_sequencer.md R411) -/

namespace Sys2Proof.Machine

/-- A data command's meaning is the completion with its function's result, whatever PATH says. -/
theorem exec_of_commandFunction {s : State} {i : Instr} {f : List Byte → Nat → Result}
    (h : commandFunction s.cfg i = some f) : exec i s = .next (complete (dataResult s f) s) := by
  have hpath : ∀ {g g' : List Byte → Nat → Result}, (∀ S cap, g S cap = g' S cap) →
      (.next (complete (dataResult s g) s) : Host.Outcome State Fault Refusal) =
        .next (complete (dataResult s g') s) := fun hg => by rw [funext₂ hg]
  cases i with
  | nop => cases h
  | illegal _ _ _ => cases h
  | ctrlWrite _ _ _ => cases h
  | statusW1c _ _ _ _ _ => cases h
  | huff => cases h; exact hpath (huffAutomaton_eq_huffF _)
  | huffBit => cases h; exact hpath (huffBitLevel_eq_huffF _)
  | huffFsm => cases h; exact hpath (huffAutomaton_eq_huffF _)
  | puff => cases h; exact hpath puffAuto_eq_puffF
  | puffFsm => cases h; exact hpath puffAutomaton_eq_puffF
  | bwt | unbwt | puffBit | arith | unarith => cases h; rfl

theorem dataResult_eq_ok {s : State} {f : List Byte → Nat → Result} {out : List Byte}
    (h : dataResult s f = .ok out) : f (sourceBytes s) (dstCapacity s) = .ok out := by
  cases hw : windowError s with
  | none => rwa [dataResult_of_none hw] at h
  | some e => rw [dataResult_of_some hw] at h; cases h

/-- Which results `Exec` has: NOP's, ILLEGAL's and those of the data commands. -/
theorem commandResult_cases {s : State} {i : Instr} {r : Result} (h : commandResult s i = some r) :
    (i = .nop ∧ r = .ok []) ∨ ((∃ op path rsv, i = .illegal op path rsv) ∧ r = .err .illegalCmd 0) ∨
      ∃ f, commandFunction s.cfg i = some f ∧ r = dataResult s f := by
  cases i with
  | nop => cases h; exact .inl ⟨rfl, rfl⟩
  | illegal _ _ _ => cases h; exact .inr (.inl ⟨⟨_, _, _, rfl⟩, rfl⟩)
  | ctrlWrite _ _ _ => cases h
  | statusW1c _ _ _ _ _ => cases h
  | _ => cases h; exact .inr (.inr ⟨_, rfl, rfl⟩)

/-- The meaning of a command instruction is the completion with its `Exec` result. -/
theorem exec_of_commandResult {s : State} {i : Instr} {r : Result} (h : commandResult s i = some r) :
    exec i s = .next (complete r s) := by
  rcases commandResult_cases h with ⟨rfl, rfl⟩ | ⟨⟨_, _, _, rfl⟩, rfl⟩ | ⟨f, hf, rfl⟩
  · exact exec_nop s
  · exact exec_illegal _ _ _ s
  · exact exec_of_commandFunction hf

/-- No output is longer than dst_cap. -/
theorem commandResult_le {s : State} {i : Instr} {out : List Byte} (h : commandResult s i = some (.ok out)) :
    out.length ≤ dstCapacity s := by
  rcases commandResult_cases h with ⟨-, hr⟩ | ⟨-, hr⟩ | ⟨f, hf, hr⟩
  · cases hr; exact Nat.zero_le _
  · cases hr
  · exact commandFunction_le hf (dataResult_eq_ok hr.symm)

/-- Settles O30: the meaning is the completion with the result, the paths of HUFF and PUFF being one function, and a
race-free completion does what its result says. -/
theorem everyCommandCompletesWithItsFunction : Obligations.EveryCommandCompletesWithItsFunction := by
  unfold Obligations.EveryCommandCompletesWithItsFunction
  intro s i r hfree hwf hresult
  refine ⟨⟨complete r s, exec_of_commandResult hresult, complete_completesWith hfree hwf r⟩, ?outputFits⟩
  case outputFits =>
    rintro out rfl
    exact commandResult_le hresult

end Sys2Proof.Machine

/-! ## BWT reads its record off the sorted suffixes (41_bwt.md R500) -/

namespace Sys2Proof.Machine

/-! ### The order of the suffixes is the lexicographic order of lists -/

theorem suffixLt_iff_lt {x y : List Nat} : suffixLt x y = true ↔ x < y := by
  induction x generalizing y with
  | nil => cases y <;> simp [suffixLt]
  | cons a x ih =>
    cases y with
    | nil => simp [suffixLt]
    | cons b y =>
      rw [suffixLt, List.cons_lt_cons_iff]
      split
      case isTrue hab => simp [hab]
      case isFalse hab =>
        split
        case isTrue hba => simp [hab, hba.ne']
        case isFalse hba => simp [ih, show a = b by omega]

/-! ### The sort gives a permutation in increasing order -/

theorem insertSuffix_perm (s : Nat × List Nat) (l : List (Nat × List Nat)) : (insertSuffix s l).Perm (s :: l) := by
  induction l with
  | nil => exact .refl _
  | cons t ts ih =>
    rw [insertSuffix]
    split
    · exact .refl _
    · exact (ih.cons t).trans (.swap s t ts)

theorem sortSuffixes_perm (l : List (Nat × List Nat)) : (sortSuffixes l).Perm l := by
  induction l with
  | nil => exact .refl _
  | cons s ss ih => exact (insertSuffix_perm s _).trans (ih.cons s)

theorem pairwise_insertSuffix (s : Nat × List Nat) {l : List (Nat × List Nat)}
    (h : l.Pairwise fun a b => a.2 ≤ b.2) : (insertSuffix s l).Pairwise fun a b => a.2 ≤ b.2 := by
  induction l with
  | nil => exact List.pairwise_singleton _ _
  | cons t ts ih =>
    obtain ⟨hhead, htail⟩ := List.pairwise_cons.mp h
    rw [insertSuffix]
    split
    case isTrue hlt =>
      have hst : s.2 ≤ t.2 := (suffixLt_iff_lt.mp hlt).le
      exact .cons (List.forall_mem_cons.mpr ⟨hst, fun u hu => hst.trans (hhead u hu)⟩) h
    case isFalse hlt =>
      have hts : t.2 ≤ s.2 := not_lt.mp (mt suffixLt_iff_lt.mpr hlt)
      have hall : ∀ u ∈ s :: ts, t.2 ≤ u.2 := List.forall_mem_cons.mpr ⟨hts, hhead⟩
      exact .cons (fun u hu => hall u ((insertSuffix_perm s ts).subset hu)) (ih htail)

/-- The sort is increasing, and strictly so once no two suffixes are equal (`pairwise_lt_sortSuffixes`). -/
theorem pairwise_le_sortSuffixes (l : List (Nat × List Nat)) :
    (sortSuffixes l).Pairwise fun a b => a.2 ≤ b.2 := by
  induction l with
  | nil => exact .nil
  | cons s ss ih => exact pairwise_insertSuffix s ih

theorem pairwise_lt_sortSuffixes {l : List (Nat × List Nat)} (h : (l.map Prod.snd).Nodup) :
    (sortSuffixes l).Pairwise fun a b => a.2 < b.2 := by
  have hne : (sortSuffixes l).Pairwise fun a b => a.2 ≠ b.2 :=
    List.pairwise_map.mp (((sortSuffixes_perm l).map Prod.snd).nodup_iff.mpr h)
  exact ((pairwise_le_sortSuffixes l).and hne).imp fun ⟨hle, hne⟩ => hle.lt_of_ne hne

/-! ### The suffixes of X are its drops, all different -/

theorem suffixesFrom_eq_map (p : Nat) (X : List Nat) :
    suffixesFrom p X = (List.range X.length).map fun i => (p + i, X.drop i) := by
  induction X generalizing p with
  | nil => rfl
  | cons x xs ih =>
    rw [suffixesFrom, ih, List.length_cons, List.range_succ_eq_map, List.map_cons, List.map_map]
    simp [Function.comp_def, Nat.add_assoc, Nat.add_comm 1]

theorem map_fst_suffixesFrom_zero (X : List Nat) : (suffixesFrom 0 X).map Prod.fst = List.range X.length := by
  simp [suffixesFrom_eq_map, Function.comp_def]

theorem snd_eq_drop_of_mem_suffixesFrom_zero {X : List Nat} {s : Nat × List Nat} (h : s ∈ suffixesFrom 0 X) :
    s.2 = X.drop s.1 := by
  rw [suffixesFrom_eq_map] at h
  obtain ⟨i, -, rfl⟩ := List.mem_map.mp h
  rw [Nat.zero_add]

/-- Suffixes at different offsets have different lengths. -/
theorem nodup_map_snd_suffixesFrom (p : Nat) (X : List Nat) : ((suffixesFrom p X).map Prod.snd).Nodup := by
  rw [suffixesFrom_eq_map, List.map_map]
  refine List.Nodup.map_on (fun i hi j hj heq => ?_) List.nodup_range
  have hlen : (X.drop i).length = (X.drop j).length := congrArg List.length heq
  simp only [List.length_drop, List.mem_range] at hlen hi hj
  omega

@[simp] theorem length_textWithSentinel (T : List Byte) : (textWithSentinel T).length = T.length + 1 := by
  simp [textWithSentinel]

/-! ### `order` is the one permutation that sorts the suffixes -/

theorem suffixOrder_perm (T : List Byte) : (suffixOrder T).Perm (List.range (T.length + 1)) := by
  have hperm := (sortSuffixes_perm (suffixesFrom 0 (textWithSentinel T))).map Prod.fst
  rwa [map_fst_suffixesFrom_zero, length_textWithSentinel] at hperm

theorem sortsSuffixes_suffixOrder (T : List Byte) : SortsSuffixes T (suffixOrder T) := by
  refine ⟨suffixOrder_perm T, List.pairwise_map.mpr ?sorted⟩
  case sorted =>
    refine (pairwise_lt_sortSuffixes (nodup_map_snd_suffixesFrom 0 _)).imp_of_mem fun {s t} hs ht hlt => ?_
    have hdrop : ∀ {u}, u ∈ sortSuffixes (suffixesFrom 0 (textWithSentinel T)) →
        u.2 = (textWithSentinel T).drop u.1 :=
      fun hu => snd_eq_drop_of_mem_suffixesFrom_zero ((sortSuffixes_perm _).subset hu)
    rwa [suffixLt_iff_lt, ← hdrop hs, ← hdrop ht]

theorem SortsSuffixes.unique {T : List Byte} {order order' : List Nat} (h : SortsSuffixes T order)
    (h' : SortsSuffixes T order') : order = order' := by
  obtain ⟨hperm, hsorted⟩ := h
  obtain ⟨hperm', hsorted'⟩ := h'
  refine (hperm.trans hperm'.symm).eq_of_pairwise (fun p q _ _ hpq hqp => ?_) hsorted hsorted'
  exact absurd (suffixLt_iff_lt.mp hqp) (suffixLt_iff_lt.mp hpq).asymm

/-! ### The record read off that permutation -/

theorem rowByte_eq_of_le {T : List Byte} {p : Nat} (h : p ≤ T.length) :
    rowByte T p = if p = 0 then 0x00 else T.getD (p - 1) 0 := by
  unfold rowByte
  by_cases hp : p = 0
  · simp [hp]
  · have hL : T.length + 1 - p ≠ T.length + 1 := by omega
    have hindex : T.length - (T.length + 1 - p) = p - 1 := by omega
    simp only [hp, hL, hindex, if_false]

theorem SortsSuffixes.le_of_mem {T : List Byte} {order : List Nat} (h : SortsSuffixes T order) {p : Nat}
    (hp : p ∈ order) : p ≤ T.length := by
  obtain ⟨hperm, -⟩ := h
  exact Nat.lt_succ_iff.mp (List.mem_range.mp (hperm.subset hp))

theorem SortsSuffixes.permutationRecord_eq {T : List Byte} {order : List Nat} (h : SortsSuffixes T order) :
    permutationRecord T = be32 (order.idxOf 1) ++ be32 (order.idxOf 0) ++
      order.map fun p => if p = 0 then 0x00 else T.getD (p - 1) 0 := by
  have horder : suffixOrder T = order := (sortsSuffixes_suffixOrder T).unique h
  have hrows : order.map (rowByte T) = order.map fun p => if p = 0 then 0x00 else T.getD (p - 1) 0 :=
    List.map_congr_left fun p hp => rowByte_eq_of_le (h.le_of_mem hp)
  simp only [permutationRecord, horder, hrows]

/-! ### The size check, the capacity check and the record -/

theorem bwtF_of_badSize {T : List Byte} (h : T.length < 1 ∨ Config.bwtMaxN < T.length) (cap : Nat) :
    bwtF T cap = .err .bwtSize 0 := if_pos h

theorem bwtF_of_size {T : List Byte} (hpos : 1 ≤ T.length) (hmax : T.length ≤ Config.bwtMaxN) (cap : Nat) :
    bwtF T cap = if cap < T.length + 9 then .err .dstOverflow 0 else .ok (permutationRecord T) :=
  if_neg (by omega)

/-- Settles O36: the suffixes of X all differ, so the sort is strict, and a strict order has one sorted permutation. -/
theorem bwtIsTheSortedSuffixPermutation : Obligations.BwtIsTheSortedSuffixPermutation := by
  unfold Obligations.BwtIsTheSortedSuffixPermutation
  intro T cap
  refine ⟨fun hbad => bwtF_of_badSize hbad cap, fun hpos hmax hsmall => ?overflow, fun hpos hmax hroom => ?record⟩
  case overflow => rw [bwtF_of_size hpos hmax, if_pos hsmall]
  case record =>
    refine ⟨⟨suffixOrder T, sortsSuffixes_suffixOrder T⟩, fun order horder => ?_⟩
    rw [bwtF_of_size hpos hmax, if_neg (Nat.not_lt.mpr hroom), horder.permutationRecord_eq]

end Sys2Proof.Machine

/-! ## UNBWT's successor array is the stable order of the rows (42_unbwt.md R600, R604) -/

namespace Sys2Proof.Machine

/-! ### The slots: the counters, and the place each row is written to -/

/-- The counter `first[c]` once the rows of `done` are placed. -/
def nextSlot (symbols done : List Nat) (c : Nat) : Nat := symbols.countP (· < c) + done.count c

/-- The slot row r is written to. -/
def slotOf (symbols : List Nat) (r : Nat) : Nat := nextSlot symbols (symbols.take r) (symbols.getD r 0)

theorem countP_lt_succ (symbols : List Nat) (c : Nat) :
    symbols.countP (· < c + 1) = symbols.countP (· < c) + symbols.count c := by
  induction symbols with
  | nil => rfl
  | cons x symbols ih =>
    rw [List.countP_cons, List.countP_cons, List.count_cons, ih]
    rcases Nat.lt_trichotomy x c with hlt | rfl | hgt
    · simp [hlt, hlt.ne, Nat.lt_succ_of_lt hlt]; omega
    · simp; omega
    · simp [hgt.not_gt, hgt.ne', show ¬x < c + 1 by omega]

theorem runningSums_map_count (symbols : List Nat) (a k : Nat) :
    runningSums (symbols.countP (· < a)) ((List.range' a k).map fun c => symbols.count c) =
      (List.range' a k).map fun c => symbols.countP (· < c) := by
  induction k generalizing a with
  | zero => rfl
  | succ k ih => rw [List.range'_succ, List.map_cons, List.map_cons, runningSums, ← countP_lt_succ, ih]

/-- Before the loop `first[c]` counts the smaller symbols. -/
theorem runningSums_symbolCounts (symbols : List Nat) :
    runningSums 0 (symbolCounts symbols) = (List.range 257).map (nextSlot symbols []) := by
  have hsums := runningSums_map_count symbols 0 257
  rw [← List.range_eq_range', show symbols.countP (· < 0) = 0 by simp] at hsums
  exact hsums

/-- Placing one more row moves its own symbol's counter only. -/
theorem set_nextSlot (symbols done : List Nat) (c : Nat) :
    ((List.range 257).map (nextSlot symbols done)).set c (nextSlot symbols done c + 1) =
      (List.range 257).map (nextSlot symbols (done ++ [c])) := by
  refine List.ext_getElem (by simp) fun d hd hd' => ?_
  by_cases hcd : c = d
  · simp [hcd, nextSlot, Nat.add_assoc]
  · simp [hcd, nextSlot]

theorem count_take_lt_count_take {symbols : List Nat} {r k : Nat} (hr : r < symbols.length) (hrk : r < k) :
    (symbols.take r).count (symbols.getD r 0) < (symbols.take k).count (symbols.getD r 0) := by
  have hprefix : symbols.take (r + 1) <+: symbols.take k := List.take_prefix_take_left hrk
  calc (symbols.take r).count (symbols.getD r 0)
      < (symbols.take (r + 1)).count (symbols.getD r 0) := by
        rw [← List.take_append_getElem hr, List.getD_eq_getElem _ _ hr, List.count_append, List.count_singleton_self]
        exact Nat.lt_succ_self _
    _ ≤ _ := hprefix.sublist.count_le _

/-- A row's slot is below the slots of every greater symbol. -/
theorem slotOf_lt_countP {symbols : List Nat} {r c : Nat} (hr : r < symbols.length) (hc : symbols.getD r 0 < c) :
    slotOf symbols r < symbols.countP (· < c) := by
  have hcount := count_take_lt_count_take hr hr
  rw [List.take_length] at hcount
  calc slotOf symbols r
      < symbols.countP (· < symbols.getD r 0) + symbols.count (symbols.getD r 0) := Nat.add_lt_add_left hcount _
    _ = symbols.countP (· < symbols.getD r 0 + 1) := (countP_lt_succ _ _).symm
    _ ≤ _ := List.countP_mono_left fun x _ hx => by
        simp only [decide_eq_true_eq] at hx ⊢; omega

theorem slotOf_lt_length {symbols : List Nat} {r : Nat} (hr : r < symbols.length) :
    slotOf symbols r < symbols.length :=
  (slotOf_lt_countP hr (Nat.lt_succ_self _)).trans_le List.countP_le_length

/-- Rows by increasing symbol and within a symbol by increasing row (R600). -/
def RowBefore (symbols : List Nat) (r r' : Nat) : Prop :=
  symbols.getD r 0 < symbols.getD r' 0 ∨ (symbols.getD r 0 = symbols.getD r' 0 ∧ r < r')

theorem rowBefore_trichotomy (symbols : List Nat) (r r' : Nat) :
    RowBefore symbols r r' ∨ r = r' ∨ RowBefore symbols r' r := by
  unfold RowBefore
  omega

theorem RowBefore.slotOf_lt {symbols : List Nat} {r r' : Nat} (h : RowBefore symbols r r') (hr : r < symbols.length) :
    slotOf symbols r < slotOf symbols r' := by
  rcases h with hlt | ⟨heq, hrr'⟩
  · exact (slotOf_lt_countP hr hlt).trans_le (Nat.le_add_right _ _)
  · have hcount := count_take_lt_count_take hr hrr'
    rw [slotOf, slotOf, ← heq]
    exact Nat.add_lt_add_left hcount _

theorem rowBefore_of_slotOf_lt {symbols : List Nat} {r r' : Nat} (hr' : r' < symbols.length)
    (h : slotOf symbols r < slotOf symbols r') : RowBefore symbols r r' := by
  rcases rowBefore_trichotomy symbols r r' with hbefore | rfl | hafter
  · exact hbefore
  · exact absurd h (Nat.lt_irrefl _)
  · exact absurd (hafter.slotOf_lt hr') h.asymm

/-- No two rows have one slot. -/
theorem slotOf_inj {symbols : List Nat} {r r' : Nat} (hr : r < symbols.length) (hr' : r' < symbols.length)
    (h : slotOf symbols r = slotOf symbols r') : r = r' := by
  rcases rowBefore_trichotomy symbols r r' with hbefore | heq | hafter
  · exact absurd h (hbefore.slotOf_lt hr).ne
  · exact heq
  · exact absurd h (hafter.slotOf_lt hr').ne'

/-! ### The loop writes every row into its slot -/

theorem length_fillSuccessors (r : Nat) (first succ symbols : List Nat) :
    (fillSuccessors r first succ symbols).length = succ.length := by
  induction symbols generalizing r first succ with
  | nil => rfl
  | cons c symbols ih => rw [fillSuccessors, ih, List.length_set]

@[simp] theorem length_successors (symbols : List Nat) : (successors symbols).length = symbols.length := by
  rw [successors, length_fillSuccessors, List.length_replicate]

/-- When the rows of `done` stand in their slots, the loop over the rest puts every row into its slot. -/
theorem fillSuccessors_getD_slotOf {symbols done rest succ : List Nat} (hsplit : done ++ rest = symbols)
    (hle : ∀ c ∈ rest, c ≤ 256) (hlen : succ.length = symbols.length)
    (hdone : ∀ r < done.length, succ.getD (slotOf symbols r) 0 = r) {r : Nat} (hr : r < symbols.length) :
    (fillSuccessors done.length ((List.range 257).map (nextSlot symbols done)) succ rest).getD
      (slotOf symbols r) 0 = r := by
  induction rest generalizing done succ with
  | nil =>
    rw [List.append_nil] at hsplit
    exact hdone r (hsplit ▸ hr)
  | cons c rest ih =>
    obtain ⟨hc, hrest⟩ := List.forall_mem_cons.mp hle
    have hpos : done.length < symbols.length := by simp [← hsplit]
    have hslot : nextSlot symbols done c = slotOf symbols done.length := by simp [slotOf, ← hsplit]
    have hcounter : ((List.range 257).map (nextSlot symbols done)).getD c 0 = nextSlot symbols done c := by
      simp [show c < 257 by omega]
    have hplaced : ∀ k < (done ++ [c]).length,
        (succ.set (nextSlot symbols done c) done.length).getD (slotOf symbols k) 0 = k := by
      intro k hk
      rw [List.length_append, List.length_singleton] at hk
      rw [hslot, List.getD_eq_getElem?_getD, List.getElem?_set]
      rcases Nat.lt_or_eq_of_le (Nat.le_of_lt_succ hk) with hold | rfl
      · have hne : slotOf symbols done.length ≠ slotOf symbols k :=
          fun h => hold.ne (slotOf_inj hpos (hold.trans hpos) h).symm
        rw [if_neg hne, ← List.getD_eq_getElem?_getD]
        exact hdone k hold
      · simp [hlen, slotOf_lt_length hpos]
    rw [fillSuccessors, hcounter, set_nextSlot]
    have hstep := ih (done := done ++ [c]) (by simpa using hsplit) hrest (by rw [List.length_set, hlen]) hplaced
    rwa [List.length_append, List.length_singleton] at hstep

/-- The successor array holds every row in its slot. -/
theorem successors_getD_slotOf {symbols : List Nat} (h : ∀ c ∈ symbols, c ≤ 256) {r : Nat}
    (hr : r < symbols.length) : (successors symbols).getD (slotOf symbols r) 0 = r := by
  rw [successors, runningSums_symbolCounts]
  exact fillSuccessors_getD_slotOf (done := []) rfl h List.length_replicate (by simp) hr

theorem slotOf_lt_length_successors {symbols : List Nat} {r : Nat} (hr : r < symbols.length) :
    slotOf symbols r < (successors symbols).length := by
  rw [length_successors]
  exact slotOf_lt_length hr

theorem successors_getElem_slotOf {symbols : List Nat} (h : ∀ c ∈ symbols, c ≤ 256) {r : Nat}
    (hr : r < symbols.length) : (successors symbols)[slotOf symbols r]'(slotOf_lt_length_successors hr) = r := by
  rw [← List.getD_eq_getElem _ 0]
  exact successors_getD_slotOf h hr

/-- The successor array lists every row once. -/
theorem successors_perm {symbols : List Nat} (h : ∀ c ∈ symbols, c ≤ 256) :
    (successors symbols).Perm (List.range symbols.length) := by
  have hsubset : List.range symbols.length ⊆ successors symbols := fun r hr =>
    List.mem_of_getElem (successors_getElem_slotOf h (List.mem_range.mp hr))
  exact ((List.subperm_of_subset List.nodup_range hsubset).perm_of_length_le (by simp)).symm

/-- The row at index i has slot i. -/
theorem slotOf_successors_getElem {symbols : List Nat} (h : ∀ c ∈ symbols, c ≤ 256) {i : Nat}
    (hi : i < (successors symbols).length) :
    (successors symbols)[i] < symbols.length ∧ slotOf symbols (successors symbols)[i] = i := by
  have hrow : (successors symbols)[i] < symbols.length :=
    List.mem_range.mp ((successors_perm h).subset (List.getElem_mem hi))
  have hnodup : (successors symbols).Nodup := (successors_perm h).nodup_iff.mpr List.nodup_range
  exact ⟨hrow, hnodup.getElem_inj_iff.mp (successors_getElem_slotOf h hrow)⟩

/-- The successor array is in the order of the symbols, then of the rows. -/
theorem pairwise_successors {symbols : List Nat} (h : ∀ c ∈ symbols, c ≤ 256) :
    (successors symbols).Pairwise (RowBefore symbols) := by
  refine List.pairwise_iff_getElem.mpr fun i j hi hj hij => ?_
  obtain ⟨-, hsloti⟩ := slotOf_successors_getElem h hi
  obtain ⟨hrow, hslotj⟩ := slotOf_successors_getElem h hj
  exact rowBefore_of_slotOf_lt hrow (by rwa [hsloti, hslotj])

/-! ### R600's `succ` is the one stable order of a record's rows -/

theorem rowSymbol_le (rows : List Byte) (sent r : Nat) : rowSymbol rows sent r ≤ 256 := by
  unfold rowSymbol
  split
  · exact le_rfl
  · exact (BitVec.isLt _).le

theorem stableRowOrder_successors (rows : List Byte) (sent : Nat) :
    StableRowOrder rows sent (successors ((List.range rows.length).map (rowSymbol rows sent))) := by
  have hle : ∀ c ∈ (List.range rows.length).map (rowSymbol rows sent), c ≤ 256 := by
    rintro _ hc
    obtain ⟨r, -, rfl⟩ := List.mem_map.mp hc
    exact rowSymbol_le rows sent r
  have hperm := successors_perm hle
  rw [List.length_map, List.length_range] at hperm
  refine ⟨hperm, (pairwise_successors hle).imp_of_mem fun {r r'} hr hr' hlt => ?_⟩
  have hsymbol : ∀ {k}, k ∈ successors ((List.range rows.length).map (rowSymbol rows sent)) →
      ((List.range rows.length).map (rowSymbol rows sent)).getD k 0 = rowSymbol rows sent k :=
    fun hk => by simp [List.mem_range.mp (hperm.subset hk)]
  rwa [RowBefore, hsymbol hr, hsymbol hr'] at hlt

theorem StableRowOrder.unique {rows : List Byte} {sent : Nat} {succ succ' : List Nat}
    (h : StableRowOrder rows sent succ) (h' : StableRowOrder rows sent succ') : succ = succ' := by
  obtain ⟨hperm, hsorted⟩ := h
  obtain ⟨hperm', hsorted'⟩ := h'
  refine (hperm.trans hperm'.symm).eq_of_pairwise (fun r r' _ _ hlt hgt => ?_) hsorted hsorted'
  omega

/-! ### The walk emits the bytes of the rows it visits, and the checks decide the rest -/

/-- The row the walk from row j stands in after k moves. -/
def walkRow (succ : List Nat) (j k : Nat) : Nat := (fun r => succ.getD r 0)^[k] j

theorem walkRows_eq_map (rows : List Byte) (succ : List Nat) (n j : Nat) :
    walkRows rows succ n j = (List.range n).map fun k => rows.getD (walkRow succ j k) 0 := by
  induction n generalizing j with
  | zero => rfl
  | succ n ih => rw [walkRows, ih, List.range_succ_eq_map, List.map_cons, List.map_map]; rfl

/-- A record that passes the checks before the walk is decoded along any stable order of its rows. -/
theorem unbwtF_of_stableRowOrder {R : List Byte} {cap : Nat} {succ : List Nat} (hmin : 10 ≤ R.length)
    (hmax : R.length - 9 ≤ Config.bwtMaxN) (hprim : be32At R 0 ≤ R.length - 9) (hsent : be32At R 4 ≤ R.length - 9)
    (hfiller : (R.drop 8).getD (be32At R 4) 0 = 0x00) (hcap : R.length - 9 ≤ cap)
    (hsucc : StableRowOrder (R.drop 8) (be32At R 4) succ) :
    unbwtF R cap =
      if (R.drop 8).getD (walkRow succ (be32At R 0) (R.length - 9)) 0 ≠ 0x00 then .err .unbwtConsistency 0
      else .ok ((List.range (R.length - 9)).map fun k => (R.drop 8).getD (walkRow succ (be32At R 0) k) 0) := by
  have hrows : R.length - 9 + 1 = (R.drop 8).length := by rw [List.length_drop]; omega
  have hsuccessors : successors ((List.range (R.length - 9 + 1)).map (rowSymbol (R.drop 8) (be32At R 4))) = succ := by
    rw [hrows]; exact (stableRowOrder_successors _ _).unique hsucc
  unfold unbwtF
  dsimp only
  rw [if_neg (by omega), if_neg (by omega), if_neg (not_not.mpr hfiller), if_neg (by omega), hsuccessors,
    walkRows_eq_map, ← List.map_take, List.take_range, Nat.min_eq_left (Nat.le_succ _)]
  simp

end Sys2Proof.Machine

/-! ## UNBWT of BWT's record gives the block back (42_unbwt.md R602, R603) -/

namespace Sys2Proof.Machine

/-! ### The row of a suffix -/

/-- The row of the suffix at offset p. -/
def rowOf (T : List Byte) (p : Nat) : Nat := (suffixOrder T).idxOf p

theorem mem_suffixOrder {T : List Byte} {p : Nat} : p ∈ suffixOrder T ↔ p ≤ T.length := by
  rw [(suffixOrder_perm T).mem_iff, List.mem_range, Nat.lt_succ_iff]

theorem rowOf_le {T : List Byte} {p : Nat} (h : p ≤ T.length) : rowOf T p ≤ T.length := by
  have hlt := List.idxOf_lt_length_of_mem (mem_suffixOrder.mpr h)
  rw [length_suffixOrder] at hlt
  exact Nat.le_of_lt_succ hlt

/-- What a list along `order` holds in the row of the suffix at offset p. -/
theorem getD_rowOf_map_suffixOrder {α : Type} {T : List Byte} {p : Nat} (h : p ≤ T.length) (f : Nat → α) (d : α) :
    ((suffixOrder T).map f).getD (rowOf T p) d = f p := by
  have hlt := List.idxOf_lt_length_of_mem (mem_suffixOrder.mpr h)
  rw [rowOf, List.getD_eq_getElem _ _ (by simpa using hlt), List.getElem_map, List.getElem_idxOf]

theorem rowOf_inj {T : List Byte} {p q : Nat} (h : p ≤ T.length) : rowOf T p = rowOf T q ↔ p = q :=
  List.idxOf_inj (mem_suffixOrder.mpr h)

/-- A smaller suffix has an earlier row. -/
theorem rowOf_lt_rowOf {T : List Byte} {p q : Nat} (hp : p ≤ T.length) (hq : q ≤ T.length)
    (h : (textWithSentinel T).drop p < (textWithSentinel T).drop q) : rowOf T p < rowOf T q := by
  obtain ⟨-, hsorted⟩ := sortsSuffixes_suffixOrder T
  have hpos : ∀ {k}, k ≤ T.length → rowOf T k < (suffixOrder T).length :=
    fun hk => List.idxOf_lt_length_of_mem (mem_suffixOrder.mpr hk)
  rcases Nat.lt_trichotomy (rowOf T p) (rowOf T q) with hlt | heq | hgt
  · exact hlt
  · rw [(rowOf_inj hp).mp heq] at h
    exact absurd h (lt_irrefl _)
  · have hswap := List.pairwise_iff_getElem.mp hsorted _ _ (hpos hq) (hpos hp) hgt
    simp only [rowOf, List.getElem_idxOf] at hswap
    exact absurd (suffixLt_iff_lt.mp hswap) h.asymm

/-! ### The record's fields read back -/

theorem be32At_be32_append {x : Nat} (h : x < 2 ^ 32) (rest : List Byte) : be32At (be32 x ++ rest) 0 = x := by
  simp only [be32, be32At, List.cons_append, List.getD_cons_zero, List.getD_cons_succ, BitVec.toNat_ofNat]
  omega

theorem be32At_append (front rest : List Byte) (i : Nat) :
    be32At (front ++ rest) (front.length + i) = be32At rest i := by
  simp [be32At, List.getElem?_append_right, Nat.add_assoc]

theorem be32At_permutationRecord {T : List Byte} (hpos : 1 ≤ T.length) (hmax : T.length ≤ Config.bwtMaxN) :
    be32At (permutationRecord T) 0 = rowOf T 1 ∧ be32At (permutationRecord T) 4 = rowOf T 0 := by
  have hfits : ∀ {p}, p ≤ T.length → rowOf T p < 2 ^ 32 := fun hp => by
    have hrow := rowOf_le hp
    rw [Config.bwtMaxN] at hmax
    omega
  rw [permutationRecord, List.append_assoc]
  exact ⟨be32At_be32_append (hfits hpos) _,
    (be32At_append (be32 (rowOf T 1)) _ 0).trans (be32At_be32_append (hfits T.length.zero_le) _)⟩

theorem drop_permutationRecord (T : List Byte) :
    (permutationRecord T).drop 8 = (suffixOrder T).map (rowByte T) := rfl

/-! ### The last column: the row before a suffix holds the symbol it begins with -/

/-- The offset after p, around the end of X. -/
def nextOffset (T : List Byte) (p : Nat) : Nat := (p + 1) % (T.length + 1)

theorem nextOffset_le (T : List Byte) (p : Nat) : nextOffset T p ≤ T.length :=
  Nat.le_of_lt_succ (Nat.mod_lt _ T.length.succ_pos)

theorem nextOffset_of_lt {T : List Byte} {p : Nat} (h : p < T.length) : nextOffset T p = p + 1 :=
  Nat.mod_eq_of_lt (Nat.succ_lt_succ h)

theorem nextOffset_length (T : List Byte) : nextOffset T T.length = 0 := Nat.mod_self _

theorem getD_textWithSentinel_of_lt {T : List Byte} {p : Nat} (h : p < T.length) :
    (textWithSentinel T).getD p 0 = (T.getD p 0).toNat := by
  simp [textWithSentinel, List.getElem?_append_left, h]

theorem getD_textWithSentinel_length (T : List Byte) : (textWithSentinel T).getD T.length 0 = 256 := by
  simp [textWithSentinel]

/-- The row of the suffix after p holds X[p] (R602). -/
theorem rowSymbol_rowOf_nextOffset {T : List Byte} {p : Nat} (h : p ≤ T.length) :
    rowSymbol ((suffixOrder T).map (rowByte T)) (rowOf T 0) (rowOf T (nextOffset T p)) =
      (textWithSentinel T).getD p 0 := by
  rw [rowSymbol, getD_rowOf_map_suffixOrder (nextOffset_le T p), rowByte_eq_of_le (nextOffset_le T p)]
  rcases Nat.lt_or_eq_of_le h with hlt | rfl
  · have hrow : rowOf T (p + 1) ≠ rowOf T 0 := fun heq => p.succ_ne_zero ((rowOf_inj hlt).mp heq)
    rw [nextOffset_of_lt hlt, if_neg hrow, if_neg p.succ_ne_zero, Nat.add_sub_cancel, getD_textWithSentinel_of_lt hlt]
  · rw [nextOffset_length, if_pos rfl, getD_textWithSentinel_length]

/-- The order of two suffixes is that of their first symbols and then that of the suffixes after them: only one suffix
begins with the sentinel. -/
theorem symbol_order_of_drop_lt {T : List Byte} {p q : Nat} (hp : p ≤ T.length) (hq : q ≤ T.length)
    (h : (textWithSentinel T).drop p < (textWithSentinel T).drop q) :
    (textWithSentinel T).getD p 0 < (textWithSentinel T).getD q 0 ∨
      ((textWithSentinel T).getD p 0 = (textWithSentinel T).getD q 0 ∧
        rowOf T (nextOffset T p) < rowOf T (nextOffset T q)) := by
  have hdrop : ∀ {k}, k ≤ T.length →
      (textWithSentinel T).drop k = (textWithSentinel T).getD k 0 :: (textWithSentinel T).drop (k + 1) := by
    intro k hk
    have hk : k < (textWithSentinel T).length := by rw [length_textWithSentinel]; exact Nat.lt_succ_of_le hk
    rw [List.drop_eq_getElem_cons hk, List.getD_eq_getElem _ _ hk]
  have hbyte : ∀ {k}, k < T.length → (textWithSentinel T).getD k 0 < 256 := fun hk => by
    rw [getD_textWithSentinel_of_lt hk]; exact BitVec.isLt _
  rw [hdrop hp, hdrop hq, List.cons_lt_cons_iff] at h
  refine h.imp_right fun ⟨heq, hlt⟩ => ⟨heq, ?_⟩
  rcases Nat.lt_or_eq_of_le hp with hp | rfl <;> rcases Nat.lt_or_eq_of_le hq with hq | rfl
  · rw [nextOffset_of_lt hp, nextOffset_of_lt hq]
    exact rowOf_lt_rowOf hp hq hlt
  · exact absurd (heq.trans (getD_textWithSentinel_length T)) (hbyte hp).ne
  · exact absurd (heq.symm.trans (getD_textWithSentinel_length T)) (hbyte hq).ne
  · exact absurd hlt (lt_irrefl _)

/-! ### In BWT's record the successor of a suffix's row is the next suffix's row -/

/-- The rows of the next suffixes, along `order`. -/
def nextRows (T : List Byte) : List Nat := (suffixOrder T).map fun p => rowOf T (nextOffset T p)

theorem nextOffset_inj {T : List Byte} {p q : Nat} (hp : p ≤ T.length) (hq : q ≤ T.length)
    (h : nextOffset T p = nextOffset T q) : p = q :=
  (Nat.ModEq.add_right_cancel' 1 h).eq_of_lt_of_lt (Nat.lt_succ_of_le hp) (Nat.lt_succ_of_le hq)

theorem nextRows_perm (T : List Byte) : (nextRows T).Perm (List.range (T.length + 1)) := by
  have hnodup : (nextRows T).Nodup := by
    refine List.Nodup.map_on (fun p hp q hq heq => ?_) ((suffixOrder_perm T).nodup_iff.mpr List.nodup_range)
    exact nextOffset_inj (mem_suffixOrder.mp hp) (mem_suffixOrder.mp hq) ((rowOf_inj (nextOffset_le T p)).mp heq)
  have hsubset : nextRows T ⊆ List.range (T.length + 1) := fun r hr => by
    obtain ⟨p, -, rfl⟩ := List.mem_map.mp hr
    exact List.mem_range.mpr (Nat.lt_succ_of_le (rowOf_le (nextOffset_le T p)))
  exact (List.subperm_of_subset hnodup hsubset).perm_of_length_le (by simp [nextRows])

theorem stableRowOrder_nextRows (T : List Byte) :
    StableRowOrder ((suffixOrder T).map (rowByte T)) (rowOf T 0) (nextRows T) := by
  obtain ⟨-, hsorted⟩ := sortsSuffixes_suffixOrder T
  refine ⟨by simpa using nextRows_perm T, List.pairwise_map.mpr (hsorted.imp_of_mem fun {p q} hp hq hlt => ?_)⟩
  have hp := mem_suffixOrder.mp hp
  have hq := mem_suffixOrder.mp hq
  rw [rowSymbol_rowOf_nextOffset hp, rowSymbol_rowOf_nextOffset hq]
  exact symbol_order_of_drop_lt hp hq (suffixLt_iff_lt.mp hlt)

/-- From the row of the suffix at offset 1 the walk visits the suffixes in text order, and at last the whole text. -/
theorem walkRow_nextRows {T : List Byte} (hpos : 1 ≤ T.length) (k : Nat) :
    walkRow (nextRows T) (rowOf T 1) k = rowOf T (nextOffset T k) := by
  induction k with
  | zero => rw [nextOffset_of_lt hpos]; rfl
  | succ k ih =>
    have hstep : nextOffset T (nextOffset T k) = nextOffset T (k + 1) := by simp [nextOffset]
    rw [walkRow, Function.iterate_succ_apply', ← walkRow, ih, nextRows,
      getD_rowOf_map_suffixOrder (nextOffset_le T k), hstep]

/-! ### The round trip -/

/-- UNBWT decodes the record of a block to the block. -/
theorem unbwtF_permutationRecord {T : List Byte} {cap : Nat} (hpos : 1 ≤ T.length) (hmax : T.length ≤ Config.bwtMaxN)
    (hcap : T.length ≤ cap) : unbwtF (permutationRecord T) cap = .ok T := by
  obtain ⟨hprim, hsent⟩ := be32At_permutationRecord hpos hmax
  have hN : (permutationRecord T).length - 9 = T.length := by rw [length_permutationRecord, Nat.add_sub_cancel]
  have hbyte : ∀ k, ((suffixOrder T).map (rowByte T)).getD (walkRow (nextRows T) (rowOf T 1) k) 0 =
      if nextOffset T k = 0 then 0x00 else T.getD (nextOffset T k - 1) 0 := fun k => by
    rw [walkRow_nextRows hpos, getD_rowOf_map_suffixOrder (nextOffset_le T k), rowByte_eq_of_le (nextOffset_le T k)]
  have hblock : ((List.range T.length).map fun k =>
      ((suffixOrder T).map (rowByte T)).getD (walkRow (nextRows T) (rowOf T 1) k) 0) = T := by
    refine List.ext_getElem (by simp) fun k hk hkT => ?_
    simp only [List.getElem_map, List.getElem_range, hbyte, nextOffset_of_lt hkT]
    simp [hkT]
  rw [unbwtF_of_stableRowOrder (succ := nextRows T), hprim, hN, drop_permutationRecord, hblock, hbyte,
    nextOffset_length]
  · rfl
  case hmin => rw [length_permutationRecord]; omega
  case hmax => rwa [hN]
  case hprim => rw [hprim, hN]; exact rowOf_le hpos
  case hsent => rw [hsent, hN]; exact rowOf_le T.length.zero_le
  case hfiller =>
    rw [hsent, drop_permutationRecord, getD_rowOf_map_suffixOrder T.length.zero_le,
      rowByte_eq_of_le T.length.zero_le, if_pos rfl]
  case hcap => rwa [hN]
  case hsucc => rw [hsent, drop_permutationRecord]; exact stableRowOrder_nextRows T

/-- Settles O41: the successors of BWT's record lead from each suffix's row to the next suffix's, so the walk reads the
block in text order. -/
theorem unbwtInvertsBwt : Obligations.UnbwtInvertsBwt := by
  unfold Obligations.UnbwtInvertsBwt
  intro T cap hpos hmax hcap
  refine ⟨permutationRecord T, ?_, unbwtF_permutationRecord hpos hmax hcap⟩
  rw [bwtF_of_size hpos hmax, if_neg (Nat.lt_irrefl _)]

end Sys2Proof.Machine

/-! ## HUFF and PUFF do not depend on the PATH (43_huffman.md R754) -/

namespace Sys2Proof.Machine

/-- Settles O43: the packer and the encode automaton hold the bits that fill no byte yet, and the decode automaton's node
is the bit string of the decoding loop's accumulator. -/
theorem huffmanPathsAreEquivalent : Obligations.HuffmanPathsAreEquivalent := by
  unfold Obligations.HuffmanPathsAreEquivalent
  exact ⟨fun tie S cap => ⟨huffBitLevel_eq_huffF tie S cap, huffAutomaton_eq_huffF tie S cap⟩,
    fun S cap => ⟨rfl, puffAutomaton_eq_puffF S cap, puffAuto_eq_puffF S cap⟩⟩

end Sys2Proof.Machine

/-! ## The canonical code (43_huffman.md R715, R716) -/

namespace Sys2Proof.Machine

/-! ### The bytes of the table -/

theorem mem_bytesOfLength {lens : List Nat} {l b : Nat} : b ∈ bytesOfLength lens l ↔ b < 256 ∧ lens.getD b 0 = l := by
  simp [bytesOfLength]

theorem pairwise_bytesOfLength (lens : List Nat) (l : Nat) : (bytesOfLength lens l).Pairwise (· < ·) :=
  List.pairwise_lt_range.filter _

theorem nodup_bytesOfLength (lens : List Nat) (l : Nat) : (bytesOfLength lens l).Nodup :=
  List.nodup_range.filter _

@[simp] theorem map_byte_assignCodes (l c : Nat) (bs : List Nat) : (assignCodes l c bs).map CodeRow.byte = bs := by
  induction bs generalizing c with
  | nil => rfl
  | cons b bs ih => rw [assignCodes, List.map_cons, ih]

/-- The levels from l down to 1 give a row to every byte whose length is one of them. -/
theorem map_byte_canonicalFrom_perm (lens : List Nat) (l c : Nat) :
    ((canonicalFrom lens l c).map CodeRow.byte).Perm
      ((List.range 256).filter fun b => 1 ≤ lens.getD b 0 ∧ lens.getD b 0 ≤ l) := by
  induction l generalizing c with
  | zero =>
    rw [canonicalFrom, List.map_nil, List.filter_eq_nil_iff.mpr fun b _ => by simp; omega]
  | succ l ih =>
    rw [canonicalFrom, List.map_append, map_byte_assignCodes]
    refine ((ih _).append_left _).trans ((List.perm_ext_iff_of_nodup ?nodup (List.nodup_range.filter _)).mpr ?mem)
    case nodup =>
      refine (nodup_bytesOfLength lens (l + 1)).append (List.nodup_range.filter _) fun b hb hb' => ?_
      obtain ⟨-, hlen⟩ := mem_bytesOfLength.mp hb
      simp only [List.mem_filter, decide_eq_true_eq] at hb'
      omega
    case mem =>
      intro b
      simp only [List.mem_append, mem_bytesOfLength, List.mem_filter, List.mem_range, decide_eq_true_eq]
      omega

theorem le_foldl_max {lens : List Nat} {l : Nat} (h : l ∈ lens) : l ≤ lens.foldl max 0 := by
  rw [List.foldl_eq_foldr]
  exact List.le_max_of_le' 0 h le_rfl

theorem getD_mem_of_lt {lens : List Nat} {b : Nat} (h : b < lens.length) : lens.getD b 0 ∈ lens := by
  rw [List.getD_eq_getElem _ _ h]
  exact List.getElem_mem h

/-- Every byte has one row of the table. -/
theorem map_byte_canonical_perm {lens : List Nat} (hlen : lens.length = 256) (hpos : ∀ l ∈ lens, 1 ≤ l) :
    ((canonical lens).map CodeRow.byte).Perm (List.range 256) := by
  refine (map_byte_canonicalFrom_perm lens _ 0).trans (.of_eq (List.filter_eq_self.mpr fun b hb => ?_))
  have hmem := getD_mem_of_lt (lens := lens) (b := b) (by rw [hlen]; exact List.mem_range.mp hb)
  exact decide_eq_true ⟨hpos _ hmem, le_foldl_max hmem⟩

/-! ### The Kraft weight of the longer codes -/

theorem kraftSum_cons (l : Nat) (lens : List Nat) : kraftSum (l :: lens) = 2 ^ (255 - l) + kraftSum lens := rfl

theorem kraftSum_eq_zero_iff {lens : List Nat} : kraftSum lens = 0 ↔ lens = [] := by
  cases lens with
  | nil => simp [kraftSum]
  | cons l lens => simp [kraftSum_cons]

theorem kraftSum_filter_lt_add_filter_le (lens : List Nat) (l : Nat) :
    kraftSum (lens.filter (l < ·)) + kraftSum (lens.filter (· ≤ l)) = kraftSum lens := by
  induction lens with
  | nil => rfl
  | cons x lens ih =>
    rw [kraftSum_cons, ← ih]
    rcases Nat.lt_or_ge l x with hlt | hge
    · rw [List.filter_cons_of_pos (by simpa), List.filter_cons_of_neg (by simpa), kraftSum_cons]; ring
    · rw [List.filter_cons_of_neg (by simpa), List.filter_cons_of_pos (by simpa), kraftSum_cons]; ring

/-- Codes of at most l bits weigh multiples of what a code of l bits weighs. -/
theorem dvd_kraftSum_filter_le (lens : List Nat) (l : Nat) : 2 ^ (255 - l) ∣ kraftSum (lens.filter (· ≤ l)) := by
  refine List.dvd_sum fun w hw => ?_
  obtain ⟨x, hx, rfl⟩ := List.mem_map.mp hw
  have hle : x ≤ l := by simpa using (List.mem_filter.mp hx).2
  exact pow_dvd_pow 2 (Nat.sub_le_sub_left hle 255)

/-- In a complete code the codes longer than l fill whole codes of length l. -/
theorem dvd_kraftSum_filter_lt {lens : List Nat} (hkraft : kraftSum lens = 2 ^ 255) (l : Nat) :
    2 ^ (255 - l) ∣ kraftSum (lens.filter (l < ·)) := by
  refine (Nat.dvd_add_left (dvd_kraftSum_filter_le lens l)).mp ?_
  rw [kraftSum_filter_lt_add_filter_le, hkraft]
  exact pow_dvd_pow 2 (Nat.sub_le _ _)

theorem kraftSum_filter_lt_anti (lens : List Nat) {l k : Nat} (h : l ≤ k) :
    kraftSum (lens.filter (k < ·)) ≤ kraftSum (lens.filter (l < ·)) := by
  have hsub : (lens.filter (k < ·)).Sublist (lens.filter (l < ·)) :=
    List.monotone_filter_right lens fun x hx => by simp at hx ⊢; omega
  exact (hsub.map _).sum_le_sum fun _ _ => Nat.zero_le _

/-- The longest code of a complete code on 256 bytes has at least 8 bits (R713). -/
theorem eight_le_foldl_max {lens : List Nat} (hlen : lens.length = 256) (hkraft : kraftSum lens = 2 ^ 255) :
    8 ≤ lens.foldl max 0 := by
  by_contra! hlt
  have hweight : lens.length * 2 ^ 248 ≤ kraftSum lens := by
    have hle := List.card_nsmul_le_sum (lens.map fun l => 2 ^ (255 - l)) (2 ^ 248) fun w hw => by
      obtain ⟨l, hl, rfl⟩ := List.mem_map.mp hw
      have := le_foldl_max hl
      exact Nat.pow_le_pow_right two_pos (by omega)
    rwa [List.length_map, smul_eq_mul] at hle
  rw [hlen, hkraft] at hweight
  exact absurd hweight (by decide)

/-! ### Where a row stands in the table -/

/-- A row in its place: the codes before it, the longer ones and those of its level's earlier bytes, fill what lies
below its code. -/
structure PlacedRow (lens : List Nat) (row : CodeRow) : Prop where
  byte_lt : row.byte < 256
  len_eq : row.len = lens.getD row.byte 0
  code_eq : row.code * 2 ^ (255 - row.len) =
    kraftSum (lens.filter (row.len < ·)) + (bytesOfLength lens row.len).idxOf row.byte * 2 ^ (255 - row.len)

theorem mem_assignCodes_idxOf {l c : Nat} {bs : List Nat} (hnodup : bs.Nodup) {row : CodeRow}
    (h : row ∈ assignCodes l c bs) : row.byte ∈ bs ∧ row.code = c + bs.idxOf row.byte := by
  induction bs generalizing c with
  | nil => cases h
  | cons b bs ih =>
    obtain ⟨hb, hnodup⟩ := List.nodup_cons.mp hnodup
    rcases List.mem_cons.mp h with rfl | h
    · simp
    · obtain ⟨hbyte, hcode⟩ := ih hnodup h
      have hne : b ≠ row.byte := fun heq => hb (heq ▸ hbyte)
      rw [List.idxOf_cons_ne _ hne]
      exact ⟨List.mem_cons_of_mem _ hbyte, by omega⟩

theorem placedRow_of_mem_canonicalFrom {lens : List Nat} (hlen : lens.length = 256) (hkraft : kraftSum lens = 2 ^ 255)
    {l c : Nat} (hl : l ≤ 255) (hc : c * 2 ^ (255 - l) = kraftSum (lens.filter (l < ·))) {row : CodeRow}
    (hrow : row ∈ canonicalFrom lens l c) : PlacedRow lens row := by
  induction l generalizing c with
  | zero => cases hrow
  | succ l ih =>
    rw [canonicalFrom] at hrow
    rcases List.mem_append.mp hrow with hrow | hrow
    · obtain ⟨hrowLen, -⟩ := mem_assignCodes hrow
      obtain ⟨hbyte, hcode⟩ := mem_assignCodes_idxOf (nodup_bytesOfLength lens (l + 1)) hrow
      obtain ⟨hlt, hget⟩ := mem_bytesOfLength.mp hbyte
      exact ⟨hlt, hrowLen.trans hget.symm, by rw [hrowLen, hcode, Nat.add_mul, hc]⟩
    · refine ih (by omega) ?_ hrow
      have hpow : 2 ^ (255 - l) = 2 * 2 ^ (255 - (l + 1)) := by
        rw [show 255 - l = 255 - (l + 1) + 1 by omega, pow_succ']
      have hweight : (c + lens.count (l + 1)) * 2 ^ (255 - (l + 1)) = kraftSum (lens.filter (l < ·)) := by
        rw [kraftSum_filter_lt, Nat.add_mul, hc, Nat.add_comm]
      have heven : 2 ∣ c + lens.count (l + 1) := by
        have hdvd := dvd_kraftSum_filter_lt hkraft l
        rw [hpow, ← hweight] at hdvd
        exact Nat.dvd_of_mul_dvd_mul_right (by positivity) hdvd
      rw [length_bytesOfLength hlen, hpow, ← Nat.mul_assoc, Nat.div_mul_cancel heven, hweight]

theorem placedRow_of_mem_canonical {lens : List Nat} (hlen : lens.length = 256) (hle : ∀ l ∈ lens, l ≤ 255)
    (hkraft : kraftSum lens = 2 ^ 255) {row : CodeRow} (hrow : row ∈ canonical lens) : PlacedRow lens row := by
  have hnone : lens.filter (lens.foldl max 0 < ·) = [] :=
    List.filter_eq_nil_iff.mpr fun l hl => by simpa using le_foldl_max hl
  refine placedRow_of_mem_canonicalFrom hlen hkraft (foldl_max_le hle) ?_ hrow
  rw [hnone, Nat.zero_mul]
  rfl

namespace PlacedRow

variable {lens : List Nat} {row row' : CodeRow}

theorem len_mem (h : PlacedRow lens row) (hlen : lens.length = 256) : row.len ∈ lens := by
  rw [h.len_eq]
  exact getD_mem_of_lt (hlen ▸ h.byte_lt)

theorem byte_mem (h : PlacedRow lens row) : row.byte ∈ bytesOfLength lens row.len :=
  mem_bytesOfLength.mpr ⟨h.byte_lt, h.len_eq.symm⟩

/-- A longer code lies before a shorter one: what it fills ends where the shorter one begins, or earlier. -/
theorem code_succ_le_of_len_lt (h : PlacedRow lens row) (h' : PlacedRow lens row') (hlen : lens.length = 256)
    (hlt : row.len < row'.len) :
    (row'.code + 1) * 2 ^ (255 - row'.len) ≤ row.code * 2 ^ (255 - row.len) := by
  obtain ⟨k, hk⟩ := Nat.exists_eq_add_one_of_ne_zero (Nat.ne_zero_of_lt hlt)
  have hidx : (bytesOfLength lens row'.len).idxOf row'.byte + 1 ≤ lens.count row'.len := by
    rw [← length_bytesOfLength hlen]
    exact List.idxOf_lt_length_of_mem h'.byte_mem
  calc (row'.code + 1) * 2 ^ (255 - row'.len)
      = kraftSum (lens.filter (row'.len < ·)) +
          ((bytesOfLength lens row'.len).idxOf row'.byte + 1) * 2 ^ (255 - row'.len) := by
        rw [Nat.add_mul, h'.code_eq, Nat.add_mul, Nat.add_assoc]
    _ ≤ kraftSum (lens.filter (row'.len < ·)) + lens.count row'.len * 2 ^ (255 - row'.len) :=
        Nat.add_le_add_left (Nat.mul_le_mul_right _ hidx) _
    _ = kraftSum (lens.filter (k < ·)) := by rw [hk, kraftSum_filter_lt lens k, Nat.add_comm]
    _ ≤ kraftSum (lens.filter (row.len < ·)) := kraftSum_filter_lt_anti lens (by omega)
    _ ≤ row.code * 2 ^ (255 - row.len) := by rw [h.code_eq]; exact Nat.le_add_right _ _

/-- Rows of one length and code are one row. -/
theorem eq_of_code_eq (h : PlacedRow lens row) (h' : PlacedRow lens row') (hlen : row.len = row'.len)
    (hcode : row.code = row'.code) : row = row' := by
  have hidx := h'.code_eq
  rw [← hlen, ← hcode, h.code_eq] at hidx
  have hbyte : row.byte = row'.byte := (List.idxOf_inj h.byte_mem).mp
    (Nat.eq_of_mul_eq_mul_right (by positivity) (Nat.add_left_cancel hidx))
  cases row
  cases row'
  exact (CodeRow.mk.injEq ..).mpr ⟨hbyte, hlen, hcode⟩

end PlacedRow

/-! ### No code begins another -/

/-- A code that begins with another one lies in what that one fills. -/
theorem le_of_codeBits_prefix {c l c' l' : Nat} (hc : c < 2 ^ l) (hc' : c' < 2 ^ l')
    (h : codeBits c l <+: codeBits c' l') : l ≤ l' ∧ c * 2 ^ (l' - l) ≤ c' := by
  obtain ⟨rest, hrest⟩ := h
  have hlength := congrArg List.length hrest
  have hvalue := congrArg bitsValue hrest
  rw [List.length_append, length_codeBits, length_codeBits] at hlength
  rw [bitsValue_append, bitsValue_codeBits, bitsValue_codeBits, Nat.mod_eq_of_lt hc, Nat.mod_eq_of_lt hc',
    show rest.length = l' - l by omega] at hvalue
  omega

theorem canonical_prefix_free {lens : List Nat} (hlen : lens.length = 256) (hle : ∀ l ∈ lens, l ≤ 255)
    (hkraft : kraftSum lens = 2 ^ 255) {row row' : CodeRow} (hrow : row ∈ canonical lens)
    (hrow' : row' ∈ canonical lens) (h : codeBits row.code row.len <+: codeBits row'.code row'.len) : row = row' := by
  have hplaced := placedRow_of_mem_canonical hlen hle hkraft hrow
  have hplaced' := placedRow_of_mem_canonical hlen hle hkraft hrow'
  have hfit := canonical_code_lt hlen hle hkraft.le
  obtain ⟨hlenLe, hcode⟩ := le_of_codeBits_prefix (hfit row hrow) (hfit row' hrow') h
  rcases Nat.lt_or_eq_of_le hlenLe with hlt | heq
  · have hbound := hle _ (hplaced'.len_mem hlen)
    have hinside : row.code * 2 ^ (255 - row.len) ≤ row'.code * 2 ^ (255 - row'.len) := by
      rw [show 255 - row.len = row'.len - row.len + (255 - row'.len) by omega, pow_add, ← Nat.mul_assoc]
      exact Nat.mul_le_mul_right _ hcode
    have hbefore := (hplaced.code_succ_le_of_len_lt hplaced' hlen hlt).trans hinside
    exact absurd (Nat.le_of_mul_le_mul_right hbefore (by positivity)) (Nat.not_succ_le_self _)
  · have hbits := List.IsPrefix.eq_of_length h (by simp [heq])
    rw [← heq] at hbits
    exact hplaced.eq_of_code_eq hplaced' heq (codeBits_inj (hfit row hrow) (heq ▸ hfit row' hrow') hbits)

/-! ### The all-zero code -/

theorem filter_lt_eq_nil_iff {lens : List Nat} {l : Nat} (h : l ∈ lens) :
    lens.filter (l < ·) = [] ↔ l = lens.foldl max 0 := by
  rw [List.filter_eq_nil_iff]
  constructor
  · intro hmax
    exact (le_foldl_max h).antisymm (foldl_max_le fun x hx => by simpa using hmax x hx)
  · rintro rfl x hx
    simpa using le_foldl_max hx

/-- The first member of a rising list is its least. -/
theorem idxOf_eq_zero_iff_of_pairwise {bs : List Nat} (hsorted : bs.Pairwise (· < ·)) {b : Nat} (hb : b ∈ bs) :
    bs.idxOf b = 0 ↔ ∀ b' < b, b' ∉ bs := by
  cases bs with
  | nil => cases hb
  | cons x bs =>
    obtain ⟨hleast, -⟩ := List.pairwise_cons.mp hsorted
    rcases List.mem_cons.mp hb with rfl | hb
    · simp only [List.idxOf_cons_self, List.mem_cons, not_or, true_iff]
      exact fun b' hlt => ⟨hlt.ne, fun hmem => hlt.not_gt (hleast b' hmem)⟩
    · have hlt := hleast b hb
      rw [List.idxOf_cons_ne _ hlt.ne]
      exact iff_of_false (Nat.succ_ne_zero _) fun hnone => hnone x hlt List.mem_cons_self

/-- The code of zeros is that of the smallest byte of the greatest length. -/
theorem PlacedRow.code_eq_zero_iff {lens : List Nat} {row : CodeRow} (h : PlacedRow lens row)
    (hlen : lens.length = 256) :
    row.code = 0 ↔ row.len = lens.foldl max 0 ∧ ∀ b, b < row.byte → lens.getD b 0 ≠ row.len := by
  have hsmallest : (∀ b < row.byte, b ∉ bytesOfLength lens row.len) ↔
      ∀ b, b < row.byte → lens.getD b 0 ≠ row.len := by
    refine forall₂_congr fun b hb => ?_
    rw [mem_bytesOfLength, not_and]
    exact ⟨fun hne => hne (hb.trans h.byte_lt), fun hne _ => hne⟩
  calc row.code = 0
      ↔ row.code * 2 ^ (255 - row.len) = 0 := by simp
    _ ↔ kraftSum (lens.filter (row.len < ·)) = 0 ∧ (bytesOfLength lens row.len).idxOf row.byte = 0 := by
        rw [h.code_eq]; simp
    _ ↔ _ := by
        rw [kraftSum_eq_zero_iff, filter_lt_eq_nil_iff (h.len_mem hlen),
          idxOf_eq_zero_iff_of_pairwise (pairwise_bytesOfLength _ _) h.byte_mem, hsmallest]

/-- A run of at most 7 zero bits is no code. -/
theorem canonical_short_code_ne_zero {lens : List Nat} (hlen : lens.length = 256) (hle : ∀ l ∈ lens, l ≤ 255)
    (hkraft : kraftSum lens = 2 ^ 255) {row : CodeRow} (hrow : row ∈ canonical lens) : 7 < row.len ∨ row.code ≠ 0 := by
  refine or_iff_not_imp_right.mpr fun hzero => ?_
  obtain ⟨hmax, -⟩ :=
    ((placedRow_of_mem_canonical hlen hle hkraft hrow).code_eq_zero_iff hlen).mp (not_not.mp hzero)
  exact hmax ▸ eight_le_foldl_max hlen hkraft

/-- Settles O51: a row's code, scaled to 255 bits, is the Kraft weight of the codes before it, so the codes lie one
after the other, longest first, and the first one alone is zero. -/
theorem canonicalCodeIsPrefixFree : Obligations.CanonicalCodeIsPrefixFree := by
  unfold Obligations.CanonicalCodeIsPrefixFree
  intro lens hlen hbounds hkraft
  have hle : ∀ l ∈ lens, l ≤ 255 := fun l hl => (hbounds l hl).2
  refine ⟨map_byte_canonical_perm hlen fun l hl => (hbounds l hl).1, fun row hrow => ?rowFields,
    fun row hrow row' hrow' h => canonical_prefix_free hlen hle hkraft hrow hrow' h,
    fun row hrow => (placedRow_of_mem_canonical hlen hle hkraft hrow).code_eq_zero_iff hlen,
    fun row hrow => canonical_short_code_ne_zero hlen hle hkraft hrow⟩
  case rowFields =>
    obtain ⟨hbyte, hrowLen, -⟩ := placedRow_of_mem_canonical hlen hle hkraft hrow
    exact ⟨hbyte, hrowLen, canonical_code_lt hlen hle hkraft.le row hrow⟩

end Sys2Proof.Machine

/-! ## The code lengths of HUFF form a complete code (43_huffman.md R710, R713) -/

namespace Sys2Proof.Machine

/-! ### The leaves of a tree, and what their depths weigh -/

/-- The sequence numbers of a tree's leaves, from left to right. -/
def leafSeqs : HuffTree → List Nat
  | .leaf seq _ => [seq]
  | .node _ _ x y => leafSeqs x ++ leafSeqs y

theorem length_leafSeqs_pos (t : HuffTree) : 0 < (leafSeqs t).length := by
  induction t with
  | leaf => simp [leafSeqs]
  | node _ _ x y ihx _ => rw [leafSeqs, List.length_append]; omega

theorem map_fst_leafDepths (k : Nat) (t : HuffTree) : (leafDepths k t).map Prod.fst = leafSeqs t := by
  induction t generalizing k with
  | leaf => rfl
  | node _ _ x y ihx ihy => rw [leafDepths, List.map_append, ihx, ihy, leafSeqs]

/-- A leaf is no deeper than there are other leaves. -/
theorem depth_bounds_of_mem_leafDepths {k : Nat} {t : HuffTree} {p : Nat × Nat} (h : p ∈ leafDepths k t) :
    k ≤ p.2 ∧ p.2 < k + (leafSeqs t).length := by
  induction t generalizing k with
  | leaf => simp_all [leafDepths, leafSeqs]
  | node _ _ x y ihx ihy =>
    have hx := length_leafSeqs_pos x
    have hy := length_leafSeqs_pos y
    rw [leafSeqs, List.length_append]
    rcases List.mem_append.mp h with h | h
    · have := ihx h; omega
    · have := ihy h; omega

/-- The leaves under a node weigh what a code of the node's depth weighs. -/
theorem kraftSum_leafDepths {k : Nat} {t : HuffTree} (h : k + (leafSeqs t).length ≤ 256) :
    kraftSum ((leafDepths k t).map Prod.snd) = 2 ^ (255 - k) := by
  induction t generalizing k with
  | leaf => simp [leafDepths, kraftSum]
  | node _ _ x y ihx ihy =>
    have hx := length_leafSeqs_pos x
    have hy := length_leafSeqs_pos y
    rw [leafSeqs, List.length_append] at h
    have hhalf : 2 ^ (255 - k) = 2 ^ (255 - (k + 1)) + 2 ^ (255 - (k + 1)) := by
      rw [show 255 - k = 255 - (k + 1) + 1 by omega, pow_succ, Nat.mul_two]
    rw [leafDepths, List.map_append, kraftSum, List.map_append, List.sum_append, hhalf]
    exact congrArg₂ _ (ihx (by omega)) (ihy (by omega))

/-! ### The merge loop keeps the 256 leaves -/

/-- The forest after m merges, when n are still to come: trees with distinct sequence numbers, their leaves
the bytes. -/
structure MergeForest (n m : Nat) (forest : List HuffTree) : Prop where
  length_eq : forest.length = n + 1
  nodup_seqs : (forest.map treeSeq).Nodup
  seq_lt : ∀ t ∈ forest, treeSeq t < 256 + m
  leaves : (forest.flatMap leafSeqs).Perm (List.range 256)

theorem mergeForest_leafForest (S : List Byte) : MergeForest 255 0 (leafForest S) where
  length_eq := by simp [leafForest]
  nodup_seqs := by
    rw [leafForest, List.map_map, show treeSeq ∘ _ = id from rfl, List.map_id]
    exact List.nodup_range
  seq_lt t ht := by
    obtain ⟨b, hb, rfl⟩ := List.mem_map.mp ht
    exact List.mem_range.mp hb
  leaves := by
    rw [leafForest, List.flatMap_map]
    exact .of_eq (List.flatMap_pure_eq_map id _ |>.trans (List.map_id _))

/-- Two distinct trees of a forest, and the forest without them. -/
theorem perm_cons_cons_withoutPair {forest : List HuffTree} (hnodup : (forest.map treeSeq).Nodup)
    {x y : HuffTree} (hx : x ∈ forest) (hy : y ∈ forest) (hne : x ≠ y) :
    forest.Perm (x :: y :: withoutPair (x, y) forest) := by
  have hinj : ∀ {t u}, t ∈ forest → u ∈ forest → treeSeq t = treeSeq u → t = u := fun ht hu =>
    List.inj_on_of_nodup_map hnodup ht hu
  have hmem : ∀ t, t ∈ withoutPair (x, y) forest ↔ t ∈ forest ∧ treeSeq t ≠ treeSeq x ∧ treeSeq t ≠ treeSeq y := by
    simp [withoutPair, ← Bool.not_eq_true, Nat.beq_eq]
  refine (List.perm_ext_iff_of_nodup hnodup.of_map ?_).mpr fun t => ?_
  · simp only [List.nodup_cons, List.mem_cons, hmem]
    exact ⟨by simp [hne], by simp, hnodup.of_map.filter _⟩
  · simp only [List.mem_cons, hmem]
    constructor
    · intro ht
      by_cases htx : t = x
      · exact .inl htx
      · by_cases hty : t = y
        · exact .inr (.inl hty)
        · exact .inr (.inr ⟨ht, fun h => htx (hinj ht hx h), fun h => hty (hinj ht hy h)⟩)
    · rintro (rfl | rfl | ⟨ht, -⟩) <;> assumption

section
variable {tie : List HuffTree → HuffTree × HuffTree} (htie : LegalTie tie)
include htie

/-- A merge takes two trees out of the forest and puts their parent in. -/
theorem exists_perm_mergeOnce (m : Nat) {forest : List HuffTree} (hlength : 2 ≤ forest.length)
    (hnodup : (forest.map treeSeq).Nodup) :
    ∃ x y rest, forest.Perm (x :: y :: rest) ∧
      mergeOnce tie m forest = rest ++ [.node (256 + m) (treeWeight x + treeWeight y) x y] := by
  obtain ⟨hx, hy, hne, -, -⟩ := htie forest hlength hnodup
  exact ⟨_, _, _, perm_cons_cons_withoutPair hnodup hx hy hne, rfl⟩

theorem MergeForest.mergeOnce {n m : Nat} {forest : List HuffTree} (h : MergeForest (n + 1) m forest) :
    MergeForest n (m + 1) (mergeOnce tie m forest) := by
  obtain ⟨hlength, hnodup, hlt, hleaves⟩ := h
  obtain ⟨x, y, rest, hperm, hmerge⟩ := exists_perm_mergeOnce htie m (by omega) hnodup
  have hltRest : ∀ t ∈ rest, treeSeq t < 256 + m := fun t ht => hlt t (hperm.mem_iff.mpr (by simp [ht]))
  rw [hmerge]
  refine ⟨?length, ?nodup, fun t ht => ?lt, ?leaves⟩
  case length =>
    have := hperm.length_eq
    simp only [List.length_cons, List.length_append, List.length_nil] at this ⊢
    omega
  case nodup =>
    have hnodupRest : (rest.map treeSeq).Nodup :=
      (List.nodup_cons.mp (List.nodup_cons.mp ((hperm.map treeSeq).nodup_iff.mp hnodup)).2).2
    rw [List.map_append]
    refine hnodupRest.append (List.nodup_singleton _) fun seq hseq hnew => ?_
    obtain ⟨t, ht, rfl⟩ := List.mem_map.mp hseq
    exact (hltRest t ht).ne (List.mem_singleton.mp hnew)
  case lt =>
    rcases List.mem_append.mp ht with ht | ht
    · exact (hltRest t ht).trans (Nat.lt_succ_self _)
    · rw [List.mem_singleton.mp ht]
      exact Nat.lt_succ_self _
  case leaves =>
    refine .trans (.trans ?_ (hperm.flatMap_right leafSeqs).symm) hleaves
    simp only [List.flatMap_append, List.flatMap_cons, List.flatMap_nil, List.append_nil, leafSeqs]
    rw [← List.append_assoc (leafSeqs x)]
    exact List.perm_append_comm

theorem MergeForest.mergeLoop {n m : Nat} {forest : List HuffTree} (h : MergeForest n m forest) :
    MergeForest 0 (m + n) (mergeLoop tie n m forest) := by
  induction n generalizing m forest with
  | zero => exact h
  | succ n ih =>
    match forest, h with
    | [], h => exact absurd h.length_eq (by simp)
    | [_], h => exact absurd h.length_eq (by simp)
    | _ :: _ :: _, h =>
      rw [← Nat.add_assoc, Nat.add_right_comm]
      exact ih (h.mergeOnce htie)

/-- The loop leaves one tree, with every byte on one leaf. -/
theorem exists_tree_mergeLoop (S : List Byte) :
    ∃ t, mergeLoop tie 255 0 (leafForest S) = [t] ∧ (leafSeqs t).Perm (List.range 256) := by
  obtain ⟨hlength, -, -, hleaves⟩ := (mergeForest_leafForest S).mergeLoop htie
  obtain ⟨t, ht⟩ := List.length_eq_one_iff.mp hlength
  rw [ht, List.flatMap_singleton] at hleaves
  exact ⟨t, ht, hleaves⟩

end

/-! ### The lengths are the depths -/

theorem lookup_of_mem {l : List (Nat × Nat)} (hnodup : (l.map Prod.fst).Nodup) {p : Nat × Nat} (hp : p ∈ l) :
    l.lookup p.1 = some p.2 := by
  obtain ⟨front, rest, rfl⟩ := List.mem_iff_append.mp hp
  refine List.lookup_eq_some_iff.mpr ⟨front, rest, rfl, fun q hq => ?_⟩
  rw [List.map_append, List.map_cons] at hnodup
  have hne : q.1 ≠ p.1 := fun h =>
    List.disjoint_of_nodup_append hnodup (List.mem_map_of_mem hq) (h ▸ List.mem_cons_self)
  simpa using hne.symm

section
variable {tie : List HuffTree → HuffTree × HuffTree} (htie : LegalTie tie) (S : List Byte)
include htie

/-- The code lengths are the depths of the leaves of a tree with 256 leaves. -/
theorem exists_tree_huffLengths :
    ∃ t, (leafSeqs t).length = 256 ∧ (huffLengths tie S).Perm ((leafDepths 0 t).map Prod.snd) := by
  obtain ⟨t, ht, hleaves⟩ := exists_tree_mergeLoop htie S
  have hseqs : ((leafDepths 0 t).map Prod.fst).Perm (List.range 256) := by rwa [map_fst_leafDepths]
  have hlookup : ∀ p ∈ leafDepths 0 t, ((leafDepths 0 t).lookup p.1).getD 0 = p.2 := fun p hp => by
    rw [lookup_of_mem (hseqs.nodup_iff.mpr List.nodup_range) hp, Option.getD_some]
  refine ⟨t, by rw [hleaves.length_eq, List.length_range], ?_⟩
  rw [huffLengths, ht, List.flatMap_singleton]
  refine (hseqs.symm.map _).trans (.of_eq ?_)
  rw [List.map_map]
  exact List.map_congr_left hlookup

theorem huffLengths_bounds : ∀ l ∈ huffLengths tie S, 1 ≤ l ∧ l ≤ 255 := by
  intro l hl
  obtain ⟨t, ht, hperm⟩ := exists_tree_huffLengths htie S
  obtain ⟨p, hp, rfl⟩ := List.mem_map.mp (hperm.mem_iff.mp hl)
  cases t with
  | leaf => simp [leafSeqs] at ht
  | node seq weight x y =>
    have hdepth : 1 ≤ p.2 := by
      rcases List.mem_append.mp hp with hp | hp
      · exact (depth_bounds_of_mem_leafDepths hp).1
      · exact (depth_bounds_of_mem_leafDepths hp).1
    have := (depth_bounds_of_mem_leafDepths hp).2
    omega

theorem kraftSum_huffLengths : kraftSum (huffLengths tie S) = 2 ^ 255 := by
  obtain ⟨t, ht, hperm⟩ := exists_tree_huffLengths htie S
  calc kraftSum (huffLengths tie S) = kraftSum ((leafDepths 0 t).map Prod.snd) := (hperm.map _).sum_eq
    _ = 2 ^ 255 := kraftSum_leafDepths (by omega)

end
end Sys2Proof.Machine

/-! ## PUFF of HUFF's output gives the input back (43_huffman.md R722) -/

namespace Sys2Proof.Machine

/-! ### The decode walk reads codes one after the other -/

theorem exists_row_codeBitsOf {lens : List Nat} (hlen : lens.length = 256) (hpos : ∀ l ∈ lens, 1 ≤ l) (b : Byte) :
    ∃ row ∈ canonical lens, row.byte = b.toNat ∧ codeBitsOf (canonical lens) b = codeBits row.code row.len := by
  have hbyte : b.toNat ∈ (canonical lens).map CodeRow.byte :=
    (map_byte_canonical_perm hlen hpos).mem_iff.mpr (List.mem_range.mpr b.isLt)
  obtain ⟨row, hrow, heq⟩ := List.mem_map.mp hbyte
  cases hfind : (canonical lens).find? fun row => row.byte == b.toNat with
  | none => exact absurd heq (by simpa using List.find?_eq_none.mp hfind row hrow)
  | some row' =>
    exact ⟨row', List.mem_of_find?_eq_some hfind, by simpa using List.find?_some hfind, by rw [codeBitsOf, hfind]⟩

theorem codeAt_eq_none_iff {table : List CodeRow} {u : List Bool} :
    codeAt table u = none ↔ ∀ row ∈ table, codeBits row.code row.len ≠ u := by
  simp [codeAt]

section
variable {table : List CodeRow}
  (hprefix : ∀ row ∈ table, ∀ row' ∈ table, codeBits row.code row.len <+: codeBits row'.code row'.len → row = row')
include hprefix

theorem codeAt_codeBits {row : CodeRow} (hrow : row ∈ table) :
    codeAt table (codeBits row.code row.len) = some (BitVec.ofNat 8 row.byte) := by
  cases hfind : table.find? fun row' => codeBits row'.code row'.len == codeBits row.code row.len with
  | none => exact absurd BEq.rfl (List.find?_eq_none.mp hfind row hrow)
  | some row' =>
    have hbits : codeBits row'.code row'.len = codeBits row.code row.len := by simpa using List.find?_some hfind
    rw [codeAt, hfind, hprefix row' (List.mem_of_find?_eq_some hfind) row hrow (hbits ▸ List.prefix_refl _),
      Option.map_some]

/-- The walk down a code, from any node on the way, puts its byte out and starts again. -/
theorem decWalk_codeBits {row : CodeRow} (hrow : row ∈ table) {u bits : List Bool} (hne : bits ≠ [])
    (hbits : u ++ bits = codeBits row.code row.len) (rest : List Bool) :
    decWalk table u (bits ++ rest) =
      (BitVec.ofNat 8 row.byte :: (decWalk table [] rest).1, (decWalk table [] rest).2) := by
  induction bits generalizing u with
  | nil => exact absurd rfl hne
  | cons bit bits ih =>
    rw [List.append_cons] at hbits
    rw [List.cons_append, decWalk]
    cases bits with
    | nil =>
      rw [List.append_nil] at hbits
      rw [hbits, codeAt_codeBits hprefix hrow, List.nil_append]
    | cons bit' bits =>
      have hnone : codeAt table (u ++ [bit]) = none := codeAt_eq_none_iff.mpr fun row' hrow' heq => by
        have hsame := hprefix row' hrow' row hrow ⟨bit' :: bits, by rw [heq, hbits]⟩
        rw [hsame, ← hbits] at heq
        simpa using congrArg List.length heq
      rw [hnone]
      exact ih (List.cons_ne_nil _ _) hbits

end

/-- Along bits that begin with no code the walk puts nothing out. -/
theorem decWalk_eq_of_no_code {table : List CodeRow} {u bits : List Bool}
    (h : ∀ row ∈ table, ∀ v, v <+: bits → v ≠ [] → codeBits row.code row.len ≠ u ++ v) :
    decWalk table u bits = ([], u ++ bits) := by
  induction bits generalizing u with
  | nil => rw [decWalk, List.append_nil]
  | cons bit bits ih =>
    have hnone : codeAt table (u ++ [bit]) = none := codeAt_eq_none_iff.mpr fun row hrow =>
      h row hrow [bit] (by simp) (by simp)
    rw [decWalk, hnone, List.append_cons u bit bits]
    refine ih fun row hrow v hv _ => ?_
    rw [List.append_assoc]
    exact h row hrow (bit :: v) (List.cons_prefix_cons.mpr ⟨rfl, hv⟩) (List.cons_ne_nil _ _)

section
variable {lens : List Nat} (hlen : lens.length = 256) (hbounds : ∀ l ∈ lens, 1 ≤ l ∧ l ≤ 255)
  (hkraft : kraftSum lens = 2 ^ 255)
include hlen hbounds hkraft

/-- The walk of a bit string puts out the symbols it reads as. -/
theorem ReadsAs.decWalk_eq {bits rest : List Bool} {symbols : List Byte}
    (h : ReadsAs (canonical lens) bits symbols rest) : decWalk (canonical lens) [] bits = (symbols, rest) := by
  have hle : ∀ l ∈ lens, l ≤ 255 := fun l hl => (hbounds l hl).2
  obtain ⟨rfl, hrest⟩ := h
  induction symbols with
  | nil => exact decWalk_eq_of_no_code fun row hrow v hv _ heq => hrest row hrow (heq ▸ hv)
  | cons b symbols ih =>
    obtain ⟨row, hrow, hbyte, hcode⟩ := exists_row_codeBitsOf hlen (fun l hl => (hbounds l hl).1) b
    have hrowLen : 1 ≤ row.len :=
      (hbounds _ ((placedRow_of_mem_canonical hlen hle hkraft hrow).len_mem hlen)).1
    have hne : codeBits row.code row.len ≠ [] := List.ne_nil_of_length_pos (by rwa [length_codeBits])
    rw [List.flatMap_cons, List.append_assoc, hcode,
      decWalk_codeBits (fun _ h _ h' => canonical_prefix_free hlen hle hkraft h h') hrow hne (List.nil_append _), ih,
      hbyte, BitVec.ofNat_toNat, BitVec.setWidth_eq]

/-- At most seven zero bits begin with no code, so the padding reads as nothing. -/
theorem readsAs_padding (symbols : List Byte) {n : Nat} (hn : n ≤ 7) :
    ReadsAs (canonical lens) (symbols.flatMap (codeBitsOf (canonical lens)) ++ List.replicate n false) symbols
      (List.replicate n false) := by
  have hle : ∀ l ∈ lens, l ≤ 255 := fun l hl => (hbounds l hl).2
  refine ⟨rfl, fun row hrow hzeros => ?_⟩
  obtain ⟨hlength, hbits⟩ := List.prefix_replicate_iff.mp hzeros
  rw [length_codeBits] at hlength hbits
  have hvalue := congrArg bitsValue hbits
  rw [bitsValue_codeBits, Nat.mod_eq_of_lt (canonical_code_lt hlen hle hkraft.le row hrow),
    bitsValue_replicate_false] at hvalue
  rcases canonical_short_code_ne_zero hlen hle hkraft hrow with hlong | hne
  · omega
  · exact hne hvalue

end

/-! ### The decoding loop -/

theorem emitSymbols_of_length_le {symbols : List Byte} {room : Nat} (h : symbols.length ≤ room) :
    emitSymbols room (fun _ => .ok []) symbols = .ok symbols := by
  induction symbols generalizing room with
  | nil => rw [emitSymbols]
  | cons b symbols ih =>
    rw [List.length_cons] at h
    cases room with
    | zero => omega
    | succ room => rw [emitSymbols, ih (by omega)]; rfl

/-- Bits that read as some symbols and a rest are decoded to the symbols, and then the rest is checked. -/
theorem puffBits_of_readsAs {lens : List Nat} (hlen : lens.length = 256) (hbounds : ∀ l ∈ lens, 1 ≤ l ∧ l ≤ 255)
    (hkraft : kraftSum lens = 2 ^ 255) {bits rest : List Bool} {symbols : List Byte}
    (h : ReadsAs (canonical lens) bits symbols rest) (room : Nat) :
    puffBits (canonical lens) 0 0 room bits =
      emitSymbols room (fun _ => if isZeroNode rest then .ok [] else .err .puffBadPayload 0) symbols := by
  have hwalk := puffBits_append (canonical_code_lt hlen (fun l hl => (hbounds l hl).2) hkraft.le) [] room bits []
  rw [List.append_nil, h.decWalk_eq hlen hbounds hkraft] at hwalk
  refine hwalk.trans (congrArg (emitSymbols room · symbols) (funext fun room => ?_))
  rw [puffBits]
  simp only [isZeroNode_eq_true_iff, ite_not]

theorem isZeroNode_replicate_false {n : Nat} (h : n ≤ 7) : isZeroNode (List.replicate n false) = true := by
  simp [isZeroNode, h]

/-! ### The header -/

theorem map_toNat_headerBytes {lens : List Nat} (hle : ∀ l ∈ lens, l ≤ 255) :
    (headerBytes lens).map BitVec.toNat = lens := by
  rw [headerBytes, List.map_map]
  refine List.map_congr_left (fun l hl => ?_) |>.trans (List.map_id lens)
  exact (BitVec.toNat_ofNat ..).trans (Nat.mod_eq_of_lt (Nat.lt_succ_of_le (hle l hl)))

theorem puffF_headerBytes_append {lens : List Nat} (hlen : lens.length = 256) (hbounds : ∀ l ∈ lens, 1 ≤ l ∧ l ≤ 255)
    (hkraft : kraftSum lens = 2 ^ 255) (payload : List Byte) (cap : Nat) :
    puffF (headerBytes lens ++ payload) cap = puffBits (canonical lens) 0 0 cap (payloadBits payload) := by
  have hheader : (headerBytes lens).length = 256 := by rw [headerBytes, List.length_map, hlen]
  have hok : headerOk lens = true := by
    simp only [headerOk, Bool.and_eq_true, List.all_eq_true, bne_iff_ne, beq_iff_eq]
    exact ⟨fun l hl => Nat.one_le_iff_ne_zero.mp (hbounds l hl).1, hkraft⟩
  unfold puffF puffWith
  rw [if_neg (by simp [hheader]), List.take_left' hheader, List.drop_left' hheader,
    map_toNat_headerBytes fun l hl => (hbounds l hl).2]
  exact if_pos hok

/-- Settles O52: the header holds the lengths of a complete code, and the payload reads as the codes of the input and
at most seven zero bits. -/
theorem puffInvertsHuff : Obligations.PuffInvertsHuff := by
  unfold Obligations.PuffInvertsHuff
  intro tie S out c cap htie hhuff hcap
  obtain ⟨rfl, -⟩ := okWithin_eq_ok hhuff
  have hlen := length_huffLengths tie S
  have hbounds := huffLengths_bounds htie S
  have hkraft := kraftSum_huffLengths htie S
  rw [puffF_headerBytes_append hlen hbounds hkraft, payloadBits_packMsb]
  generalize hn : 8 * ((_ + 7) / 8) - _ = n
  have hn7 : n ≤ 7 := by omega
  rw [puffBits_of_readsAs hlen hbounds hkraft (readsAs_padding hlen hbounds hkraft S hn7),
    isZeroNode_replicate_false hn7]
  exact emitSymbols_of_length_le hcap

end Sys2Proof.Machine

/-! ## The arithmetic coder's model stays legal (44_arith.md R801, R806, R807) -/

namespace Sys2Proof.Machine

theorem legalModel_initFreq {c : Config} (h : CoderBounds c) : LegalModel c initFreq where
  symbols := length_initFreq
  positive f hf := (List.eq_of_mem_replicate hf).ge
  total := by have := h.room; rw [totalFreq_initFreq]; omega

/-- The other 256 frequencies are at least 1 each. -/
theorem LegalModel.le_ceiling_sub {c : Config} {freq : List Nat} (h : LegalModel c freq) {f : Nat} (hf : f ∈ freq) :
    f ≤ c.arithCeil - 256 := by
  have hothers : (freq.erase f).length ≤ (freq.erase f).sum :=
    List.length_le_sum_of_one_le _ fun g hg => h.positive g (List.mem_of_mem_erase hg)
  have hsum : freq.sum = f + (freq.erase f).sum := (List.perm_cons_erase hf).sum_eq
  have htotal : freq.sum ≤ c.arithCeil := h.total
  rw [List.length_erase_of_mem hf, h.symbols] at hothers
  omega

/-- Halving rounds each frequency up by at most a half. -/
theorem two_mul_sum_halved_le (freq : List Nat) :
    2 * (freq.map fun f => (f + 1) / 2).sum ≤ freq.sum + freq.length := by
  induction freq with
  | nil => simp
  | cons f freq ih => simp only [List.map_cons, List.sum_cons, List.length_cons]; omega

theorem LegalModel.sum_halved_le {c : Config} {freq : List Nat} (h : LegalModel c freq) :
    (freq.map fun f => (f + 1) / 2).sum ≤ (c.arithCeil + 257) / 2 := by
  have hhalved := two_mul_sum_halved_le freq
  have htotal : freq.sum ≤ c.arithCeil := h.total
  rw [h.symbols] at hhalved
  omega

theorem sum_set_getD_add {freq : List Nat} {x : Nat} (h : x < freq.length) (n : Nat) :
    (freq.set x (freq.getD x 0 + n)).sum = freq.sum + n := by
  induction freq generalizing x with
  | nil => cases h
  | cons f freq ih =>
    cases x with
    | zero => simp; omega
    | succ x =>
      have := ih (x := x) (by simpa using h)
      rw [List.set_cons_succ, List.getD_cons_succ, List.sum_cons, this, List.sum_cons, Nat.add_assoc]

/-- Adding to one frequency keeps a model legal when the total has room for it. -/
theorem legalModel_set_getD_add {c : Config} {freq : List Nat} (hsymbols : freq.length = 257)
    (hpositive : ∀ f ∈ freq, 1 ≤ f) {n : Nat} (hroom : freq.sum + n ≤ c.arithCeil) {x : Nat} (hx : x ≤ 256) :
    LegalModel c (freq.set x (freq.getD x 0 + n)) where
  symbols := by rw [List.length_set, hsymbols]
  positive f hf := by
    have hlt : x < freq.length := by omega
    rcases List.mem_or_eq_of_mem_set hf with hf | rfl
    · exact hpositive f hf
    · exact (hpositive _ (getD_mem_of_lt hlt)).trans (Nat.le_add_right _ _)
  total := by rw [totalFreq, sum_set_getD_add (by omega)]; exact hroom

/-- One halving leaves room for the increment. -/
theorem legalModel_updateFreq {c : Config} (hc : CoderBounds c) {freq : List Nat} (h : LegalModel c freq) {x : Nat}
    (hx : x ≤ 256) : LegalModel c (updateFreq c freq x) := by
  unfold updateFreq
  split
  · refine legalModel_set_getD_add (by rw [List.length_map, h.symbols]) (fun f hf => ?halvedPositive) ?room hx
    case halvedPositive =>
      obtain ⟨g, hg, rfl⟩ := List.mem_map.mp hf
      have := h.positive g hg
      omega
    case room =>
      have hhalved := h.sum_halved_le
      have hroom := hc.room
      omega
  · exact legalModel_set_getD_add h.symbols h.positive (by rw [totalFreq] at *; omega) hx

/-- Settles O54: the 257 frequencies of at least 1 bound each other, and halving rounds up by at most 257 halves. -/
theorem modelUpdateKeepsTheModelLegal : Obligations.ModelUpdateKeepsTheModelLegal := by
  unfold Obligations.ModelUpdateKeepsTheModelLegal
  intro c hlegal
  have hc := coderBounds hlegal
  exact ⟨legalModel_initFreq hc, fun freq h =>
    ⟨fun f hf => h.le_ceiling_sub hf, h.sum_halved_le, fun x hx => legalModel_updateFreq hc h hx⟩⟩

end Sys2Proof.Machine

/-! ## The coder interval stays wide (44_arith.md R811 to R813, R845) -/

namespace Sys2Proof.Machine

/-! ### Narrowing -/

section
variable {c : Config} {freq : List Nat} {x : Nat} {i : Interval}

/-- A symbol's frequency is at least 1 and the interval is at least as wide as the total, so its slice is nonempty. -/
theorem narrow_low_lt_high (hc : CoderBounds c) (hfreq : LegalModel c freq) (hx : x ≤ 256) (hi : WideInterval c i) :
    (narrow freq x i).low < (narrow freq x i).high := by
  have hlt : x < freq.length := by rw [hfreq.symbols]; omega
  have hone : 1 ≤ freq.getD x 0 := hfreq.positive _ (getD_mem_of_lt hlt)
  have hwide : totalFreq freq ≤ i.high - i.low := (hfreq.total.trans hc.ceiling).trans hi.wide.le
  have hpos : 0 < totalFreq freq := by
    have := cumFreq_le_total freq (x + 1)
    rw [cumFreq_succ hlt] at this
    omega
  have hslice : totalFreq freq ≤ (i.high - i.low) * freq.getD x 0 :=
    hwide.trans (Nat.le_mul_of_pos_right _ hone)
  have hstep := Nat.div_le_div_right (c := totalFreq freq)
    (Nat.add_le_add_left hslice ((i.high - i.low) * cumFreq freq x))
  rw [Nat.add_div_right _ hpos, ← Nat.mul_add, ← cumFreq_succ hlt] at hstep
  exact Nat.add_lt_add_left (Nat.lt_of_succ_le hstep) _

/-- A narrowed interval lies in the old one. -/
theorem low_le_narrow_low : i.low ≤ (narrow freq x i).low := Nat.le_add_right _ _

theorem narrow_high_le (h : i.low ≤ i.high) : (narrow freq x i).high ≤ i.high := by
  have : (i.high - i.low) * cumFreq freq (x + 1) / totalFreq freq ≤ i.high - i.low :=
    Nat.div_le_of_le_mul (by rw [Nat.mul_comm]; exact Nat.mul_le_mul_right _ (cumFreq_le_total freq _))
  change i.low + _ ≤ _
  omega

/-! ### Renormalisation -/

/-- A nonempty interval to which no scaling case applies is wide. -/
theorem wideInterval_of_scalingCase_eq_none (hc : CoderBounds c) (hnonempty : i.low < i.high)
    (hinside : i.high ≤ coderTop c) (h : scalingCase c i = none) : WideInterval c i where
  nonempty := hnonempty
  inside := hinside
  wide := by
    have hhalf := hc.half
    rw [scalingCase_eq_none] at h
    omega

/-- No scaling case applies to an interval as wide as [0, TOP). -/
theorem scalingCase_eq_none_of_top_le (hc : CoderBounds c) (hinside : i.high ≤ coderTop c)
    (h : coderTop c ≤ i.high - i.low) : scalingCase c i = none := by
  have htop := hc.top
  have hhalf := hc.half
  have hquarter : 0 < coderQuarter c := Nat.two_pow_pos _
  rw [scalingCase_eq_none]
  omega

/-- One pass keeps an interval inside [0, TOP]. -/
theorem scaleInterval_inside (hc : CoderBounds c) {k : Scaling} (hinside : i.high ≤ coderTop c)
    (h : scalingCase c i = some k) : (scaleInterval c k i).high ≤ coderTop c := by
  have htop := hc.top
  have hhalf := hc.half
  unfold scalingCase at h
  split at h
  · cases h; simp only [scaleInterval, scalingOffset]; omega
  · split at h
    · cases h; simp only [scaleInterval, scalingOffset]; omega
    · split at h
      · cases h; simp only [scaleInterval, scalingOffset]; omega
      · cases h

/-- One pass doubles the interval's width. -/
theorem scaleInterval_width {k : Scaling} (h : scalingCase c i = some k) :
    (scaleInterval c k i).high - (scaleInterval c k i).low = 2 * (i.high - i.low) := by
  have := scalingOffset_le h
  simp only [scaleInterval]
  omega

/-- Enough passes to double the width up to TOP leave a wide interval to which no case applies. -/
theorem encoderRenorm_wide (hc : CoderBounds c) (n : Nat) {e : Encoder} (hnonempty : e.interval.low < e.interval.high)
    (hinside : e.interval.high ≤ coderTop c) (hn : coderTop c ≤ 2 ^ n * (e.interval.high - e.interval.low)) :
    WideInterval c (encoderRenorm c n e).interval ∧ scalingCase c (encoderRenorm c n e).interval = none := by
  induction n generalizing e with
  | zero =>
    have hnone := scalingCase_eq_none_of_top_le hc hinside (by simpa using hn)
    exact ⟨wideInterval_of_scalingCase_eq_none hc hnonempty hinside hnone, hnone⟩
  | succ n ih =>
    rw [encoderRenorm]
    split
    next k hk =>
      have hwidth := scaleInterval_width hk
      refine ih (by rw [encoderPass_interval]; omega) (scaleInterval_inside hc hinside hk) ?_
      rw [encoderPass_interval, hwidth]
      rwa [pow_succ, Nat.mul_assoc] at hn
    next hnone => exact ⟨wideInterval_of_scalingCase_eq_none hc hnonempty hinside hnone, hnone⟩

/-- ARITH_W passes suffice after every narrowing. -/
theorem encodeSymbol_wide (hc : CoderBounds c) {e : Encoder} (hfreq : LegalModel c freq) (hx : x ≤ 256)
    (he : WideInterval c e.interval) :
    WideInterval c (encodeSymbol c freq x e).interval ∧ scalingCase c (encodeSymbol c freq x e).interval = none := by
  have hnonempty := narrow_low_lt_high hc hfreq hx he
  exact encoderRenorm_wide hc _ hnonempty ((narrow_high_le he.nonempty.le).trans he.inside)
    (Nat.le_mul_of_pos_right _ (Nat.sub_pos_of_lt hnonempty))

end

theorem wideInterval_fullInterval {c : Config} (hc : CoderBounds c) : WideInterval c (fullInterval c) := by
  have hquarter : 0 < coderQuarter c := Nat.two_pow_pos _
  have htop := hc.top
  refine ⟨?_, le_rfl, ?_⟩ <;> simp only [fullInterval] <;> omega

end Sys2Proof.Machine

/-! ## UNARITH follows ARITH (44_arith.md R800, R814, R815, R830 to R835, R841) -/

namespace Sys2Proof.Machine

/-! ### The bits the decoder reads -/

/-- The value of the n bits of a byte sequence from position k on, zeros past its end. -/
def bitsAhead (S : List Byte) (k : Nat) : Nat → Nat
  | 0 => 0
  | n + 1 => 2 * bitsAhead S k n + (bitAt S (k + n)).toNat

theorem bitsAhead_succ (S : List Byte) (k n : Nat) :
    bitsAhead S k (n + 1) = 2 * bitsAhead S k n + (bitAt S (k + n)).toNat := rfl

theorem bitsAhead_add (S : List Byte) (k m n : Nat) :
    bitsAhead S k (m + n) = bitsAhead S k m * 2 ^ n + bitsAhead S (k + m) n := by
  induction n with
  | zero => simp [bitsAhead]
  | succ n ih => rw [← Nat.add_assoc, bitsAhead_succ, bitsAhead_succ, ih, Nat.add_assoc k, pow_succ]; ring

theorem bitsAhead_lt (S : List Byte) (k n : Nat) : bitsAhead S k n < 2 ^ n := by
  induction n with
  | zero => simp [bitsAhead]
  | succ n ih =>
    have := Bool.toNat_le (bitAt S (k + n))
    rw [bitsAhead_succ, pow_succ]
    omega

/-- Where the bits of a byte sequence go on with u, their value is u's. -/
theorem bitsAhead_eq_bitsValue {S : List Byte} {l u : List Bool} (h : l ++ u <+: payloadBits S) :
    bitsAhead S l.length u.length = bitsValue u := by
  induction u using List.reverseRecOn with
  | nil => rfl
  | append_singleton u b ih =>
    rw [← List.append_assoc] at h
    have hbit : bitAt S (l.length + u.length) = b := by
      obtain ⟨rest, hrest⟩ := h
      rw [bitAt_eq, List.getD_eq_getElem?_getD, ← hrest]
      simp
    rw [List.length_append, List.length_singleton, bitsAhead_succ, hbit,
      ih ((List.prefix_append _ _).trans h), bitsValue_concat]

/-- `Emit`'s bits: b, then n bits of the other kind. -/
theorem bitsValue_cons_replicate_not (b : Bool) (n : Nat) :
    bitsValue (b :: List.replicate n (!b)) + 1 = 2 ^ n + b.toNat := by
  induction n with
  | zero => cases b <;> rfl
  | succ n ih =>
    rw [List.replicate_succ', ← List.cons_append, bitsValue_concat, pow_succ]
    cases b <;> simp only [Bool.not_false, Bool.not_true, Bool.toNat_false, Bool.toNat_true] at ih ⊢ <;> omega

/-- The bits of ARITH's output followed by any bytes begin with the bits packed. -/
theorem prefix_payloadBits_packMsb_append (bits : List Bool) (trailing : List Byte) :
    bits <+: payloadBits (packMsb bits ++ trailing) := by
  have : payloadBits (packMsb bits ++ trailing) = payloadBits (packMsb bits) ++ payloadBits trailing :=
    List.flatMap_append
  rw [this, payloadBits_packMsb, List.append_assoc]
  exact List.prefix_append _ _

/-- Bits brought in one by one spell the bits ahead. -/
theorem shiftInBits_eq (S : List Byte) (i : Interval) (m n : Nat) :
    shiftInBits S n ⟨i, bitsAhead S 0 m, m⟩ = ⟨i, bitsAhead S 0 (m + n), m + n⟩ := by
  induction n generalizing m with
  | zero => rfl
  | succ n ih =>
    have hbit : shiftInBit S ⟨i, bitsAhead S 0 m, m⟩ = ⟨i, bitsAhead S 0 (m + 1), m + 1⟩ := by
      simp [shiftInBit, bitsAhead_succ]
    rw [shiftInBits, hbit, ih, Nat.add_assoc, Nat.add_comm 1]

/-! ### The decoder that belongs to an encoder

With k bits out and p pending, the decoder has read ARITH_W + p bits from position k on. Each pending pass took a
quarter off V before it was doubled, so V is the value of these bits less HALF · (2 ^ p - 1). -/

/-- The value of the bits the decoder has read past the encoder's output. -/
def readAhead (c : Config) (S : List Byte) (e : Encoder) : Nat :=
  bitsAhead S e.bits.length (e.pend + c.arithW)

/-- The decoder's state where the encoder's is e. -/
def decoderOf (c : Config) (S : List Byte) (e : Encoder) : Decoder where
  interval := e.interval
  value := readAhead c S e + coderHalf c - coderHalf c * 2 ^ e.pend
  pos := e.bits.length + (e.pend + c.arithW)

/-- A byte sequence goes on as the encoder's state allows: it begins with the bits put out, and the V it gives lies in
the interval. -/
structure Continues (c : Config) (S : List Byte) (e : Encoder) : Prop where
  bits : e.bits <+: payloadBits S
  lower : e.interval.low + coderHalf c * 2 ^ e.pend ≤ readAhead c S e + coderHalf c
  upper : readAhead c S e + coderHalf c < e.interval.high + coderHalf c * 2 ^ e.pend

theorem Continues.holds {c : Config} {S : List Byte} {e : Encoder} (h : Continues c S e) :
    (decoderOf c S e).interval.Holds (decoderOf c S e).value := by
  have hlower := h.lower
  have hupper := h.upper
  simp only [decoderOf, Interval.Holds]
  omega

theorem initDecoder_eq_decoderOf (c : Config) (S : List Byte) :
    initDecoder c S = decoderOf c S (initEncoder c) := by
  have h := shiftInBits_eq S (fullInterval c) 0 c.arithW
  simp only [bitsAhead] at h
  rw [initDecoder, h]
  simp [decoderOf, initEncoder, readAhead]

/-! ### One pass of both loops -/

section
variable {c : Config} {S : List Byte} {e : Encoder} {k : Scaling}

theorem bits_prefix_encoderPass (c : Config) (k : Scaling) (e : Encoder) : e.bits <+: (encoderPass c k e).bits := by
  cases k
  · exact List.prefix_append _ _
  · exact List.prefix_append _ _
  · exact List.prefix_refl _

/-- Every pass puts one more bit out or makes one more pending. -/
theorem length_bits_add_pend_encoderPass (c : Config) (k : Scaling) (e : Encoder) :
    (encoderPass c k e).bits.length + (encoderPass c k e).pend = e.bits.length + e.pend + 1 := by
  cases k
  · simp [encoderPass, scaleOutput, Nat.add_assoc]
  · simp [encoderPass, scaleOutput, Nat.add_assoc]
  · rfl

/-- An emission of b settles the pending bits: the bits read ahead, with one more, are those emitted and the bits read
ahead after it. -/
theorem readAhead_emitBit (hc : CoderBounds c) (b : Bool) (h : (emitBit b e).bits <+: payloadBits S) :
    2 * readAhead c S e + (bitAt S (decoderOf c S e).pos).toNat + 2 * coderHalf c =
      (2 ^ e.pend + b.toNat) * (2 * coderHalf c) + readAhead c S (emitBit b e) := by
  have hemitted := bitsAhead_eq_bitsValue h
  have hvalue := bitsValue_cons_replicate_not b e.pend
  have hsplit := bitsAhead_add S e.bits.length (e.pend + 1) c.arithW
  have htop : 2 ^ c.arithW = 2 * coderHalf c := by rw [← coderTop, hc.top, hc.half]; omega
  rw [List.length_cons, List.length_replicate] at hemitted
  rw [hemitted, htop, Nat.add_right_comm, bitsAhead_succ] at hsplit
  have hafter : readAhead c S (emitBit b e) = bitsAhead S (e.bits.length + (e.pend + 1)) c.arithW := by
    simp [readAhead]
  rw [hafter, ← hvalue, readAhead, decoderOf, hsplit]
  ring

/-- What a pass does to the bits read ahead. -/
theorem readAhead_encoderPass (hc : CoderBounds c) (h : (encoderPass c k e).bits <+: payloadBits S) :
    readAhead c S (encoderPass c k e) + 2 * scalingOffset c k + 2 * (coderHalf c * 2 ^ e.pend) =
      2 * readAhead c S e + (bitAt S (decoderOf c S e).pos).toNat + coderHalf c +
        coderHalf c * 2 ^ (encoderPass c k e).pend := by
  cases k with
  | e1 =>
    have hemit := readAhead_emitBit hc false h
    change readAhead c S (emitBit false e) + 2 * 0 + _ = _ + coderHalf c * 2 ^ 0
    rw [Bool.toNat_false] at hemit
    linarith
  | e2 =>
    have hemit := readAhead_emitBit hc true h
    change readAhead c S (emitBit true e) + 2 * coderHalf c + _ = _ + coderHalf c * 2 ^ 0
    rw [Bool.toNat_true] at hemit
    linarith
  | e3 =>
    have hhalf := hc.half
    have hnext : readAhead c S (encoderPass c .e3 e) =
        2 * readAhead c S e + (bitAt S (decoderOf c S e).pos).toNat := by
      rw [readAhead, readAhead, decoderOf, ← bitsAhead_succ, ← Nat.add_right_comm]
      rfl
    change _ + 2 * coderQuarter c + _ = _ + coderHalf c * 2 ^ (e.pend + 1)
    rw [hnext, pow_succ]
    linarith

/-- A sequence that goes on as the state after a pass allows did so before it. -/
theorem Continues.of_encoderPass (hc : CoderBounds c) (hk : scalingCase c e.interval = some k)
    (h : Continues c S (encoderPass c k e)) : Continues c S e := by
  obtain ⟨hbits, hlower, hupper⟩ := h
  have hread := readAhead_encoderPass hc hbits
  have hoffset := scalingOffset_le hk
  have hbit := Bool.toNat_le (bitAt S (decoderOf c S e).pos)
  simp only [encoderPass_interval, scaleInterval] at hlower hupper
  exact ⟨(bits_prefix_encoderPass c k e).trans hbits, by omega, by omega⟩

/-- The decoder's pass goes to the state that belongs to the encoder's pass. -/
theorem decoderPass_decoderOf (hc : CoderBounds c) (hk : scalingCase c e.interval = some k)
    (h : Continues c S (encoderPass c k e)) :
    decoderPass c S k (decoderOf c S e) = decoderOf c S (encoderPass c k e) := by
  have hread := readAhead_encoderPass hc h.bits
  have hoffset := scalingOffset_le hk
  have hlower := (h.of_encoderPass hc hk).lower
  have hvalue : 2 * (readAhead c S e + coderHalf c - coderHalf c * 2 ^ e.pend - scalingOffset c k) +
      (bitAt S (decoderOf c S e).pos).toNat =
        readAhead c S (encoderPass c k e) + coderHalf c - coderHalf c * 2 ^ (encoderPass c k e).pend := by
    omega
  have hpos : (decoderOf c S e).pos + 1 = (decoderOf c S (encoderPass c k e)).pos := by
    have := length_bits_add_pend_encoderPass c k e
    simp only [decoderOf]
    omega
  exact congrArg₂ (Decoder.mk (scaleInterval c k e.interval)) hvalue hpos

/-! ### The loops -/

theorem Continues.of_encoderRenorm (hc : CoderBounds c) (n : Nat) (h : Continues c S (encoderRenorm c n e)) :
    Continues c S e := by
  induction n generalizing e with
  | zero => exact h
  | succ n ih =>
    rw [encoderRenorm] at h
    split at h
    next k hk => exact (ih h).of_encoderPass hc hk
    next => exact h

theorem decoderRenorm_decoderOf (hc : CoderBounds c) (n : Nat) (h : Continues c S (encoderRenorm c n e)) :
    decoderRenorm c S n (decoderOf c S e) = decoderOf c S (encoderRenorm c n e) := by
  induction n generalizing e with
  | zero => rfl
  | succ n ih =>
    have hinterval : (decoderOf c S e).interval = e.interval := rfl
    rw [encoderRenorm] at h ⊢
    rw [decoderRenorm, hinterval]
    cases hk : scalingCase c e.interval with
    | none => rfl
    | some k =>
      simp only [hk] at h ⊢
      rw [decoderPass_decoderOf hc hk (h.of_encoderRenorm hc), ih h]

/-! ### One symbol -/

variable {freq : List Nat} {x : Nat}

/-- What continues the narrowed interval continues the old one, which holds it. -/
theorem Continues.of_narrow (h : Continues c S { e with interval := narrow freq x e.interval }) : Continues c S e := by
  obtain ⟨hbits, hlower, hupper⟩ := h
  have hle : (narrow freq x e.interval).high ≤ e.interval.high := by
    refine narrow_high_le (Nat.le_of_lt (Nat.lt_of_not_le fun hempty => ?_))
    simp only [narrow, Nat.sub_eq_zero_of_le hempty, Nat.zero_mul, Nat.zero_div] at hlower hupper
    exact absurd (hlower.trans_lt hupper) (lt_irrefl _)
  have hlow : e.interval.low ≤ (narrow freq x e.interval).low := low_le_narrow_low
  exact ⟨hbits, (Nat.add_le_add_right hlow _).trans hlower, hupper.trans_le (Nat.add_le_add_right hle _)⟩

theorem Continues.of_encodeSymbol (hc : CoderBounds c) (h : Continues c S (encodeSymbol c freq x e)) :
    Continues c S e :=
  Continues.of_narrow (h.of_encoderRenorm hc)

theorem Continues.of_encodeSymbols (hc : CoderBounds c) {xs : List Nat}
    (h : Continues c S (encodeSymbols c freq e xs)) : Continues c S e := by
  induction xs generalizing freq e with
  | nil => exact h
  | cons x xs ih => exact (ih h).of_encodeSymbol hc

end

/-! ### The symbol search -/

theorem cumFreq_add_getElem {freq : List Nat} {x : Nat} (h : x < freq.length) :
    cumFreq freq x + freq[x] = cumFreq freq (x + 1) := by
  rw [cumFreq_succ h, List.getD_eq_getElem _ _ h]

/-- The scan stops at symbol x when V is below the upper bound of x's slice and not below that of an earlier symbol. -/
theorem findSymbolFrom_eq {V low rng tot : Nat} {freq : List Nat} {x : Nat} (hx : x < freq.length)
    (hlower : low + rng * cumFreq freq x / tot ≤ V) (hupper : V < low + rng * cumFreq freq (x + 1) / tot) {y : Nat}
    (hy : y ≤ x) : findSymbolFrom V low rng tot y (cumFreq freq y) (freq.drop y) = x := by
  induction hy using Nat.decreasingInduction with
  | self => rw [List.drop_eq_getElem_cons hx, findSymbolFrom, cumFreq_add_getElem hx, if_pos hupper]
  | of_succ y hy ih =>
    have hylen : y < freq.length := hy.trans hx
    have hslice : rng * cumFreq freq (y + 1) / tot ≤ rng * cumFreq freq x / tot :=
      Nat.div_le_div_right (Nat.mul_le_mul_left _ (cumFreq_mono freq hy))
    rw [List.drop_eq_getElem_cons hylen, findSymbolFrom, cumFreq_add_getElem hylen, if_neg (by omega)]
    exact ih

/-- The search finds the symbol whose slice holds V (44_arith.md R833). -/
theorem findSymbol_eq {freq : List Nat} {d : Decoder} {x : Nat} (hx : x < freq.length)
    (h : (narrow freq x d.interval).Holds d.value) : findSymbol freq d = x := by
  obtain ⟨hlower, hupper⟩ := h
  have hscan := findSymbolFrom_eq hx hlower hupper (Nat.zero_le x)
  rwa [cumFreq_zero, List.drop_zero] at hscan

/-- The decoder reads back the symbol, and goes to the state that belongs to the encoder's next. -/
theorem findSymbol_decoderOf {c : Config} {S : List Byte} {e : Encoder} {freq : List Nat} {x : Nat}
    (hc : CoderBounds c) (hx : x < freq.length) (h : Continues c S (encodeSymbol c freq x e)) :
    findSymbol freq (decoderOf c S e) = x :=
  findSymbol_eq hx (h.of_encoderRenorm hc).holds

/-! ### The flush -/

/-- The flush fixes the two leading bits of V: 01 below a quarter, 10 above; the rest is below a quarter. -/
theorem readAhead_of_flushEncoder {c : Config} {S : List Byte} {e : Encoder} (hc : CoderBounds c)
    (h : (flushEncoder c e).bits <+: payloadBits S) :
    ∃ rest < coderQuarter c, readAhead c S e + coderHalf c =
      coderHalf c * 2 ^ e.pend + (if e.interval.low < coderQuarter c then coderQuarter c else coderHalf c) + rest := by
  generalize hb : (!decide (e.interval.low < coderQuarter c)) = b
  have hbits : e.bits ++ b :: List.replicate (e.pend + 1) (!b) <+: payloadBits S := hb ▸ h
  have hemitted := bitsAhead_eq_bitsValue hbits
  have hvalue := bitsValue_cons_replicate_not b (e.pend + 1)
  have hsplit := bitsAhead_add S e.bits.length (e.pend + 2) (c.arithW - 2)
  have hwidth : e.pend + 2 + (c.arithW - 2) = e.pend + c.arithW := by have := hc.width; omega
  rw [List.length_cons, List.length_replicate] at hemitted
  rw [hwidth, hemitted, ← coderQuarter, ← readAhead] at hsplit
  refine ⟨bitsAhead S (e.bits.length + (e.pend + 2)) (c.arithW - 2), bitsAhead_lt _ _ _, ?_⟩
  have hchoice : (if e.interval.low < coderQuarter c then coderQuarter c else coderHalf c) =
      (1 + b.toNat) * coderQuarter c := by
    have hhalf := hc.half
    subst hb
    split <;> simp [*]
  have hscaled := congrArg (· * coderQuarter c) hvalue
  rw [hchoice, hsplit, hc.half]
  simp only [pow_succ] at hscaled
  linarith

/-- After the flush every sequence that begins with the bits put out goes on as the state before the flush allows. -/
theorem continues_of_flushEncoder {c : Config} {S : List Byte} {e : Encoder} (hc : CoderBounds c)
    (hnone : scalingCase c e.interval = none) (h : (flushEncoder c e).bits <+: payloadBits S) : Continues c S e := by
  have hhalf := hc.half
  obtain ⟨rest, hrest, hread⟩ := readAhead_of_flushEncoder hc h
  obtain ⟨hhigh, hlow, hquarter⟩ := scalingCase_eq_none.mp hnone
  have hprefix : e.bits <+: payloadBits S := (List.prefix_append _ _).trans h
  split at hread
  · exact ⟨hprefix, by omega, by omega⟩
  · exact ⟨hprefix, by omega, by omega⟩

/-! ### The whole stream -/

theorem decodeSymbols_eos {c : Config} {S : List Byte} {room : Nat} {freq : List Nat} {d : Decoder}
    (h : findSymbol freq d = 256) : decodeSymbols c S room freq d = .ok [] := by
  cases room <;> rw [decodeSymbols, if_pos h]

theorem decodeSymbols_byte {c : Config} {S : List Byte} {room : Nat} {freq : List Nat} {d : Decoder} {b : Byte}
    (h : findSymbol freq d = b.toNat) :
    decodeSymbols c S (room + 1) freq d =
      consResult b (decodeSymbols c S room (updateFreq c freq b.toNat)
        (decoderRenorm c S c.arithW { d with interval := narrow freq b.toNat d.interval })) := by
  have hne : b.toNat ≠ 256 := b.isLt.ne
  rw [decodeSymbols]
  simp only [h, if_neg hne, BitVec.ofNat_toNat, BitVec.setWidth_eq]

/-- The decoder that belongs to an encoder decodes the bytes the encoder still has before EOS. -/
theorem decodeSymbols_decoderOf {c : Config} {S : List Byte} (hc : CoderBounds c) {bytes : List Byte} {room : Nat}
    {freq : List Nat} {e : Encoder} (hfreq : freq.length = 257) (hroom : bytes.length ≤ room)
    (h : Continues c S (encodeSymbols c freq e (bytes.map BitVec.toNat ++ [256]))) :
    decodeSymbols c S room freq (decoderOf c S e) = .ok bytes := by
  induction bytes generalizing room freq e with
  | nil => exact decodeSymbols_eos (findSymbol_decoderOf hc (by omega) h)
  | cons b bytes ih =>
    obtain ⟨room, rfl⟩ : ∃ r, room = r + 1 := Nat.exists_eq_add_one.mpr (by simp at hroom; omega)
    rw [List.map_cons, List.cons_append, encodeSymbols] at h
    have hsymbol := h.of_encodeSymbols hc
    have hnext : decoderRenorm c S c.arithW
        { decoderOf c S e with interval := narrow freq b.toNat (decoderOf c S e).interval } =
          decoderOf c S (encodeSymbol c freq b.toNat e) := decoderRenorm_decoderOf hc _ hsymbol
    have hb : b.toNat < freq.length := by have := b.isLt; omega
    rw [decodeSymbols_byte (findSymbol_decoderOf hc hb hsymbol), hnext,
      ih (by rw [length_updateFreq, hfreq]) (by simpa using hroom) h]
    rfl

/-- Coding symbols leaves a wide interval to which no scaling case applies. -/
theorem encodeSymbols_wide {c : Config} (hc : CoderBounds c) {freq : List Nat} (hfreq : LegalModel c freq) {e : Encoder}
    (he : WideInterval c e.interval) {xs : List Nat} (hne : xs ≠ []) (hxs : ∀ x ∈ xs, x ≤ 256) :
    WideInterval c (encodeSymbols c freq e xs).interval ∧
      scalingCase c (encodeSymbols c freq e xs).interval = none := by
  induction xs generalizing freq e with
  | nil => exact absurd rfl hne
  | cons x xs ih =>
    have hx := hxs x (by simp)
    obtain ⟨hnext, hnone⟩ := encodeSymbol_wide hc hfreq hx he
    rw [encodeSymbols]
    cases xs with
    | nil => exact ⟨hnext, hnone⟩
    | cons y ys =>
      exact ih (legalModel_updateFreq hc hfreq hx) hnext (by simp) fun z hz => hxs z (List.mem_cons_of_mem _ hz)

theorem le_256_of_mem_symbols {S : List Byte} {x : Nat} (h : x ∈ S.map BitVec.toNat ++ [256]) : x ≤ 256 := by
  rcases List.mem_append.mp h with h | h
  · obtain ⟨b, -, rfl⟩ := List.mem_map.mp h
    exact b.isLt.le
  · exact (List.mem_singleton.mp h).le

/-- Settles O59: whatever follows the flushed bits, V stays in the encoder's interval, so that the decoder's state is
always the one that belongs to the encoder's. -/
theorem unarithInvertsArith : Obligations.UnarithInvertsArith := by
  unfold Obligations.UnarithInvertsArith
  intro c S out trailing cap cap' hlegal harith hcap
  have hc := coderBounds hlegal
  obtain ⟨rfl, -⟩ := okWithin_eq_ok harith
  obtain ⟨-, hnone⟩ := encodeSymbols_wide hc (legalModel_initFreq hc) (e := initEncoder c)
    (wideInterval_fullInterval hc) (by simp) fun x => le_256_of_mem_symbols (S := S)
  have hcontinues := continues_of_flushEncoder hc hnone
    (prefix_payloadBits_packMsb_append (arithBits c S) trailing)
  rw [unarithF, initDecoder_eq_decoderOf]
  exact decodeSymbols_decoderOf hc length_initFreq hcap hcontinues

end Sys2Proof.Machine

/-! ## The interrupt line (60_exceptions.md R910, R911) -/

namespace Sys2Proof.Machine

/-! ### The line after each operation -/

@[simp] theorem complete_irq (r : Result) (s : State) : (complete r s).irq = s.ie := by simp [State.irq]

@[simp] theorem softReset_irq (s : State) : (softReset s).irq = false := rfl

@[simp] theorem issue_irq (w : Word) (s : State) : (issue w s).irq = false := rfl

@[simp] theorem clearFlags_irq (doneClr overrunClr : Bool) (s : State) :
    (clearFlags doneClr overrunClr s).irq = (s.irq && !doneClr) :=
  Bool.and_right_comm s.done (!doneClr) s.ie

@[simp] theorem writeBuffer_irq (k : Nat) (v : Word) (s : State) : (writeBuffer k v s).irq = s.irq := by
  unfold writeBuffer
  split
  · rfl
  · split <;> rfl

@[simp] theorem hostLoad_irq (addr : Nat) (s : State) : (hostLoad addr s).irq = s.irq := by
  unfold hostLoad
  split <;> rfl

/-! ### The line after each step -/

/-- The next event is one of R911's host accesses that lower the line whatever IE is: the acknowledge of DONE, an issue,
the soft reset and the hardware reset. -/
def State.lowersIrqNext (s : State) : Prop :=
  (∃ (u : State) (v : Word), s = u.withWrite 3 v ∧ v.getLsbD 1 = true) ∨
  (s.phase = .idle ∧ ∃ (u : State) (v : Word), s = u.withWrite 2 v) ∨
  (∃ (u : State) (v : Word), s = u.withWrite 1 v ∧ v.getLsbD 1 = true) ∨
  ∃ u : State, s = u.withAccess .reset

/-- The next event is a CTRL write of IE without SRST. -/
def State.enableNext (s : State) (ie : Bool) : Prop :=
  ∃ (u : State) (v : Word), s = u.withWrite 1 v ∧ v.getLsbD 1 = false ∧ v.getLsbD 0 = ie

/-- What a host access can do to the line: lower it, set it to DONE and the IE it writes, or leave it. -/
theorem HostEffect.irq_cases {u t : State} {a : HostAccess} (h : HostEffect u a t) :
    ((u.withAccess a).lowersIrqNext ∧ t.irq = false) ∨
    (∃ ie, (u.withAccess a).enableNext ie ∧ t.irq = (u.done && ie)) ∨
    t.irq = u.irq := by
  cases h with
  | softReset v hv => exact .inl ⟨.inr (.inr (.inl ⟨u, v, rfl, hv⟩)), softReset_irq u⟩
  | reset => exact .inl ⟨.inr (.inr (.inr ⟨u, rfl⟩)), softReset_irq u⟩
  | enable v hv => exact .inr (.inl ⟨_, ⟨u, v, rfl, hv, rfl⟩, rfl⟩)
  | command v =>
    cases hphase : u.phase with
    | idle =>
      rw [writeCmd_of_idle hphase]
      exact .inl ⟨.inr (.inl ⟨hphase, u, v, rfl⟩), issue_irq v u⟩
    | busy =>
      rw [writeCmd_of_busy hphase]
      exact .inr (.inr rfl)
  | acknowledge v =>
    cases hv : v.getLsbD 1 with
    | true => exact .inl ⟨.inl ⟨u, v, rfl, hv⟩, by simp⟩
    | false => exact .inr (.inr (by simp))
  | regRead k hk => exact .inr (.inr rfl)
  | buffer k v hk => exact .inr (.inr (writeBuffer_irq k v u))
  | memRead addr haddr => exact .inr (.inr (hostLoad_irq addr u))
  | memWrite addr v haddr => exact .inr (.inr rfl)

/-- What a step can do to the line: a completion sets it to IE, a host access does what `HostEffect.irq_cases` says, and
the engine's turn while IDLE leaves it. -/
theorem step_irq_cases {s t : State} (h : step s = .next t) :
    (s.phase = .busy ∧ s.engineNext ∧ t.irq = s.ie) ∨
    (s.lowersIrqNext ∧ t.irq = false) ∨
    (∃ ie, s.enableNext ie ∧ t.irq = (s.done && ie)) ∨
    t.irq = s.irq := by
  obtain ⟨-, ⟨hengine, hbusy, rest, r, rfl, -⟩ | ⟨-, -, rest, rfl⟩ | ⟨a, u, rfl, heffect⟩⟩ := step_cases h
  · exact .inl ⟨hbusy, hengine, complete_irq _ _⟩
  · exact .inr (.inr (.inr rfl))
  · exact .inr heffect.irq_cases

theorem irq_rises {s t : State} (h : step s = .next t) (hlow : s.irq = false) (hhigh : t.irq = true) :
    (s.phase = .busy ∧ s.engineNext ∧ s.ie = true) ∨ (s.done = true ∧ s.enableNext true) := by
  rcases step_irq_cases h with ⟨hbusy, hengine, ht⟩ | ⟨-, ht⟩ | ⟨ie, henable, ht⟩ | ht <;> rw [hhigh] at ht
  · exact .inl ⟨hbusy, hengine, ht.symm⟩
  · cases ht
  · obtain ⟨hdone, rfl⟩ := Bool.and_eq_true_iff.mp ht.symm
    exact .inr ⟨hdone, henable⟩
  · rw [hlow] at ht; cases ht

theorem irq_falls {s t : State} (h : step s = .next t) (hhigh : s.irq = true) (hlow : t.irq = false) :
    s.lowersIrqNext ∨ s.enableNext false := by
  obtain ⟨hdone, hie⟩ := Bool.and_eq_true_iff.mp hhigh
  rcases step_irq_cases h with ⟨-, -, ht⟩ | ⟨hlowers, -⟩ | ⟨ie, henable, ht⟩ | ht
  · rw [hlow, hie] at ht; cases ht
  · exact .inl hlowers
  · rw [hlow, hdone, Bool.true_and] at ht
    subst ht
    exact .inr henable
  · rw [hlow, hhigh] at ht; cases ht

theorem irq_of_completion {s t : State} (h : step s = .next t) (hbusy : s.phase = .busy) (hengine : s.engineNext) :
    t.irq = s.ie := by
  obtain ⟨-, ⟨-, -, rest, r, rfl, -⟩ | ⟨-, hidle, -⟩ | ⟨a, u, rfl, -⟩⟩ := step_cases h
  · exact complete_irq _ _
  · rw [hbusy] at hidle; cases hidle
  · exact absurd hengine (not_engineNext_withAccess u a)

/-- Settles O11: each listed event by the operation it runs, the converse by the list of what a step can do to the
line. -/
theorem interruptLineChangesOnlyAsListed : Obligations.InterruptLineChangesOnlyAsListed := by
  unfold Obligations.InterruptLineChangesOnlyAsListed
  intro s t h
  have hlegal : s.cfg.legal = true := (step_next h).1
  refine ⟨irq_of_completion h, ?ctrlWrite, ?softReset, ?hardwareReset, ?acknowledge, ?issue, ?rises, ?falls⟩
  case ctrlWrite =>
    rintro u v rfl hv
    rw [step_withWrite_ctrl (s := u) hlegal, exec_decodeCtrl_of_srst_eq_false hv] at h
    cases h; rfl
  case softReset =>
    rintro u v rfl hv
    rw [step_withWrite_ctrl (s := u) hlegal, exec_decodeCtrl_of_srst hv] at h
    cases h; exact softReset_irq u
  case hardwareReset =>
    rintro u rfl
    rw [step_withAccess (s := u) hlegal] at h
    cases h; exact softReset_irq u
  case acknowledge =>
    rintro u v rfl hv
    rw [step_withWrite_status (s := u) hlegal, decodeStatus, exec_statusW1c] at h
    cases h; simp [hv]
  case issue =>
    rintro u v rfl hidle
    rw [step_withWrite_cmd (s := u) hlegal, writeCmd_of_idle (s := u) hidle] at h
    cases h; exact issue_irq v u
  case rises =>
    intro hlow hhigh
    rcases irq_rises h hlow hhigh with hcompletion | ⟨hdone, u, v, hs, hsrst, hie⟩
    · exact .inl hcompletion
    · exact .inr ⟨hdone, u, v, hs, hie, hsrst⟩
  case falls =>
    intro hhigh hlow
    rcases irq_falls h hhigh hlow with (hack | hissue | ⟨u, v, hs, hsrst⟩ | hreset) | ⟨u, v, hs, -, hie⟩
    · exact .inl hack
    · exact .inr (.inl hissue)
    · exact .inr (.inr (.inl ⟨u, v, hs, .inr hsrst⟩))
    · exact .inr (.inr (.inr hreset))
    · exact .inr (.inr (.inl ⟨u, v, hs, .inl hie⟩))

end Sys2Proof.Machine

/-! ## Soft reset and hardware reset (70_reset_and_hazards.md R1000, R1001) -/

namespace Sys2Proof.Machine

theorem softReset_of_idle {s : State} (h : s.phase = .idle) : softReset s = resetRegisters s := by
  simp [softReset, busy_of_phase_idle h]

theorem softReset_of_busy {s : State} (h : s.phase = .busy) : softReset s = resetRegisters (drawDstWindow s) := by
  simp [softReset, busy_of_phase_busy h]

/-- Every register is at its reset value after a reset; the schedule and the read result stay (R1000). -/
theorem softReset_registers (s : State) :
    softReset s =
      { State.resetWith s.cfg with
        mem := (softReset s).mem, schedule := s.schedule, hostData := s.hostData, draws := (softReset s).draws } := by
  cases h : s.phase with
  | idle => rw [softReset_of_idle h]; rfl
  | busy => rw [softReset_of_busy h]; rfl

/-- A reset changes no byte of host memory outside a discarded command's DST window (R1000). -/
theorem readByte_softReset_of_frame {s : State} {a : Nat} (h : inDstWindow s a = false ∨ s.phase = .idle) :
    readByte (softReset s).mem a = readByte s.mem a := by
  cases hphase : s.phase with
  | idle => rw [softReset_of_idle hphase, resetRegisters_mem]
  | busy =>
    have houtside : inDstWindow s a = false := h.resolve_right (by simp [hphase])
    rw [softReset_of_busy hphase, resetRegisters_mem, drawDstWindow_mem]
    exact readByte_memDraw_outside (outside_of_not_inDstWindow houtside)

theorem hostAccess_reset (s : State) : hostAccess .reset s = .next (softReset s) := rfl

/-- Settles O15: both events run `softReset`, whose two cases are the phases it may find. -/
theorem softResetEqualsHardwareReset : Obligations.SoftResetEqualsHardwareReset := by
  unfold Obligations.SoftResetEqualsHardwareReset
  intro s v hlegal hsrst
  refine ⟨softReset s, ?soft, ?hardware, softReset_registers s, fun a => readByte_softReset_of_frame⟩
  case soft => rw [step_withWrite_ctrl hlegal, exec_decodeCtrl_of_srst hsrst]
  case hardware => rw [step_withAccess hlegal, hostAccess_reset]

end Sys2Proof.Machine

/-! ## Encoding and decoding are inverse (30_encoding.md sections 1 and 3) -/

namespace Sys2Proof

/-! ### The fields of a word laid out most significant first -/

theorem bit_getLsbD (w : Word) (i : Nat) : bit (w.getLsbD i) = w.extractLsb' i 1 := by
  apply BitVec.eq_of_getLsbD_eq
  intro j hj
  simp [bit, show j = 0 by omega]

/-- A bit laid out last is bit 0, and the bits of what stands before it follow. -/
theorem getLsbD_zero_append_bit {n : Nat} (x : BitVec n) (b : Bool) : (x ++ bit b).getLsbD 0 = b := by
  rw [BitVec.getLsbD_append]
  cases b <;> rfl

theorem getLsbD_succ_append_bit {n : Nat} (x : BitVec n) (b : Bool) (i : Nat) :
    (x ++ bit b).getLsbD (i + 1) = x.getLsbD i := by
  rw [BitVec.getLsbD_append, if_neg (by omega), Nat.add_sub_cancel]

theorem extractLsb'_append_bit {n : Nat} (x : BitVec n) (b : Bool) (start len : Nat) :
    (x ++ bit b).extractLsb' (start + 1) len = x.extractLsb' start len :=
  BitVec.extractLsb'_append_eq_of_le (Nat.le_add_left 1 start)

/-! ### Decoding an encoded instruction -/

theorem extractLsb'_encode_illegal (op : BitVec 4) (path : BitVec 2) (rsv : BitVec 26) :
    (encode (.illegal op path rsv)).extractLsb' 0 4 = op ∧ (encode (.illegal op path rsv)).extractLsb' 4 2 = path ∧
    (encode (.illegal op path rsv)).extractLsb' 6 26 = rsv :=
  ⟨BitVec.extractLsb'_append_eq_right,
    (BitVec.extractLsb'_append_eq_of_le (by decide)).trans BitVec.extractLsb'_append_eq_right,
    (BitVec.extractLsb'_append_eq_of_le (by decide)).trans BitVec.extractLsb'_append_eq_left⟩

theorem decodeCmd_encode_illegal {op : BitVec 4} {path : BitVec 2} {rsv : BitVec 26}
    (h : legalFields op path rsv = false) :
    decodeCmd (encode (.illegal op path rsv)) = .illegal op path rsv := by
  obtain ⟨hop, hpath, hrsv⟩ := extractLsb'_encode_illegal op path rsv
  have hillegal : legal (encode (.illegal op path rsv)) = false := by rw [legal_eq_legalFields, hop, hpath, hrsv, h]
  rw [decodeCmd_of_legal_eq_false hillegal, hop, hpath, hrsv]

theorem decodeCtrl_encode (ie srst : Bool) (ignored : BitVec 30) :
    decodeCtrl (encode (.ctrlWrite ie srst ignored)) = .ctrlWrite ie srst ignored := by
  have hie : (encode (.ctrlWrite ie srst ignored)).getLsbD 0 = ie := getLsbD_zero_append_bit _ _
  have hsrst : (encode (.ctrlWrite ie srst ignored)).getLsbD 1 = srst :=
    (getLsbD_succ_append_bit _ _ 0).trans (getLsbD_zero_append_bit _ _)
  have hignored : (encode (.ctrlWrite ie srst ignored)).extractLsb' 2 30 = ignored :=
    (extractLsb'_append_bit _ _ 1 30).trans BitVec.extractLsb'_append_eq_left
  rw [decodeCtrl, hie, hsrst, hignored]

theorem decodeStatus_encode (doneClr overrunClr ignored0 ignored2 : Bool) (ignored : BitVec 28) :
    decodeStatus (encode (.statusW1c doneClr overrunClr ignored0 ignored2 ignored)) =
      .statusW1c doneClr overrunClr ignored0 ignored2 ignored := by
  generalize hw : encode (.statusW1c doneClr overrunClr ignored0 ignored2 ignored) = w
  have hbit0 : w.getLsbD 0 = ignored0 := hw ▸ getLsbD_zero_append_bit _ _
  have hbit1 : w.getLsbD 1 = doneClr := hw ▸ (getLsbD_succ_append_bit _ _ 0).trans (getLsbD_zero_append_bit _ _)
  have hbit2 : w.getLsbD 2 = ignored2 :=
    hw ▸ (getLsbD_succ_append_bit _ _ 1).trans ((getLsbD_succ_append_bit _ _ 0).trans (getLsbD_zero_append_bit _ _))
  have hbit3 : w.getLsbD 3 = overrunClr :=
    hw ▸ (getLsbD_succ_append_bit _ _ 2).trans ((getLsbD_succ_append_bit _ _ 1).trans
      ((getLsbD_succ_append_bit _ _ 0).trans (getLsbD_zero_append_bit _ _)))
  have hrest : w.extractLsb' 4 28 = ignored :=
    hw ▸ (extractLsb'_append_bit _ _ 3 28).trans ((extractLsb'_append_bit _ _ 2 28).trans
      ((extractLsb'_append_bit _ _ 1 28).trans BitVec.extractLsb'_append_eq_left))
  rw [decodeStatus, hbit0, hbit1, hbit2, hbit3, hrest]

/-! ### Each port decodes at its own offset -/

theorem decodeAt_offset (p : Port) (w : Word) : decodeAt p.offset w = .ok (decodePort p w) := by
  cases p <;> rfl

theorem decodePort_encode {i : Instr} (h : i.wf = true) : decodePort i.port (encode i) = i := by
  cases i with
  | illegal op path rsv => exact decodeCmd_encode_illegal (by simpa [Instr.wf] using h)
  | ctrlWrite ie srst ignored => exact decodeCtrl_encode ie srst ignored
  | statusW1c doneClr overrunClr ignored0 ignored2 ignored => exact decodeStatus_encode ..
  | nop | bwt | unbwt | huff | huffBit | huffFsm | puff | puffBit | puffFsm | arith | unarith => rfl

/-- Settles O1: each instruction's port decodes its word, the fixed rows by the table and the others field by field. -/
theorem decodeOfEncodeIsTheInstruction : Obligations.DecodeOfEncodeIsTheInstruction := by
  unfold Obligations.DecodeOfEncodeIsTheInstruction
  intro i hwf
  rw [decodeAt_offset, decodePort_encode hwf]

/-! ### Encoding a decoded word -/

theorem opcodeRows_encode : ∀ row ∈ opcodeRows, encode row.2 = row.1 ∧ row.2.port = .cmd ∧ row.2.wf = true := by
  decide

theorem encode_decodeCmd (w : Word) :
    encode (decodeCmd w) = w ∧ (decodeCmd w).port = .cmd ∧ (decodeCmd w).wf = true := by
  cases hlegal : legal w with
  | true =>
    obtain ⟨⟨_, i⟩, hrow, rfl⟩ := List.mem_map.mp (legal_iff_mem_opcodeRows.mp hlegal)
    rw [decodeCmd_of_mem_opcodeRows hrow]
    exact opcodeRows_encode _ hrow
  | false =>
    rw [decodeCmd_of_legal_eq_false hlegal]
    refine ⟨rsv_append_path_append_op w, rfl, ?_⟩
    rw [Instr.wf, ← legal_eq_legalFields, hlegal, Bool.not_false]

theorem encode_decodeCtrl (v : Word) : encode (decodeCtrl v) = v := by
  rw [decodeCtrl, encode, bit_getLsbD, bit_getLsbD, BitVec.extractLsb'_append_extractLsb'_eq_extractLsb' (by rfl),
    BitVec.extractLsb'_append_extractLsb'_eq_extractLsb' (by rfl), BitVec.extractLsb'_eq_self]

theorem encode_decodeStatus (v : Word) : encode (decodeStatus v) = v := by
  rw [decodeStatus, encode, bit_getLsbD, bit_getLsbD, bit_getLsbD, bit_getLsbD,
    BitVec.extractLsb'_append_extractLsb'_eq_extractLsb' (by rfl),
    BitVec.extractLsb'_append_extractLsb'_eq_extractLsb' (by rfl),
    BitVec.extractLsb'_append_extractLsb'_eq_extractLsb' (by rfl),
    BitVec.extractLsb'_append_extractLsb'_eq_extractLsb' (by rfl), BitVec.extractLsb'_eq_self]

/-- Settles O2: the fields an instruction keeps are consecutive slices of its word. -/
theorem encodeOfDecodeIsTheWord : Obligations.EncodeOfDecodeIsTheWord := by
  unfold Obligations.EncodeOfDecodeIsTheWord
  intro p w
  cases p with
  | cmd => exact encode_decodeCmd w
  | ctrl => exact ⟨encode_decodeCtrl w, rfl, rfl⟩
  | status => exact ⟨encode_decodeStatus w, rfl, rfl⟩

/-- Settles O4: each command word by its row or, breaking R304, as ILLEGAL; the two control words by their bits. -/
theorem writtenOutWordsDecode : Obligations.WrittenOutWordsDecode := by
  unfold Obligations.WrittenOutWordsDecode
  refine ⟨?nop, ?bwt, ?huffFsm, ?puffBit, ?unarith, ?illegal, ?ctrl, ?status⟩
  case nop | bwt | huffFsm | puffBit | unarith => exact decodeCmd_of_mem_opcodeRows (by decide)
  case illegal => exact decodeCmd_of_legal_eq_false (by decide)
  case ctrl | status => decide

end Sys2Proof

/-! ## What a step does to the phase and to a running command (10_state.md R140, R141, 20_memory.md R265) -/

namespace Sys2Proof.Machine

/-- The running command, its operands and its result registers are the same in both states (R265). -/
def KeepsCommand (s t : State) : Prop :=
  t.latch = s.latch ∧ t.cmd = s.cmd ∧ t.srcAddr = s.srcAddr ∧ t.srcLen = s.srcLen ∧ t.dstAddr = s.dstAddr ∧
  t.dstCap = s.dstCap ∧ t.resultLen = s.resultLen ∧ t.errInfo = s.errInfo ∧ t.err = s.err ∧ t.errCode = s.errCode

theorem keepsCommand_hostLoad (addr : Nat) (s : State) :
    KeepsCommand s (hostLoad addr s) ∧ (hostLoad addr s).phase = s.phase := by
  unfold hostLoad
  split
  · exact ⟨⟨rfl, rfl, rfl, rfl, rfl, rfl, rfl, rfl, rfl, rfl⟩, rfl⟩
  · exact ⟨⟨rfl, rfl, rfl, rfl, rfl, rfl, rfl, rfl, rfl, rfl⟩, rfl⟩

theorem writeBuffer_phase (k : Nat) (v : Word) (s : State) : (writeBuffer k v s).phase = s.phase := by
  unfold writeBuffer
  split
  · rfl
  · split <;> rfl

/-- The next event is a reset: the hardware reset or a CTRL write with SRST. -/
def State.resetNext (s : State) : Prop :=
  (∃ u : State, s = u.withAccess .reset) ∨ ∃ (u : State) (v : Word), s = u.withWrite 1 v ∧ v.getLsbD 1 = true

/-- While BUSY a host access resets, or the command goes on running unchanged. -/
theorem HostEffect.busy_cases {u t : State} {a : HostAccess} (h : HostEffect u a t) (hbusy : u.phase = .busy) :
    ((u.withAccess a).resetNext ∧ t.phase = .idle) ∨ (KeepsCommand u t ∧ t.phase = .busy) := by
  have hkeeps : KeepsCommand u u := ⟨rfl, rfl, rfl, rfl, rfl, rfl, rfl, rfl, rfl, rfl⟩
  cases h with
  | softReset v hv => exact .inl ⟨.inr ⟨u, v, rfl, hv⟩, rfl⟩
  | reset => exact .inl ⟨.inl ⟨u, rfl⟩, rfl⟩
  | command v => rw [writeCmd_of_busy hbusy]; exact .inr ⟨hkeeps, hbusy⟩
  | buffer k v hk => rw [writeBuffer_of_busy hbusy]; exact .inr ⟨hkeeps, hbusy⟩
  | memRead addr haddr =>
    obtain ⟨hload, hphase⟩ := keepsCommand_hostLoad addr u
    exact .inr ⟨hload, hphase.trans hbusy⟩
  | regRead | enable | acknowledge | memWrite => exact .inr ⟨hkeeps, hbusy⟩

/-- While IDLE a host access issues a command or leaves the sequencer idle. -/
theorem HostEffect.idle_cases {u t : State} {a : HostAccess} (h : HostEffect u a t) (hidle : u.phase = .idle) :
    (∃ w, u.withAccess a = u.withWrite 2 w ∧ t = issue w u) ∨ t.phase = .idle := by
  cases h with
  | command v => exact .inl ⟨v, rfl, writeCmd_of_idle hidle v⟩
  | softReset | reset => exact .inr rfl
  | buffer k v hk => exact .inr ((writeBuffer_phase k v u).trans hidle)
  | memRead addr haddr => exact .inr ((keepsCommand_hostLoad addr u).2.trans hidle)
  | regRead | enable | acknowledge | memWrite => exact .inr hidle

/-- A step from BUSY completes, resets, or leaves the command running unchanged. -/
theorem step_busy_cases {s t : State} (h : step s = .next t) (hbusy : s.phase = .busy) :
    (s.engineNext ∧ t.phase = .idle) ∨ (s.resetNext ∧ t.phase = .idle) ∨ (KeepsCommand s t ∧ t.phase = .busy) := by
  obtain ⟨-, ⟨hengine, -, rest, r, rfl, -⟩ | ⟨-, hidle, -⟩ | ⟨a, u, rfl, heffect⟩⟩ := step_cases h
  · exact .inl ⟨hengine, complete_phase _ _⟩
  · rw [hbusy] at hidle; cases hidle
  · exact .inr (heffect.busy_cases hbusy)

/-- A step from IDLE issues a command or leaves the sequencer idle. -/
theorem step_idle_cases {s t : State} (h : step s = .next t) (hidle : s.phase = .idle) :
    (∃ (w : Word) (u : State), s = u.withWrite 2 w ∧ t = issue w u) ∨ t.phase = .idle := by
  obtain ⟨-, ⟨-, hbusy, -⟩ | ⟨-, -, rest, rfl⟩ | ⟨a, u, rfl, heffect⟩⟩ := step_cases h
  · rw [hidle] at hbusy; cases hbusy
  · exact .inr hidle
  · rcases heffect.idle_cases hidle with ⟨w, hs, ht⟩ | ht
    · exact .inl ⟨w, u, hs, ht⟩
    · exact .inr ht

/-- Settles O9: the list of what a step can do in either phase. -/
theorem phaseChangesOnlyByIssueCompletionAndReset : Obligations.PhaseChangesOnlyByIssueCompletionAndReset := by
  unfold Obligations.PhaseChangesOnlyByIssueCompletionAndReset
  intro s t h
  refine ⟨fun hidle hbusy => ?issue, fun hbusy hidle => ?idleAgain⟩
  case issue =>
    rcases step_idle_cases h hidle with ⟨w, u, hs, rfl⟩ | ht
    · exact ⟨w, u, hs, rfl, rfl⟩
    · rw [hbusy] at ht; cases ht
  case idleAgain =>
    rcases step_busy_cases h hbusy with ⟨hengine, -⟩ | ⟨hreset, -⟩ | ⟨-, ht⟩
    · exact .inl hengine
    · exact .inr hreset
    · rw [hidle] at ht; cases ht

/-- Settles O10: completions and resets leave BUSY, and every other step keeps the command. -/
theorem runningCommandCannotBeChanged : Obligations.RunningCommandCannotBeChanged := by
  unfold Obligations.RunningCommandCannotBeChanged
  intro s t h hbusy hbusy'
  rcases step_busy_cases h hbusy with ⟨-, ht⟩ | ⟨-, ht⟩ | ⟨hkeeps, -⟩
  · rw [hbusy'] at ht; cases ht
  · rw [hbusy'] at ht; cases ht
  · exact hkeeps

end Sys2Proof.Machine

/-! ## Every step keeps the invariant (10_state.md R114, R141, 20_memory.md R200, 40_sequencer.md R420, R421) -/

namespace Sys2Proof.Machine

/-! ### Canonical memory inside MEM_SIZE -/

/-- Canonical memory below an address. -/
abbrev Memory.Within (m : Memory) (n : Nat) : Prop := Memory.wf m ∧ ∀ c ∈ m, c.1 < n

theorem Memory.Within.writeByte {m : Memory} {n a : Nat} (h : Memory.Within m n) (ha : a < n) (v : Byte) :
    Memory.Within (writeByte m a v) n := by
  obtain ⟨hwf, hinside⟩ := h
  refine ⟨writeByte_wf hwf a v, fun c hc => ?_⟩
  rcases mem_writeByte hc with hc | rfl
  · exact hinside c hc
  · exact ha

theorem Memory.Within.memWrite {m : Memory} {n a : Nat} {v : List Byte} (h : Memory.Within m n)
    (ha : v = [] ∨ a + v.length ≤ n) : Memory.Within (memWrite m a v) n := by
  obtain ⟨hwf, hinside⟩ := h
  refine ⟨memWrite_wf hwf a v, fun c hc => ?_⟩
  rcases mem_memWrite hc with hc | ⟨hlow, hhigh⟩
  · exact hinside c hc
  · rcases ha with rfl | ha
    · rw [List.length_nil] at hhigh; omega
    · omega

/-- A draw of the DST window is clipped to host memory (log 8). -/
theorem Memory.Within.drawDstWindow {s : State} (h : Memory.Within s.mem s.cfg.memSize) :
    Memory.Within (drawDstWindow s).mem s.cfg.memSize := by
  obtain ⟨hwf, hinside⟩ := h
  refine ⟨memDraw_wf hwf _ _ _, fun c hc => ?_⟩
  rcases mem_memDraw hc with hc | ⟨hlow, hhigh⟩
  · exact hinside c hc
  · rw [dstWindowBytes] at hhigh
    omega

/-- What each completion does to memory: it stores the output, draws the DST window, or leaves it. -/
theorem complete_mem_cases (r : Result) (s : State) :
    (∃ out, r = .ok out ∧ (complete r s).mem = memWrite s.mem s.latch.dstAddr.toNat out) ∨
    (complete r s).mem = (drawDstWindow s).mem ∨ (complete r s).mem = s.mem := by
  cases htouched : s.touched with
  | true => rw [complete_raced htouched]; exact .inr (.inl rfl)
  | false =>
    cases r with
    | ok out => rw [complete_ok htouched]; exact .inl ⟨out, rfl, rfl⟩
    | err code info =>
      rw [complete_err htouched, completeErr]
      cases touchesNoMemory code with
      | true => exact .inr (.inr rfl)
      | false => exact .inr (.inl rfl)

/-- A command's output is empty or fits a DST window inside host memory (R410, R411). -/
theorem commandResult_inside {s : State} {i : Instr} {out : List Byte} (h : commandResult s i = some (.ok out)) :
    out = [] ∨ s.latch.dstAddr.toNat + out.length ≤ s.cfg.memSize := by
  rcases commandResult_cases h with ⟨-, hr⟩ | ⟨-, hr⟩ | ⟨f, hf, hr⟩
  · cases hr; exact .inl rfl
  · cases hr
  · right
    have hfits : out.length ≤ s.latch.dstCap.toNat := commandFunction_le hf (dataResult_eq_ok hr.symm)
    cases hw : windowError s with
    | none =>
      obtain ⟨-, hdst, -⟩ := windowError_eq_none.mp hw
      rw [dstOutside, decide_eq_false_iff_not] at hdst
      omega
    | some e => rw [dataResult_of_some hw] at hr; cases hr

theorem exists_commandResult {i : Instr} (h : i.port = .cmd) (s : State) : ∃ r, commandResult s i = some r := by
  cases i with
  | ctrlWrite _ _ _ => cases h
  | statusW1c _ _ _ _ _ => cases h
  | _ => exact ⟨_, rfl⟩

theorem Memory.Within.complete {s : State} (h : Memory.Within s.mem s.cfg.memSize) {i : Instr} {r : Result}
    (hr : commandResult s i = some r) : Memory.Within (complete r s).mem s.cfg.memSize := by
  rcases complete_mem_cases r s with ⟨out, rfl, hmem⟩ | hmem | hmem <;> rw [hmem]
  · exact h.memWrite (commandResult_inside hr)
  · exact h.drawDstWindow
  · exact h

theorem HostEffect.memory {u t : State} {a : HostAccess} (heffect : HostEffect u a t)
    (h : Memory.Within u.mem u.cfg.memSize) : Memory.Within t.mem u.cfg.memSize := by
  have hreset : Memory.Within (Machine.softReset u).mem u.cfg.memSize := by
    cases hphase : u.phase with
    | idle => rw [softReset_of_idle hphase]; exact h
    | busy => rw [softReset_of_busy hphase]; exact h.drawDstWindow
  cases heffect with
  | softReset => exact hreset
  | reset => exact hreset
  | memWrite addr v haddr => exact h.writeByte haddr v
  | command v => unfold writeCmd; split <;> exact h
  | buffer k v hk =>
    unfold writeBuffer
    split
    · exact h
    · split <;> exact h
  | memRead addr haddr => unfold hostLoad; split <;> exact h
  | regRead | enable | acknowledge => exact h

theorem HostEffect.cfg_eq {u t : State} {a : HostAccess} (h : HostEffect u a t) : t.cfg = u.cfg := by
  cases h with
  | softReset | reset => unfold Machine.softReset; split <;> rfl
  | command v => unfold writeCmd; split <;> rfl
  | buffer k v hk =>
    unfold writeBuffer
    split
    · rfl
    · split <;> rfl
  | memRead addr haddr => unfold hostLoad; split <;> rfl
  | regRead | enable | acknowledge | memWrite => rfl

/-! ### Legal STATUS -/

theorem errCodeByte_ne_zero (code : ErrCode) : errCodeByte code ≠ 0 := by
  cases code <;> decide

/-- Outside BUSY, ERR and ERRCODE show no error or a named one. -/
theorem legalStatus_of_idle {t : State} (hidle : t.phase = .idle) (e : Option ErrCode) (herr : t.err = e.isSome)
    (hcode : t.errCode = (e.map errCodeByte).getD 0) : t.LegalStatus := by
  have hphase : t.phase ≠ .busy := by rw [hidle]; exact Phase.noConfusion
  cases e with
  | none => exact ⟨fun h => absurd h hphase, by simp [herr], by simp [hcode], by simp [hcode]⟩
  | some code =>
    have hcode : t.errCode = errCodeByte code := hcode
    exact ⟨fun h => absurd h hphase, fun _ => hcode ▸ errCodeByte_ne_zero code, by simp [herr], .inr ⟨code, hcode⟩⟩

theorem legalStatus_complete (r : Result) (s : State) : (complete r s).LegalStatus := by
  cases htouched : s.touched with
  | true =>
    rw [complete_raced htouched]
    exact legalStatus_of_idle rfl (racedError s.draws) rfl rfl
  | false =>
    cases r with
    | ok out => rw [complete_ok htouched]; exact legalStatus_of_idle rfl none rfl rfl
    | err code info => rw [complete_err htouched]; exact legalStatus_of_idle rfl (some code) rfl rfl

theorem State.LegalStatus.of_eq {s t : State} (h : s.LegalStatus) (hphase : t.phase = s.phase)
    (hdone : t.done = true → s.done = true) (herr : t.err = s.err) (hcode : t.errCode = s.errCode) :
    t.LegalStatus := by
  obtain ⟨hbusy, hsome, hnone, hnamed⟩ := h
  refine ⟨fun hb => ?whileBusy, by rwa [herr, hcode], by rwa [herr, hcode], by rwa [hcode]⟩
  case whileBusy =>
    obtain ⟨hd, he, hc⟩ := hbusy (hphase ▸ hb)
    exact ⟨by simpa [hd] using hdone, herr.trans he, hcode.trans hc⟩

theorem HostEffect.legalStatus {u t : State} {a : HostAccess} (heffect : HostEffect u a t) (h : u.LegalStatus) :
    t.LegalStatus := by
  cases heffect with
  | softReset | reset => exact legalStatus_of_idle rfl none rfl rfl
  | command v =>
    cases hphase : u.phase with
    | idle => rw [writeCmd_of_idle hphase]; exact ⟨fun _ => ⟨rfl, rfl, rfl⟩, by simp, by simp, .inl rfl⟩
    | busy => rw [writeCmd_of_busy hphase]; exact h.of_eq rfl id rfl rfl
  | acknowledge v => exact h.of_eq rfl (fun hd => (Bool.and_eq_true_iff.mp hd).1) rfl rfl
  | buffer k v hk =>
    unfold writeBuffer
    split
    · exact h
    · split <;> exact h.of_eq rfl id rfl rfl
  | memRead addr haddr => unfold hostLoad; split <;> exact h.of_eq rfl id rfl rfl
  | regRead | enable | memWrite => exact h.of_eq rfl id rfl rfl

/-! ### Latched operands -/

theorem latchedOperands_of_idle {t : State} (h : t.phase = .idle) : t.LatchedOperands := by
  constructor <;> intro hbusy <;> rw [h] at hbusy <;> cases hbusy

theorem KeepsCommand.latchedOperands {s t : State} (h : KeepsCommand s t) (hbusy : s.phase = .busy)
    (hs : s.LatchedOperands) : t.LatchedOperands := by
  obtain ⟨hlatch, hcmd, hsrcAddr, hsrcLen, hdstAddr, hdstCap, hlen, hinfo, -, -⟩ := h
  constructor
  · intro _
    rw [hlatch, hcmd, hsrcAddr, hsrcLen, hdstAddr, hdstCap, hs.latches hbusy]
  · intro _
    rw [hlen, hinfo]
    exact hs.noResultYet hbusy

theorem step_latchedOperands {s t : State} (h : step s = .next t) (hs : s.LatchedOperands) : t.LatchedOperands := by
  cases hphase : s.phase with
  | idle =>
    rcases step_idle_cases h hphase with ⟨w, u, -, rfl⟩ | ht
    · exact ⟨fun _ => rfl, fun _ => ⟨rfl, rfl⟩⟩
    · exact latchedOperands_of_idle ht
  | busy =>
    rcases step_busy_cases h hphase with ⟨-, ht⟩ | ⟨-, ht⟩ | ⟨hkeeps, -⟩
    · exact latchedOperands_of_idle ht
    · exact latchedOperands_of_idle ht
    · exact hkeeps.latchedOperands hphase hs

/-! ### The step -/

theorem step_memory_and_status {s t : State} (h : step s = .next t) (hmem : Memory.Within s.mem s.cfg.memSize)
    (hstatus : s.LegalStatus) : Memory.Within t.mem t.cfg.memSize ∧ t.LegalStatus := by
  obtain ⟨-, ⟨-, -, rest, -, -, hexec⟩ | ⟨-, -, rest, rfl⟩ | ⟨a, u, rfl, heffect⟩⟩ := step_cases h
  · obtain ⟨r, hr⟩ := exists_commandResult (decodeCmd_port s.latch.cmd) { s with schedule := rest }
    rw [exec_of_commandResult hr] at hexec
    cases hexec
    rw [complete_cfg]
    exact ⟨Memory.Within.complete (s := { s with schedule := rest }) hmem hr, legalStatus_complete _ _⟩
  · exact ⟨hmem, hstatus.of_eq rfl id rfl rfl⟩
  · rw [heffect.cfg_eq]
    exact ⟨heffect.memory hmem, heffect.legalStatus (hstatus.of_eq rfl id rfl rfl)⟩

/-- Settles O7: outputs fit the checked windows and draws are clipped, so memory stays inside; a completion shows no
error or a named one; and a command that goes on running keeps its operands. -/
theorem everyStepKeepsTheInvariant : Obligations.EveryStepKeepsTheInvariant := by
  unfold Obligations.EveryStepKeepsTheInvariant
  intro s t ⟨hwf, hinside, hstatus, hoperands⟩ h
  obtain ⟨⟨hwf', hinside'⟩, hstatus'⟩ := step_memory_and_status h ⟨hwf, hinside⟩ hstatus
  exact ⟨hwf', hinside', hstatus', step_latchedOperands h hoperands⟩

/-! ### Reset meets the invariant, and a running command completes -/

/-- Settles O6: no byte is listed, no error shows and no command runs. -/
theorem resetStateMeetsTheInvariant : Obligations.ResetStateMeetsTheInvariant := by
  unfold Obligations.ResetStateMeetsTheInvariant
  intro c
  exact ⟨⟨.nil, nofun⟩, nofun, legalStatus_of_idle rfl none rfl rfl, latchedOperands_of_idle rfl⟩

theorem engineTurn_of_busy {s : State} (h : s.phase = .busy) : engineTurn s = exec (decodeCmd s.latch.cmd) s := by
  simp only [engineTurn, h]

/-- A step at which the engine moves while a command runs is the command's meaning, once the event is taken off. -/
theorem step_engineNext {s : State} (hlegal : s.cfg.legal = true) (hbusy : s.phase = .busy) (h : s.engineNext) :
    ∃ rest, step s = exec (decodeCmd s.latch.cmd) { s with schedule := rest } := by
  rcases h with hnil | ⟨rest, hrest⟩
  · exact ⟨[], by rw [step_nil hlegal hnil, engineTurn_of_busy hbusy, ← hnil]⟩
  · exact ⟨rest, (step_engine hlegal hrest).trans (engineTurn_of_busy hbusy)⟩

/-- Settles O8: the engine's turn is a command's meaning, which answers a completion. -/
theorem runningCommandCompletesWhenTheEngineMoves : Obligations.RunningCommandCompletesWhenTheEngineMoves := by
  unfold Obligations.RunningCommandCompletesWhenTheEngineMoves
  intro s hlegal hbusy hengine
  obtain ⟨rest, hstep⟩ := step_engineNext hlegal hbusy hengine
  obtain ⟨r, hexec⟩ := exec_command (decodeCmd_port s.latch.cmd) { s with schedule := rest }
  exact ⟨_, hstep.trans hexec, complete_phase r _, complete_done r _⟩

/-- Settles O5: the engine's turn by its phase, a write by its port, and the placed word by the issue it makes. -/
theorem stepRunsTheDecodedInstruction : Obligations.StepRunsTheDecodedInstruction := by
  unfold Obligations.StepRunsTheDecodedInstruction
  intro s hlegal
  refine ⟨fun hbusy hnil => ?scheduleOver, fun hbusy rest hrest => ?engineTurn, step_withWrite_ctrl hlegal,
    step_withWrite_status hlegal, fun nbits w => ?placedWord⟩
  case scheduleOver => exact (step_nil hlegal hnil).trans (engineTurn_of_busy hbusy)
  case engineTurn => exact (step_engine hlegal hrest).trans (engineTurn_of_busy hbusy)
  case placedWord => exact step_engine (s := s.withFetchWord nbits w) hlegal rfl

end Sys2Proof.Machine

/-! ## Configuration, reset values and register fields (00_scope.md R20, R21, 10_state.md section 1) -/

namespace Sys2Proof.Machine

theorem legal_config_iff {c : Config} :
    c.legal = true ↔ 11 ≤ c.arithW ∧ c.arithW ≤ 32 ∧ 1 ≤ c.arithInc ∧ 257 + 2 * c.arithInc ≤ c.arithCeil ∧
      c.arithCeil ≤ 2 ^ (c.arithW - 2) ∧ 1 ≤ c.memSize ∧ c.memSize ≤ 2 ^ 32 ∧ c.engineBase % 256 = 0 ∧
      c.memSize ≤ c.engineBase := by
  simp only [Config.legal, Bool.and_eq_true, decide_eq_true_eq, and_assoc]

theorem engineTurn_ne_refused (s : State) (r : Refusal) : engineTurn s ≠ .refused r := by
  rcases engineTurn_cases s with ⟨-, h⟩ | ⟨-, _, h⟩ <;> rw [h] <;> nofun

theorem exists_hostRegisterWrite (k : Nat) (v : Word) (s : State) : ∃ t, hostRegisterWrite k v s = .next t := by
  unfold hostRegisterWrite
  split <;> exact ⟨_, rfl⟩

theorem outsideMemory_ne_illegalConfiguration (addr : Nat) (s : State) :
    outsideMemory addr s ≠ .refused .illegalConfiguration := by
  unfold outsideMemory
  split <;> nofun

/-- A host access is refused as a bad register access only. -/
theorem hostAccess_ne_illegalConfiguration (a : HostAccess) (s : State) :
    hostAccess a s ≠ .refused .illegalConfiguration := by
  cases a with
  | regRead addr width =>
    simp only [hostAccess]
    split <;> nofun
  | regWrite addr width v =>
    simp only [hostAccess]
    split
    · obtain ⟨t, ht⟩ := exists_hostRegisterWrite _ v s
      rw [ht]
      nofun
    · nofun
  | memRead addr | memWrite addr v =>
    simp only [hostAccess]
    split
    · nofun
    · exact outsideMemory_ne_illegalConfiguration addr s
  | reset => nofun

theorem step_eq_illegalConfiguration_iff {s : State} :
    step s = .refused .illegalConfiguration ↔ ¬s.cfg.legal = true := by
  constructor
  · intro h hlegal
    rw [step, if_pos hlegal] at h
    split at h
    · exact engineTurn_ne_refused _ _ h
    · exact engineTurn_ne_refused _ _ h
    · exact hostAccess_ne_illegalConfiguration _ _ h
  · intro h
    rw [step, if_neg h]

/-- Settles O12: the step tests the constraints first, and nothing after the test raises this refusal. -/
theorem illegalConfigurationIsRefused : Obligations.IllegalConfigurationIsRefused := by
  unfold Obligations.IllegalConfigurationIsRefused
  intro s
  rw [step_eq_illegalConfiguration_iff, legal_config_iff]

theorem readRegister_resetWith (c : Config) {k : Nat} (h : k ∉ [0, 10, 11, 12, 13, 14, 15]) :
    readRegister (State.resetWith c) k = 0 := by
  rcases Nat.lt_or_ge k 16 with hk | hk
  · have hrange : 1 ≤ k ∧ k ≤ 9 := by simp at h; omega
    obtain ⟨hlow, hhigh⟩ := hrange
    interval_cases k <;> rfl
  · exact readRegister_reserved _ hk

/-- Settles O13: the parameters fit their registers, and every other register reads a field that reset clears. -/
theorem resetRegistersReadTheirResetValues : Obligations.ResetRegistersReadTheirResetValues := by
  unfold Obligations.ResetRegistersReadTheirResetValues
  intro c hlegal
  obtain ⟨harithW, harithCeil, harithInc, hmemSize⟩ := toNat_readRegister_cfg (s := State.resetWith c) hlegal
  exact ⟨rfl, rfl, harithW, harithCeil, harithInc, rfl, hmemSize, fun k => readRegister_resetWith c, rfl, rfl, rfl, rfl,
    by decide, rfl⟩

/-- A word's bit by the word's value. -/
theorem getLsbD_eq_of_toNat {w : Word} {i : Nat} {b : Bool} (h : w.toNat / 2 ^ i % 2 = b.toNat) : w.getLsbD i = b := by
  rw [BitVec.getLsbD, Nat.testBit_eq_decide_div_mod_eq, h]
  cases b <;> rfl

/-- A word's field by the word's value. -/
theorem extractLsb'_eq_of_toNat {w : Word} {start len : Nat} {x : BitVec len}
    (h : w.toNat / 2 ^ start % 2 ^ len = x.toNat) : w.extractLsb' start len = x := by
  apply BitVec.eq_of_toNat_eq
  rw [BitVec.extractLsb'_toNat, Nat.shiftRight_eq_div_pow, h]

/-- Settles O21: the fields do not overlap in the sum that STATUS is, and CTRL is IE alone. -/
theorem statusAndCtrlReadTheirFields : Obligations.StatusAndCtrlReadTheirFields := by
  unfold Obligations.StatusAndCtrlReadTheirFields
  intro s
  have hstatus : (readRegister s 3).toNat = _ := toNat_statusWord s
  have hctrl : (readRegister s 1).toNat = s.ie.toNat := toNat_ctrlWord s
  have hbusy := s.busy.toNat_le
  have hdone := s.done.toNat_le
  have herr := s.err.toNat_le
  have hoverrun := s.overrun.toNat_le
  have hcode := s.errCode.isLt
  have hie := s.ie.toNat_le
  refine ⟨getLsbD_eq_of_toNat ?busy, getLsbD_eq_of_toNat ?done, getLsbD_eq_of_toNat ?err,
    getLsbD_eq_of_toNat ?overrun, extractLsb'_eq_of_toNat ?zeros, extractLsb'_eq_of_toNat ?errCode,
    extractLsb'_eq_of_toNat ?upperZeros, getLsbD_eq_of_toNat ?ie, extractLsb'_eq_of_toNat ?ctrlZeros⟩
  case ie => rw [hctrl]; omega
  case ctrlZeros => rw [hctrl]; exact Nat.mod_eq_of_lt (by omega) |>.trans (Nat.div_eq_of_lt (by omega))
  case busy | done | err | overrun | errCode => rw [hstatus]; omega
  case zeros | upperZeros => rw [hstatus, BitVec.ofNat_eq_ofNat, BitVec.toNat_zero]; omega

theorem exec_ctrlWrite (ie srst : Bool) (ignored : BitVec 30) (s : State) :
    exec (.ctrlWrite ie srst ignored) s = .next (if srst then softReset s else { s with ie := ie }) := by
  cases srst with
  | true => exact congrArg _ (softReset_ie s ie)
  | false => rfl

/-- Settles O23. -/
theorem ctrlWriteInstructionCompletes : Obligations.CtrlWriteInstructionCompletes := by
  unfold Obligations.CtrlWriteInstructionCompletes
  intro s ie ignored
  rw [exec_ctrlWrite, if_neg Bool.false_ne_true]

/-- Settles O35: the table by evaluation, and each code stands in it. -/
theorem errorCodesAreTheTables : Obligations.ErrorCodesAreTheTables := by
  unfold Obligations.ErrorCodesAreTheTables
  exact ⟨by decide, fun code => by cases code <;> decide⟩

end Sys2Proof.Machine

/-! ## Host memory: reset, host accesses and canonical lists (20_memory.md section 1, 70_reset_and_hazards.md R1021) -/

namespace Sys2Proof.Machine

/-! ### A draw of the DST window -/

/-- Every byte of the DST window that host memory has is drawn (log 8). -/
theorem readByte_drawDstWindow_inside {s : State} (hwf : Memory.wf s.mem) {a : Nat} (hwindow : inDstWindow s a = true)
    (ha : a < s.cfg.memSize) : readByte (drawDstWindow s).mem a = Config.freeByte s.draws a := by
  simp only [inDstWindow, inWindow, Bool.and_eq_true, decide_eq_true_eq] at hwindow
  obtain ⟨hlow, hhigh⟩ := hwindow
  refine readByte_memDraw_inside hwf hlow ?_
  rw [dstWindowBytes]
  omega

theorem readByte_drawDstWindow_outside {s : State} {a : Nat} (h : inDstWindow s a = false) :
    readByte (drawDstWindow s).mem a = readByte s.mem a :=
  readByte_memDraw_outside (outside_of_not_inDstWindow h)

/-- Settles O14: the instruction is the reset, which first draws the DST window of a running command. -/
theorem softResetDiscardsTheRunningCommand : Obligations.SoftResetDiscardsTheRunningCommand := by
  unfold Obligations.SoftResetDiscardsTheRunningCommand
  intro s ie ignored hwf
  refine ⟨softReset s, ?_, softReset_registers s, fun hidle => ?whileIdle, fun hbusy a hwindow ha => ?drawn,
    fun a ha => readByte_softReset_of_frame (.inl ha)⟩
  · rw [exec_ctrlWrite, if_pos rfl]
  case whileIdle => rw [softReset_of_idle hidle, resetRegisters_mem]
  case drawn =>
    rw [softReset_of_busy hbusy, resetRegisters_mem]
    exact readByte_drawDstWindow_inside hwf hwindow ha

/-! ### Host accesses to host memory -/

theorem step_withAccess_memRead {s : State} (hlegal : s.cfg.legal = true) {addr : Nat} (h : addr < s.cfg.memSize) :
    step (s.withAccess (.memRead addr)) = .next (hostLoad addr s) := by
  rw [step_withAccess hlegal]
  exact if_pos h

theorem step_withAccess_memWrite {s : State} (hlegal : s.cfg.legal = true) {addr : Nat} (h : addr < s.cfg.memSize)
    (v : Byte) : step (s.withAccess (.memWrite addr v)) = .next (hostStore addr v s) := by
  rw [step_withAccess hlegal]
  exact if_pos h

theorem busy_iff {s : State} : s.busy = true ↔ s.phase = .busy := beq_iff_eq

theorem hostLoad_registers (addr : Nat) (s : State) :
    hostLoad addr s = { s with hostData := (hostLoad addr s).hostData, draws := (hostLoad addr s).draws } := by
  unfold hostLoad
  split <;> rfl

theorem hostLoad_hostData (addr : Nat) (s : State) :
    (hostLoad addr s).hostData =
      if s.phase = .busy ∧ inDstWindow s addr = true then (Config.freeByte s.draws addr).setWidth 32
      else (readByte s.mem addr).setWidth 32 := by
  simp only [hostLoad, Bool.and_eq_true, busy_iff]
  split <;> rfl

/-- Settles O26: a store writes one byte of canonical memory, a load reads it or draws. -/
theorem hostMemoryAccessesFollowTheRaceRules : Obligations.HostMemoryAccessesFollowTheRaceRules := by
  unfold Obligations.HostMemoryAccessesFollowTheRaceRules
  intro s addr b hlegal haddr hwf
  constructor
  · refine ⟨hostStore addr b s, step_withAccess_memWrite hlegal haddr b, rfl, readByte_writeByte_self hwf addr b,
      fun a ha => readByte_writeByte_ne ha, ?marker⟩
    case marker => simp only [hostStore_touched, Bool.or_eq_true, Bool.and_eq_true, busy_iff]
  · refine ⟨hostLoad addr s, step_withAccess_memRead hlegal haddr, hostLoad_registers addr s, fun hcase => ?_,
      fun hbusy hwindow => ?_⟩
    · rw [hostLoad_hostData, if_neg hcase]
    · rw [hostLoad_hostData, if_pos ⟨hbusy, hwindow⟩]

/-! ### A canonical memory is its bytes -/

theorem Memory.wf.of_cons {c : Host.Cell} {m : Memory} (h : Memory.wf (c :: m)) :
    (∀ d ∈ m, c.1 < d.1) ∧ c.2 ≠ 0 ∧ Memory.wf m := by
  obtain ⟨hsorted, hnonzero⟩ := h
  obtain ⟨hfirst, htail⟩ := List.pairwise_cons.mp hsorted
  obtain ⟨hbyte, hbytes⟩ := List.forall_mem_cons.mp hnonzero
  exact ⟨hfirst, hbyte, htail, hbytes⟩

/-- The first listed address is the least that does not read as 0. -/
theorem readByte_first {c : Host.Cell} {m : Memory} : readByte (c :: m) c.1 = c.2 := if_pos rfl

/-- No memory that reads like a canonical one begins after it. -/
theorem first_le_first {c d : Host.Cell} {m m' : Memory} (h : Memory.wf (c :: m)) (h' : Memory.wf (d :: m'))
    (hread : ∀ a, readByte (c :: m) a = readByte (d :: m') a) : d.1 ≤ c.1 := by
  obtain ⟨-, hbyte, -⟩ := h.of_cons
  obtain ⟨hfirst, -, -⟩ := h'.of_cons
  by_contra! hlt
  refine hbyte ?_
  rw [← readByte_first (m := m), hread, readByte_of_lt]
  exact List.forall_mem_cons.mpr ⟨hlt, fun e he => hlt.trans (hfirst e he)⟩

/-- Settles O27: both lists begin with the least address that does not read as 0, and the rest reads alike. -/
theorem canonicalMemoriesThatReadAlikeAreEqual : Obligations.CanonicalMemoriesThatReadAlikeAreEqual := by
  unfold Obligations.CanonicalMemoriesThatReadAlikeAreEqual
  intro m
  induction m with
  | nil =>
    intro m' _ hwf' hread
    cases m' with
    | nil => rfl
    | cons d m' =>
      obtain ⟨-, hbyte, -⟩ := hwf'.of_cons
      exact absurd ((hread d.1).trans readByte_first).symm hbyte
  | cons c m ih =>
    intro m' hwf hwf' hread
    obtain ⟨hfirst, hnonzero, htail⟩ := hwf.of_cons
    cases m' with
    | nil => exact absurd (readByte_first.symm.trans (hread c.1)) hnonzero
    | cons d m' =>
      have haddr : c.1 = d.1 :=
        (first_le_first hwf' hwf fun a => (hread a).symm).antisymm (first_le_first hwf hwf' hread)
      have hbyte : c.2 = d.2 := by
        rw [← readByte_first (c := c) (m := m), hread, haddr, readByte_first]
      obtain ⟨hfirst', -, htail'⟩ := hwf'.of_cons
      have hrest : ∀ a, readByte m a = readByte m' a := fun a => by
        by_cases ha : c.1 = a
        · subst ha
          rw [readByte_of_lt hfirst, readByte_of_lt (haddr ▸ hfirst')]
        · have hboth := hread a
          rwa [readByte_cons c.1 c.2, readByte_cons d.1 d.2, if_neg ha, if_neg (haddr ▸ ha)] at hboth
      rw [Prod.ext haddr hbyte, ih m' htail htail' hrest]

end Sys2Proof.Machine

/-! ## Window checks, races, frames and what a command reads (20_memory.md section 4, 40_sequencer.md R410, R420, R421) -/

namespace Sys2Proof.Machine

/-! ### The window checks -/

theorem windowsOverlap_iff {s : State} :
    windowsOverlap s = true ↔ ∃ a, inSrcWindow s a = true ∧ inDstWindow s a = true := by
  simp only [windowsOverlap, inSrcWindow, inDstWindow, inWindow, Bool.and_eq_true, decide_eq_true_eq]
  constructor
  · intro h
    exact ⟨max s.latch.srcAddr.toNat s.latch.dstAddr.toNat, by omega⟩
  · rintro ⟨a, h⟩
    omega

/-- A data command the host did not race with completes with its window checks' error or its function's result. -/
theorem exec_completesWith_dataResult {s : State} (hfree : s.raceFree) (hwf : Memory.wf s.mem) {i : Instr}
    {f : List Byte → Nat → Result} (hf : commandFunction s.cfg i = some f) :
    ∃ t, exec i s = .next t ∧ CompletesWith s t (dataResult s f) :=
  ⟨_, exec_of_commandFunction hf, complete_completesWith hfree hwf _⟩

/-- Settles O31: the checks in the order of `windowError`; two windows share a byte when the greater of their bases lies
in both. -/
theorem windowChecksComeFirst : Obligations.WindowChecksComeFirst := by
  unfold Obligations.WindowChecksComeFirst
  intro s i f hfree hwf hf
  have hcompletes := exec_completesWith_dataResult hfree hwf hf
  refine ⟨fun hsrc => ?srcFault, fun hsrc hdst => ?dstFault, fun hsrc hdst =>
    ⟨windowsOverlap_iff.symm, fun hoverlap => ?overlap, fun hdisjoint => ?result⟩⟩
  case srcFault =>
    have herr : windowError s = some (.memFault, s.latch.srcAddr) := if_pos (decide_eq_true hsrc)
    rwa [dataResult_of_some herr] at hcompletes
  all_goals
    have hsrcInside : srcOutside s = false := decide_eq_false (Nat.not_lt.mpr hsrc)
  case dstFault =>
    have hdstOutside : dstOutside s = true := decide_eq_true hdst
    have herr : windowError s = some (.memFault, s.latch.dstAddr) := by simp [windowError, hsrcInside, hdstOutside]
    rwa [dataResult_of_some herr] at hcompletes
  all_goals
    have hdstInside : dstOutside s = false := decide_eq_false (Nat.not_lt.mpr hdst)
  case overlap =>
    have herr : windowError s = some (.overlap, 0) := by simp [windowError, hsrcInside, hdstInside, hoverlap]
    rwa [dataResult_of_some herr] at hcompletes
  case result =>
    rwa [dataResult_of_none (windowError_eq_none.mpr ⟨hsrcInside, hdstInside, hdisjoint⟩)] at hcompletes

/-! ### Races and frames -/

/-- Settles O32: the marker makes every command's completion the raced one, whatever its result. -/
theorem racedCommandCompletesWithAnyValues : Obligations.RacedCommandCompletesWithAnyValues := by
  unfold Obligations.RacedCommandCompletesWithAnyValues
  intro s w htouched hwf
  obtain ⟨r, hexec⟩ := exec_command (decodeCmd_port w) s
  have hstatus := legalStatus_complete r s
  rw [complete_raced htouched] at hexec hstatus
  exact ⟨completeRaced s, hexec, rfl, hstatus, rfl, rfl, rfl, rfl,
    fun a hwindow ha => readByte_drawDstWindow_inside hwf hwindow ha, fun a ha => readByte_drawDstWindow_outside ha⟩

theorem readByte_complete_of_not_inDstWindow {s : State} {i : Instr} {r : Result} (hr : commandResult s i = some r)
    {a : Nat} (ha : inDstWindow s a = false) : readByte (complete r s).mem a = readByte s.mem a := by
  rcases complete_mem_cases r s with ⟨out, rfl, hmem⟩ | hmem | hmem <;> rw [hmem]
  · have hfits : out.length ≤ s.latch.dstCap.toNat := commandResult_le hr
    rw [inDstWindow, inWindow_eq_false] at ha
    exact readByte_memWrite_outside (by omega)
  · exact readByte_drawDstWindow_outside ha

/-- Settles O33: outputs are no longer than the DST window, and draws are of it. -/
theorem commandsChangeOnlyResultRegistersAndDst : Obligations.CommandsChangeOnlyResultRegistersAndDst := by
  unfold Obligations.CommandsChangeOnlyResultRegistersAndDst
  intro s t i hport hexec
  obtain ⟨r, hr⟩ := exists_commandResult hport s
  rw [exec_of_commandResult hr] at hexec
  cases hexec
  exact ⟨complete_registers r s, fun a ha => readByte_complete_of_not_inDstWindow hr ha⟩

/-! ### Nothing outside the SRC window is read -/

theorem sourceBytes_congr {s : State} {m : Memory}
    (h : ∀ a, inSrcWindow s a = true → readByte s.mem a = readByte m a) :
    sourceBytes s = sourceBytes { s with mem := m } :=
  memRead_congr fun a hlow hhigh => h a (by simp [inSrcWindow, inWindow, hlow, hhigh])

/-- A command's result is decided by its operands and the SRC window. -/
theorem commandResult_congr {s : State} {m : Memory} (h : sourceBytes s = sourceBytes { s with mem := m })
    {i : Instr} : commandResult s i = commandResult { s with mem := m } i := by
  have hdata : dataResult s = dataResult { s with mem := m } := by
    funext f
    cases hw : windowError s with
    | none =>
      rw [dataResult_of_none hw, h]
      exact (dataResult_of_none (s := { s with mem := m }) hw f).symm
    | some e =>
      rw [dataResult_of_some hw]
      exact (dataResult_of_some (s := { s with mem := m }) hw f).symm
  cases i <;> simp only [commandResult, hdata]

/-- Two changed memories hold the same byte at an address, or each the byte it held before the change. -/
def SameOrOwn (m m' n n' : Memory) : Prop :=
  ∀ a, readByte n a = readByte n' a ∨ (readByte n a = readByte m a ∧ readByte n' a = readByte m' a)

theorem sameOrOwn_refl (m m' : Memory) : SameOrOwn m m' m m' := fun _ => .inr ⟨rfl, rfl⟩

theorem sameOrOwn_memWrite {m m' : Memory} (hm : Memory.wf m) (hm' : Memory.wf m') (a : Nat) (out : List Byte) :
    SameOrOwn m m' (memWrite m a out) (memWrite m' a out) := by
  intro b
  rcases Nat.lt_or_ge b a with hlow | hge
  · exact .inr ⟨readByte_memWrite_outside (.inl hlow), readByte_memWrite_outside (.inl hlow)⟩
  · obtain ⟨k, rfl⟩ := Nat.exists_eq_add_of_le hge
    rcases Nat.lt_or_ge k out.length with hk | hk
    · exact .inl ((readByte_memWrite_inside hm a out k hk).trans (readByte_memWrite_inside hm' a out k hk).symm)
    · exact .inr ⟨readByte_memWrite_outside (by omega), readByte_memWrite_outside (by omega)⟩

theorem sameOrOwn_memDraw {m m' : Memory} (hm : Memory.wf m) (hm' : Memory.wf m') (draw a n : Nat) :
    SameOrOwn m m' (memDraw draw m a n) (memDraw draw m' a n) := by
  intro b
  by_cases hin : a ≤ b ∧ b < a + n
  · obtain ⟨hlow, hhigh⟩ := hin
    exact .inl ((readByte_memDraw_inside hm hlow hhigh).trans (readByte_memDraw_inside hm' hlow hhigh).symm)
  · exact .inr ⟨readByte_memDraw_outside (by omega), readByte_memDraw_outside (by omega)⟩

/-- Completions with one result differ in memory only. -/
theorem complete_withMem (r : Result) {s : State} (hwf : Memory.wf s.mem) {m : Memory} (hm : Memory.wf m) :
    complete r { s with mem := m } = { complete r s with mem := (complete r { s with mem := m }).mem } ∧
    SameOrOwn s.mem m (complete r s).mem (complete r { s with mem := m }).mem := by
  rcases Bool.eq_false_or_eq_true s.touched with htouched | htouched
  · rw [complete_raced htouched, complete_raced (s := { s with mem := m }) htouched]
    exact ⟨rfl, sameOrOwn_memDraw hwf hm _ _ _⟩
  · cases r with
    | ok out =>
      rw [complete_ok htouched, complete_ok (s := { s with mem := m }) htouched]
      exact ⟨rfl, sameOrOwn_memWrite hwf hm _ out⟩
    | err code info =>
      rw [complete_err htouched, complete_err (s := { s with mem := m }) htouched, completeErr, completeErr]
      cases touchesNoMemory code with
      | true => exact ⟨rfl, sameOrOwn_refl s.mem m⟩
      | false => exact ⟨rfl, sameOrOwn_memDraw hwf hm _ _ _⟩

/-- Settles O34: both runs complete with one result, which stores or draws the same bytes at the same addresses. -/
theorem commandsReadOnlyTheSrcWindow : Obligations.CommandsReadOnlyTheSrcWindow := by
  unfold Obligations.CommandsReadOnlyTheSrcWindow
  intro s m i hport hwf hm hagree
  obtain ⟨r, hr⟩ := exists_commandResult hport s
  have hr' := hr
  rw [commandResult_congr (sourceBytes_congr hagree)] at hr'
  obtain ⟨hregisters, hmem⟩ := complete_withMem r hwf hm
  exact ⟨_, _, exec_of_commandResult hr, exec_of_commandResult hr', hregisters, hmem⟩

end Sys2Proof.Machine

/-! ## Completions with a function's result (40_sequencer.md R411, R420) -/

namespace Sys2Proof.Machine

theorem exec_completesWith {s : State} (hfree : s.raceFree) (hwf : Memory.wf s.mem) (hwindow : windowError s = none)
    {i : Instr} {f : List Byte → Nat → Result} (hf : commandFunction s.cfg i = some f) :
    ∃ t, exec i s = .next t ∧ CompletesWith s t (f (sourceBytes s) s.latch.dstCap.toNat) := by
  have hcompletes := exec_completesWith_dataResult hfree hwf hf
  rwa [dataResult_of_none hwindow] at hcompletes

/-- RESULT_LEN holds the length of an output that fits the capacity. -/
theorem Succeeds.toNat_resultLen {s t : State} {out : List Byte} (h : Succeeds s t out)
    (hfits : out.length ≤ s.latch.dstCap.toNat) : t.resultLen.toNat = out.length := by
  have hlt := s.latch.dstCap.isLt
  rw [h.registers, BitVec.toNat_ofNat, Nat.mod_eq_of_lt (by omega)]

theorem okWithin_of_le {cap : Nat} {out : List Byte} (h : out.length ≤ cap) : okWithin cap out = .ok out :=
  if_neg (Nat.not_lt.mpr h)

theorem okWithin_of_lt {cap : Nat} {out : List Byte} (h : cap < out.length) : okWithin cap out = .err .dstOverflow 0 :=
  if_pos h

/-- A command whose result is an output if it fits completes so. -/
theorem completesWith_okWithin {s : State} {i : Instr} {out : List Byte}
    (h : ∃ t, exec i s = .next t ∧ CompletesWith s t (okWithin s.latch.dstCap.toNat out)) :
    (out.length ≤ s.latch.dstCap.toNat →
      ∃ t, exec i s = .next t ∧ Succeeds s t out ∧ t.resultLen.toNat = out.length) ∧
    (s.latch.dstCap.toNat < out.length → ∃ t, exec i s = .next t ∧ Fails s t .dstOverflow 0) := by
  constructor
  · intro hfits
    rw [okWithin_of_le hfits] at h
    obtain ⟨t, hexec, hsucceeds⟩ := h
    exact ⟨t, hexec, hsucceeds, Succeeds.toNat_resultLen hsucceeds hfits⟩
  · intro hsmall
    rwa [okWithin_of_lt hsmall] at h

end Sys2Proof.Machine

/-! ## BWT and UNBWT as instructions (41_bwt.md section 1, 42_unbwt.md sections 1 to 3) -/

namespace Sys2Proof.Machine

/-- Settles O37: the three results of `bwtF`, the source having src_len bytes. -/
theorem bwtCompletesWithItsRecord : Obligations.BwtCompletesWithItsRecord := by
  unfold Obligations.BwtCompletesWithItsRecord
  intro s hfree hwf hwindow
  have hlen := length_sourceBytes s
  have hcompletes := exec_completesWith hfree hwf hwindow (i := .bwt) rfl
  refine ⟨fun hpos hmax hroom => ?record, fun hbad => ?badSize, fun hpos hmax hsmall => ?overflow⟩
  case record =>
    rw [bwtF_of_size (by omega) (by omega), if_neg (by omega)] at hcompletes
    obtain ⟨t, hexec, hsucceeds⟩ := hcompletes
    have hrecord := length_permutationRecord (sourceBytes s)
    refine ⟨t, hexec, hsucceeds, ?_⟩
    rw [Succeeds.toNat_resultLen hsucceeds (by omega), hrecord, hlen]
  case badSize => rwa [bwtF_of_badSize (by omega)] at hcompletes
  case overflow => rwa [bwtF_of_size (by omega) (by omega), if_pos (by omega)] at hcompletes

/-! ### The record of equal bytes -/

/-- A longer run of a byte before the sentinel is a smaller suffix. -/
theorem strictAnti_replicate_sentinel (c : Byte) :
    StrictAnti fun k : Nat => List.replicate k c.toNat ++ [256] := by
  refine strictAnti_nat_of_succ_lt fun k => ?_
  induction k with
  | zero => exact List.cons_lt_cons_iff.mpr (.inl c.isLt)
  | succ k ih => exact List.cons_lt_cons_iff.mpr (.inr ⟨rfl, ih⟩)

theorem drop_textWithSentinel_replicate {n p : Nat} (h : p ≤ n) (c : Byte) :
    (textWithSentinel (List.replicate n c)).drop p = List.replicate (n - p) c.toNat ++ [256] := by
  rw [textWithSentinel, List.map_replicate, List.drop_append_of_le_length (by simpa using h), List.drop_replicate]

/-- The suffixes of equal bytes are in order already. -/
theorem sortsSuffixes_replicate (n : Nat) (c : Byte) : SortsSuffixes (List.replicate n c) (List.range (n + 1)) := by
  refine ⟨by simp, List.pairwise_lt_range.imp_of_mem fun {p q} hp hq hlt => ?_⟩
  rw [List.mem_range] at hp hq
  rw [suffixLt_iff_lt, drop_textWithSentinel_replicate (by omega), drop_textWithSentinel_replicate (by omega)]
  exact strictAnti_replicate_sentinel c (by omega)

theorem idxOf_range {n p : Nat} (h : p < n) : (List.range n).idxOf p = p := by
  have hlt : p < (List.range n).length := by rwa [List.length_range]
  have hidx := List.nodup_range.idxOf_getElem p hlt
  rwa [List.getElem_range] at hidx

/-- Settles O38: the offsets 0..=N sort the suffixes, so the record is read off them. -/
theorem bwtOfEqualBytes : Obligations.BwtOfEqualBytes := by
  unfold Obligations.BwtOfEqualBytes
  intro n c hpos
  have hrows : (List.range (n + 1)).map (fun p => if p = 0 then 0x00 else (List.replicate n c).getD (p - 1) 0) =
      0x00 :: List.replicate n c := by
    rw [List.range_succ_eq_map, List.map_cons, List.map_map]
    refine congrArg _ (List.ext_getElem (by simp) fun k hk hkn => ?_)
    have hkn : k < n := by simpa using hkn
    simp [hkn]
  rw [(sortsSuffixes_replicate n c).permutationRecord_eq, hrows, idxOf_range (by omega), idxOf_range (by omega)]
  rfl

/-! ### UNBWT -/

/-- Settles O39. -/
theorem successorsAreAStableSortOfTheRows : Obligations.SuccessorsAreAStableSortOfTheRows := by
  unfold Obligations.SuccessorsAreAStableSortOfTheRows
  intro symbols hle
  exact ⟨successors_perm hle, pairwise_successors hle⟩

theorem unbwtF_of_badSize {R : List Byte} (h : R.length < 10 ∨ Config.bwtMaxN < R.length - 9) (cap : Nat) :
    unbwtF R cap = .err .unbwtRecordSize 0 := if_pos h

/-- The checks before the walk, in their order. -/
theorem unbwtF_of_size {R : List Byte} {cap : Nat} (hmin : 10 ≤ R.length) (hmax : R.length - 9 ≤ Config.bwtMaxN) :
    (R.length - 9 < be32At R 0 ∨ R.length - 9 < be32At R 4 → unbwtF R cap = .err .unbwtIndexRange 0) ∧
    (be32At R 0 ≤ R.length - 9 → be32At R 4 ≤ R.length - 9 →
      ((R.drop 8).getD (be32At R 4) 0 ≠ 0x00 → unbwtF R cap = .err .unbwtFiller 0) ∧
      ((R.drop 8).getD (be32At R 4) 0 = 0x00 → cap < R.length - 9 → unbwtF R cap = .err .dstOverflow 0)) := by
  unfold unbwtF
  dsimp only
  rw [if_neg (by omega)]
  refine ⟨fun hindex => if_pos hindex, fun hprim hsent => ?_⟩
  rw [if_neg (by omega)]
  refine ⟨fun hfiller => if_pos hfiller, fun hfiller hsmall => ?_⟩
  rw [if_neg (not_not.mpr hfiller), if_pos hsmall]

/-- Settles O40: the checks in the order of `unbwtF`, and the walk along the one stable order of the rows. -/
theorem unbwtErrorsComeInOrder : Obligations.UnbwtErrorsComeInOrder := by
  unfold Obligations.UnbwtErrorsComeInOrder
  intro R cap
  have hrow : ∀ k, R.getD (8 + k) 0 = (R.drop 8).getD k 0 := fun k => by simp [List.getD_eq_getElem?_getD]
  simp only [hrow]
  refine ⟨fun hbad => unbwtF_of_badSize hbad cap, fun hmin hmax => ?_⟩
  obtain ⟨hindex, hchecks⟩ := unbwtF_of_size (cap := cap) hmin hmax
  refine ⟨hindex, fun hprim hsent => ?_⟩
  obtain ⟨hbadFiller, hoverflow⟩ := hchecks hprim hsent
  refine ⟨hbadFiller, fun hfiller => ⟨hoverflow hfiller, fun hcap succ hsucc => ?walk⟩⟩
  case walk =>
    rw [unbwtF_of_stableRowOrder hmin hmax hprim hsent hfiller hcap hsucc]
    exact ⟨fun hlast => if_pos hlast, fun hlast => if_neg (not_not.mpr hlast)⟩

/-- Settles O42: the record decodes to the block, and is nine bytes longer. -/
theorem unbwtCompletesWithTheBlock : Obligations.UnbwtCompletesWithTheBlock := by
  unfold Obligations.UnbwtCompletesWithTheBlock
  intro s T hfree hwf hwindow hpos hmax hsource hfits
  obtain ⟨t, hexec, hcompletes⟩ := exec_completesWith hfree hwf hwindow (i := .unbwt) rfl
  rw [hsource, unbwtF_permutationRecord hpos hmax hfits] at hcompletes
  have hlen := congrArg List.length hsource
  rw [length_sourceBytes, length_permutationRecord] at hlen
  refine ⟨t, hexec, hcompletes, ?_⟩
  rw [Succeeds.toNat_resultLen hcompletes hfits, hlen, Nat.add_sub_cancel]

end Sys2Proof.Machine

/-! ## Tie policies and code lengths (43_huffman.md R710 to R713) -/

namespace Sys2Proof.Machine

/-- Settles O48: `refTie` answers the two least members, and members are told apart by their sequence numbers. -/
theorem referenceTieTakesTheTwoLeast : Obligations.ReferenceTieTakesTheTwoLeast := by
  unfold Obligations.ReferenceTieTakesTheTwoLeast
  refine ⟨legalTie_refTie, fun forest hlen hnodup => ?_⟩
  obtain ⟨hfst, hsnd, hordered, hleast⟩ := refTie_spec hlen hnodup
  have hsame : ∀ {z z'}, z ∈ forest → z' ∈ forest → SameKey z z' → z = z' := fun hz hz' hkey =>
    List.inj_on_of_nodup_map hnodup hz hz' hkey.2
  refine ⟨hordered, fun z hz hne => ?first, fun z hz hne hne' => ?second⟩
  case first =>
    rcases hleast z hz with hkey | hkey | hbefore
    · exact absurd (hsame hz hfst hkey) hne
    · exact hsame hz hsnd hkey ▸ hordered
    · rw [treeBefore_iff] at hordered hbefore ⊢
      omega
  case second =>
    rcases hleast z hz with hkey | hkey | hbefore
    · exact absurd (hsame hz hfst hkey) hne
    · exact absurd (hsame hz hsnd hkey) hne'
    · exact hbefore

theorem mem_legalPairs {forest : List HuffTree} {pair : HuffTree × HuffTree} :
    pair ∈ legalPairs forest ↔ (pair.1 ∈ forest ∧ pair.2 ∈ forest) ∧ treeSeq pair.1 ≠ treeSeq pair.2 ∧
      (∀ z ∈ forest, treeWeight pair.1 ≤ treeWeight z) ∧
      ∀ z ∈ forest, treeSeq z = treeSeq pair.1 ∨ treeWeight pair.2 ≤ treeWeight z := by
  have hpairs : pair ∈ forest.flatMap (fun x => forest.map fun y => (x, y)) ↔ pair.1 ∈ forest ∧ pair.2 ∈ forest := by
    obtain ⟨x, y⟩ := pair
    simp
  rw [legalPairs, List.mem_filter, hpairs]
  simp [legalPair, and_assoc]

/-- A free policy answers one of the forest's legal pairs, or what REF_TIE answers. -/
theorem tieOf_other_cases (id : Nat) (forest : List HuffTree) :
    tieOf (.other id) forest ∈ legalPairs forest ∨ tieOf (.other id) forest = refTie forest := by
  simp only [tieOf, List.getD_eq_getElem?_getD]
  cases hpair : (legalPairs forest)[Config.freeTieChoice id forest % (legalPairs forest).length]? with
  | none => exact .inr rfl
  | some pair => exact .inl (List.mem_of_getElem? hpair)

theorem legalTie_tieOf (p : TiePolicy) : LegalTie (tieOf p) := by
  cases p with
  | reference => exact legalTie_refTie
  | other id =>
    intro forest hlen hnodup
    rcases tieOf_other_cases id forest with hmem | href
    · obtain ⟨⟨hfst, hsnd⟩, hseq, hleast, hrest⟩ := mem_legalPairs.mp hmem
      exact ⟨hfst, hsnd, fun heq => hseq (congrArg treeSeq heq), hleast, fun z hz hne =>
        (hrest z hz).resolve_left fun hsame => hne (List.inj_on_of_nodup_map hnodup hz hfst hsame)⟩
    · rw [href]
      exact legalTie_refTie forest hlen hnodup

/-- Settles O49: a free policy chooses among the legal pairs. -/
theorem everyTiePolicyIsLegal : Obligations.EveryTiePolicyIsLegal := by
  unfold Obligations.EveryTiePolicyIsLegal
  exact legalTie_tieOf

/-- Settles O50: the lengths are the leaves' depths in a binary tree with 256 leaves. -/
theorem huffmanLengthsFormACompleteCode : Obligations.HuffmanLengthsFormACompleteCode := by
  unfold Obligations.HuffmanLengthsFormACompleteCode
  intro tie S htie
  have hlen := length_huffLengths tie S
  have hkraft := kraftSum_huffLengths htie S
  exact ⟨hlen, huffLengths_bounds htie S, hkraft, eight_le_foldl_max hlen hkraft⟩

end Sys2Proof.Machine

/-! ## What PUFF decodes (43_huffman.md R720) -/

namespace Sys2Proof.Machine

/-! ### The header -/

theorem puffF_of_length_lt {S : List Byte} (h : S.length < 256) (cap : Nat) : puffF S cap = .err .puffTruncated 0 :=
  if_pos h

/-- The lengths in a header. -/
def headerLengths (S : List Byte) : List Nat := (S.take 256).map BitVec.toNat

theorem length_headerLengths {S : List Byte} (h : 256 ≤ S.length) : (headerLengths S).length = 256 := by
  simp [headerLengths, h]

theorem headerLengths_bounds {S : List Byte} (h : 0 ∉ headerLengths S) : ∀ l ∈ headerLengths S, 1 ≤ l ∧ l ≤ 255 := by
  intro l hl
  refine ⟨Nat.one_le_iff_ne_zero.mpr fun hzero => h (hzero ▸ hl), ?_⟩
  obtain ⟨y, -, rfl⟩ := List.mem_map.mp hl
  exact Nat.le_of_lt_succ y.isLt

theorem headerOk_iff {lens : List Nat} : headerOk lens = true ↔ 0 ∉ lens ∧ kraftSum lens = 2 ^ 255 := by
  simp only [headerOk, Bool.and_eq_true, List.all_eq_true, bne_iff_ne, beq_iff_eq]
  exact and_congr_left' ⟨fun h hzero => h 0 hzero rfl, fun h l hl hzero => h (hzero ▸ hl)⟩

theorem puffF_of_header {S : List Byte} (h : 256 ≤ S.length) (cap : Nat) :
    puffF S cap =
      if headerOk (headerLengths S) then puffBits (canonical (headerLengths S)) 0 0 cap (payloadBits (S.drop 256))
      else .err .puffBadHeader 0 :=
  if_neg (Nat.not_lt.mpr h)

/-- Settles O46: the length check, the header test, and an empty payload. -/
theorem puffChecksItsHeader : Obligations.PuffChecksItsHeader := by
  unfold Obligations.PuffChecksItsHeader
  intro S cap
  refine ⟨fun hshort => puffF_of_length_lt hshort cap, fun hlong => ?_⟩
  rw [puffF_of_header hlong]
  refine ⟨fun hbad => if_neg fun hok => ?badHeader, fun hzero hkraft hlen => ?headerAlone⟩
  case badHeader =>
    obtain ⟨hzero, hkraft⟩ := headerOk_iff.mp hok
    rcases hbad with hbad | hbad
    · exact hzero hbad
    · exact hbad hkraft
  case headerAlone =>
    have hok : headerOk (headerLengths S) = true := headerOk_iff.mpr ⟨hzero, hkraft⟩
    rw [if_pos hok, List.drop_eq_nil_of_le hlen.le]
    rfl

/-! ### The room for symbols -/

theorem emitSymbols_of_room_lt {symbols : List Byte} {room : Nat} (h : room < symbols.length) (rest : Nat → Result) :
    emitSymbols room rest symbols = .err .dstOverflow 0 := by
  induction symbols generalizing room with
  | nil => cases h
  | cons b symbols ih =>
    cases room with
    | zero => rfl
    | succ room => rw [emitSymbols, ih (Nat.lt_of_succ_lt_succ h)]; rfl

theorem emitSymbols_err {symbols : List Byte} {room : Nat} (h : symbols.length ≤ room) (code : ErrCode) (info : Word) :
    emitSymbols room (fun _ => .err code info) symbols = .err code info := by
  induction symbols generalizing room with
  | nil => rw [emitSymbols]
  | cons b symbols ih =>
    cases room with
    | zero => cases h
    | succ room => rw [emitSymbols, ih (Nat.le_of_succ_le_succ h)]; rfl

/-- Every node but Z_0 to Z_7 has more than seven bits or a nonzero one. -/
theorem isZeroNode_iff {u : List Bool} : isZeroNode u = true ↔ u.length ≤ 7 ∧ true ∉ u := by
  simp [isZeroNode]

section
variable {lens : List Nat} (hlen : lens.length = 256) (hbounds : ∀ l ∈ lens, 1 ≤ l ∧ l ≤ 255)
  (hkraft : kraftSum lens = 2 ^ 255)
include hlen hbounds hkraft

/-- The three ends of the decoding loop, by a reading of its bits. -/
theorem ReadsAs.puffBits_cases {bits rest : List Bool} {symbols : List Byte}
    (h : ReadsAs (canonical lens) bits symbols rest) (room : Nat) :
    (room < symbols.length → puffBits (canonical lens) 0 0 room bits = .err .dstOverflow 0) ∧
    (symbols.length ≤ room → (7 < rest.length ∨ true ∈ rest) →
      puffBits (canonical lens) 0 0 room bits = .err .puffBadPayload 0) ∧
    (symbols.length ≤ room → rest.length ≤ 7 → true ∉ rest →
      puffBits (canonical lens) 0 0 room bits = .ok symbols) := by
  rw [puffBits_of_readsAs hlen hbounds hkraft h]
  refine ⟨fun hroom => emitSymbols_of_room_lt hroom _, fun hroom hbad => ?_, fun hroom hlength hzeros => ?_⟩
  · have hnot : ¬isZeroNode rest = true := fun hzero => by
      obtain ⟨hlength, hzeros⟩ := isZeroNode_iff.mp hzero
      exact hbad.elim hlength.not_gt hzeros
    simp only [if_neg hnot]
    exact emitSymbols_err hroom _ _
  · simp only [if_pos (isZeroNode_iff.mpr ⟨hlength, hzeros⟩)]
    exact emitSymbols_of_length_le hroom

/-- A row's code is the code of the row's byte. -/
theorem codeBitsOf_byte {row : CodeRow} (hrow : row ∈ canonical lens) :
    codeBitsOf (canonical lens) (BitVec.ofNat 8 row.byte) = codeBits row.code row.len := by
  obtain ⟨hbyteLt, -, -⟩ := placedRow_of_mem_canonical hlen (fun l hl => (hbounds l hl).2) hkraft hrow
  have hpos : ∀ l ∈ lens, 1 ≤ l := fun l hl => (hbounds l hl).1
  obtain ⟨row', hrow', hbyte, hcode⟩ := exists_row_codeBitsOf hlen hpos (BitVec.ofNat 8 row.byte)
  rw [BitVec.toNat_ofNat, Nat.mod_eq_of_lt hbyteLt] at hbyte
  have hnodup := (map_byte_canonical_perm hlen hpos).nodup_iff.mpr List.nodup_range
  rw [hcode, List.inj_on_of_nodup_map hnodup hrow' hrow hbyte]

/-- Codes can be taken off the front of a bit string until none begins it. -/
theorem exists_readsAs (bits : List Bool) : ∃ symbols rest, ReadsAs (canonical lens) bits symbols rest := by
  induction hn : bits.length using Nat.strong_induction_on generalizing bits with
  | _ n ih =>
    by_cases hcode : ∃ row ∈ canonical lens, codeBits row.code row.len <+: bits
    · obtain ⟨row, hrow, tail, rfl⟩ := hcode
      have hplaced := placedRow_of_mem_canonical hlen (fun l hl => (hbounds l hl).2) hkraft hrow
      have hrowLen : 1 ≤ row.len := (hbounds _ (hplaced.len_mem hlen)).1
      rw [List.length_append, length_codeBits] at hn
      obtain ⟨symbols, rest, rfl, hrest⟩ := ih tail.length (by omega) tail rfl
      refine ⟨BitVec.ofNat 8 row.byte :: symbols, rest, ?_, hrest⟩
      rw [List.flatMap_cons, codeBitsOf_byte hlen hbounds hkraft hrow, List.append_assoc]
    · exact ⟨[], bits, rfl, fun row hrow hprefix => hcode ⟨row, hrow, hprefix⟩⟩

end

/-- Settles O47: a reading takes codes off the front while one is there, and the loop follows any reading. -/
theorem puffDecodesCodesAndChecksTheRest : Obligations.PuffDecodesCodesAndChecksTheRest := by
  unfold Obligations.PuffDecodesCodesAndChecksTheRest
  intro S cap hlong hzero hkraft
  have hlen := length_headerLengths hlong
  have hbounds := headerLengths_bounds hzero
  refine ⟨exists_readsAs hlen hbounds hkraft _, fun symbols rest hreads => ?_⟩
  have hok : headerOk (headerLengths S) = true := headerOk_iff.mpr ⟨hzero, hkraft⟩
  rw [puffF_of_header hlong, if_pos hok]
  exact ReadsAs.puffBits_cases hlen hbounds hkraft hreads cap

end Sys2Proof.Machine

/-! ## HUFF and PUFF as instructions (43_huffman.md R719, R721) -/

namespace Sys2Proof.Machine

/-! ### HUFF -/

theorem commandFunction_huff (c : Config) {i : Instr} (h : i ∈ [Instr.huff, .huffBit, .huffFsm]) :
    commandFunction c i = some (huffF (tieOf c.huffTie)) := by
  simp only [List.mem_cons, List.not_mem_nil, or_false] at h
  rcases h with rfl | rfl | rfl <;> rfl

theorem commandFunction_puff (c : Config) {i : Instr} (h : i ∈ [Instr.puff, .puffBit, .puffFsm]) :
    commandFunction c i = some puffF := by
  simp only [List.mem_cons, List.not_mem_nil, or_false] at h
  rcases h with rfl | rfl | rfl <;> rfl

theorem length_codeBitsOf {lens : List Nat} (hlen : lens.length = 256) (hbounds : ∀ l ∈ lens, 1 ≤ l ∧ l ≤ 255)
    (hkraft : kraftSum lens = 2 ^ 255) (b : Byte) :
    (codeBitsOf (canonical lens) b).length = lens.getD b.toNat 0 := by
  obtain ⟨row, hrow, hbyte, hcode⟩ := exists_row_codeBitsOf hlen (fun l hl => (hbounds l hl).1) b
  have hplaced := placedRow_of_mem_canonical hlen (fun l hl => (hbounds l hl).2) hkraft hrow
  rw [hcode, length_codeBits, hplaced.len_eq, hbyte]

theorem sum_range_ite_eq {n k : Nat} (h : k < n) (f : Nat → Nat) :
    ((List.range n).map fun b => if b = k then f b else 0).sum = f k := by
  have hsum := Finset.sum_ite_eq' (Finset.range n) k f
  rwa [if_pos (Finset.mem_range.mpr h)] at hsum

theorem byteCount_cons (y : Byte) (S : List Byte) (b : Nat) :
    byteCount (y :: S) b = byteCount S b + if b = y.toNat then 1 else 0 := by
  simp only [byteCount, List.countP_cons, beq_iff_eq, eq_comm (a := b)]

/-- A sum over bytes is a sum over byte values, weighted by their counts. -/
theorem sum_map_eq_sum_byteCount (S : List Byte) (f : Nat → Nat) :
    (S.map fun b => f b.toNat).sum = ((List.range 256).map fun b => byteCount S b * f b).sum := by
  induction S with
  | nil =>
    refine (List.sum_eq_zero fun x hx => ?_).symm
    obtain ⟨b, -, rfl⟩ := List.mem_map.mp hx
    exact Nat.zero_mul _
  | cons y S ih =>
    simp only [byteCount_cons, Nat.add_mul, ite_mul, one_mul, zero_mul, List.sum_map_add, List.map_cons, List.sum_cons]
    rw [sum_range_ite_eq y.isLt, ih, Nat.add_comm]

/-- The payload has Σ freq · len bits (R719). -/
theorem length_huffPayload {tie : List HuffTree → HuffTree × HuffTree} (htie : LegalTie tie) (S : List Byte) :
    (S.flatMap (codeBitsOf (canonical (huffLengths tie S)))).length =
      ((List.range 256).map fun b => byteCount S b * (huffLengths tie S).getD b 0).sum := by
  rw [List.length_flatMap, ← sum_map_eq_sum_byteCount]
  refine congrArg List.sum (List.map_congr_left fun b _ => ?_)
  exact length_codeBitsOf (length_huffLengths tie S) (huffLengths_bounds htie S) (kraftSum_huffLengths htie S) b

/-- Settles O44: the three paths are one function, and its output is as long as its header and its packed codes. -/
theorem huffCompletesWithHeaderAndPayload : Obligations.HuffCompletesWithHeaderAndPayload := by
  unfold Obligations.HuffCompletesWithHeaderAndPayload
  intro s i hi hfree hwf hwindow S lens size
  have hcompletes := completesWith_okWithin (exec_completesWith hfree hwf hwindow (commandFunction_huff s.cfg hi))
  have hsize : (headerBytes lens ++ packMsb (S.flatMap (codeBitsOf (canonical lens)))).length = size := by
    rw [List.length_append, headerBytes, List.length_map, length_huffLengths, length_packMsb,
      length_huffPayload (legalTie_tieOf _)]
  rwa [hsize] at hcompletes

/-! ### PUFF -/

/-- PUFF completes with the symbols its payload reads as when they fit, and the rest is padding. -/
theorem puff_completes {s : State} {i : Instr} {lens : List Nat} {payload symbols : List Byte} {rest : List Bool}
    (hi : i ∈ [Instr.puff, .puffBit, .puffFsm]) (hfree : s.raceFree) (hwf : Memory.wf s.mem)
    (hwindow : windowError s = none) (hlen : lens.length = 256) (hbounds : ∀ l ∈ lens, 1 ≤ l ∧ l ≤ 255)
    (hkraft : kraftSum lens = 2 ^ 255) (hsource : sourceBytes s = headerBytes lens ++ payload)
    (hreads : ReadsAs (canonical lens) (payloadBits payload) symbols rest) (hrest : isZeroNode rest = true) :
    (symbols.length ≤ s.latch.dstCap.toNat → ∃ t, exec i s = .next t ∧ Succeeds s t symbols) ∧
    (s.latch.dstCap.toNat < symbols.length → ∃ t, exec i s = .next t ∧ Fails s t .dstOverflow 0) := by
  obtain ⟨hlength, hzeros⟩ := isZeroNode_iff.mp hrest
  have hcompletes := exec_completesWith hfree hwf hwindow (commandFunction_puff s.cfg hi)
  rw [hsource, puffF_headerBytes_append hlen hbounds hkraft] at hcompletes
  obtain ⟨hoverflow, -, hok⟩ := hreads.puffBits_cases hlen hbounds hkraft s.latch.dstCap.toNat
  constructor
  · intro hfits
    rwa [hok hfits hlength hzeros] at hcompletes
  · intro hsmall
    rwa [hoverflow hsmall] at hcompletes

/-- Settles O53: HUFF's payload reads as its input and less than a byte of padding. -/
theorem puffCompletesWithTheBytes : Obligations.PuffCompletesWithTheBytes := by
  unfold Obligations.PuffCompletesWithTheBytes
  intro s i tie S c hi htie hfree hwf hwindow hhuff
  obtain ⟨hsource, -⟩ := okWithin_eq_ok hhuff
  have hlen := length_huffLengths tie S
  have hbounds := huffLengths_bounds htie S
  have hkraft := kraftSum_huffLengths htie S
  generalize hbits : S.flatMap (codeBitsOf (canonical (huffLengths tie S))) = bits at hsource
  have hpad : 8 * ((bits.length + 7) / 8) - bits.length ≤ 7 := by omega
  have hreads := readsAs_padding hlen hbounds hkraft S hpad
  rw [hbits, ← payloadBits_packMsb] at hreads
  exact puff_completes hi hfree hwf hwindow hlen hbounds hkraft hsource hreads (isZeroNode_replicate_false hpad)

/-! ### The uniform header -/

/-- 256 codes of 8 bits. -/
def uniformLengths : List Nat := List.replicate 256 8

theorem length_uniformLengths : uniformLengths.length = 256 := List.length_replicate

theorem uniformLengths_bounds : ∀ l ∈ uniformLengths, 1 ≤ l ∧ l ≤ 255 := by
  intro l hl
  rw [List.eq_of_mem_replicate hl]
  decide

theorem kraftSum_uniformLengths : kraftSum uniformLengths = 2 ^ 255 := by
  rw [kraftSum, uniformLengths, List.map_replicate, List.sum_replicate]
  decide

theorem headerBytes_uniformLengths : headerBytes uniformLengths = List.replicate 256 8 := List.map_replicate

/-- Under the uniform header every code is the byte itself. -/
theorem codeBitsOf_uniformLengths (b : Byte) : codeBitsOf (canonical uniformLengths) b = codeBits b.toNat 8 := by
  obtain ⟨row, hrow, hbyte, hcode⟩ :=
    exists_row_codeBitsOf length_uniformLengths (fun l hl => (uniformLengths_bounds l hl).1) b
  obtain ⟨hlt, hlen, heq⟩ := placedRow_of_mem_canonical length_uniformLengths (fun l hl => (uniformLengths_bounds l hl).2)
    kraftSum_uniformLengths hrow
  have height : ∀ k < 256, uniformLengths.getD k 0 = 8 := fun k hk => List.getD_replicate _ hk
  have hlonger : uniformLengths.filter (8 < ·) = [] :=
    List.filter_eq_nil_iff.mpr fun l hl => by rw [List.eq_of_mem_replicate hl]; decide
  have hbytes : bytesOfLength uniformLengths 8 = List.range 256 :=
    List.filter_eq_self.mpr fun k hk => by rw [height k (List.mem_range.mp hk)]; rfl
  rw [height _ hlt] at hlen
  rw [hlen, hlonger, hbytes, idxOf_range hlt] at heq
  have hrowCode : row.code = row.byte := by
    refine Nat.eq_of_mul_eq_mul_right (Nat.two_pow_pos (255 - 8)) (heq.trans ?_)
    rw [kraftSum, List.map_nil, List.sum_nil, Nat.zero_add]
  rw [hcode, hlen, hrowCode, hbyte]

/-- Settles O45: the payload reads as itself. -/
theorem puffOfTheUniformHeaderCopiesThePayload : Obligations.PuffOfTheUniformHeaderCopiesThePayload := by
  unfold Obligations.PuffOfTheUniformHeaderCopiesThePayload
  intro s i payload hi hfree hwf hwindow hsource
  rw [← headerBytes_uniformLengths] at hsource
  have hreads := readsAs_padding length_uniformLengths uniformLengths_bounds kraftSum_uniformLengths payload
    (Nat.zero_le 7)
  have hpayload : payload.flatMap (codeBitsOf (canonical uniformLengths)) = payloadBits payload := by
    rw [payloadBits, funext codeBitsOf_uniformLengths]
  rw [hpayload, List.replicate_zero, List.append_nil] at hreads
  exact puff_completes hi hfree hwf hwindow length_uniformLengths uniformLengths_bounds kraftSum_uniformLengths hsource
    hreads rfl

end Sys2Proof.Machine

/-! ## The coder's interval and the decoder's value (44_arith.md R811 to R813, R833, R835, R845) -/

namespace Sys2Proof.Machine

/-- Settles O55: a slice is nonempty because the interval is wider than the total, and each pass doubles the width. -/
theorem coderIntervalStaysWide : Obligations.CoderIntervalStaysWide := by
  unfold Obligations.CoderIntervalStaysWide
  intro c hlegal
  have hc := coderBounds hlegal
  refine ⟨wideInterval_fullInterval hc, fun freq x e hfreq hx hwide => ?_⟩
  exact ⟨narrow_low_lt_high hc hfreq hx hwide, low_le_narrow_low, narrow_high_le hwide.nonempty.le,
    encodeSymbol_wide hc hfreq hx hwide⟩

/-! ### The symbol whose slice holds V -/

/-- The slices of the 257 symbols cover the interval (R833). -/
theorem exists_slice_holds {c : Config} {freq : List Nat} {i : Interval} {V : Nat} (hfreq : LegalModel c freq)
    (hV : i.Holds V) : ∃ x ≤ 256, (narrow freq x i).Holds V := by
  obtain ⟨hlow, hhigh⟩ := hV
  have hpos : 0 < totalFreq freq := by
    have hle := List.length_le_sum_of_one_le freq hfreq.positive
    rw [hfreq.symbols] at hle
    exact lt_of_lt_of_le (by decide) hle
  have htop : V < (narrow freq 256 i).high := by
    have hall : cumFreq freq 257 = totalFreq freq := by rw [← hfreq.symbols, cumFreq_length]
    simp only [narrow, hall, Nat.mul_div_cancel _ hpos]
    omega
  have hexists : ∃ x, V < (narrow freq x i).high := ⟨256, htop⟩
  refine ⟨Nat.find hexists, Nat.find_min' hexists htop, ?_, Nat.find_spec hexists⟩
  cases hx : Nat.find hexists with
  | zero => simpa [narrow] using hlow
  | succ x => exact Nat.not_lt.mp (Nat.find_min hexists (by omega))

/-- The search answers a symbol whose slice holds V. -/
theorem findSymbol_holds {c : Config} {freq : List Nat} {d : Decoder} (hfreq : LegalModel c freq)
    (hV : d.interval.Holds d.value) :
    findSymbol freq d ≤ 256 ∧ (narrow freq (findSymbol freq d) d.interval).Holds d.value := by
  obtain ⟨x, hx, hslice⟩ := exists_slice_holds hfreq hV
  rw [findSymbol_eq (by rw [hfreq.symbols]; omega) hslice]
  exact ⟨hx, hslice⟩

/-! ### Renormalisation keeps V inside -/

/-- One pass moves V with its interval, and the bit brought in is less than the width of one. -/
theorem decoderPass_holds {c : Config} {d : Decoder} {k : Scaling} (hk : scalingCase c d.interval = some k)
    (hV : d.interval.Holds d.value) (S : List Byte) :
    (decoderPass c S k d).interval.Holds (decoderPass c S k d).value := by
  obtain ⟨hlow, hhigh⟩ := hV
  have hoffset := scalingOffset_le hk
  have hbit := (bitAt S d.pos).toNat_le
  simp only [decoderPass, shiftInBit, scaleInterval, Interval.Holds]
  omega

theorem decoderRenorm_holds {c : Config} {d : Decoder} (hV : d.interval.Holds d.value) (S : List Byte) (n : Nat) :
    (decoderRenorm c S n d).interval.Holds (decoderRenorm c S n d).value := by
  induction n generalizing d with
  | zero => exact hV
  | succ n ih =>
    rw [decoderRenorm]
    split
    next k hk => exact ih (decoderPass_holds hk hV S)
    next => exact hV

/-- The decoder renormalises to the encoder's wide interval. -/
theorem decoderRenorm_wide {c : Config} (hc : CoderBounds c) {freq : List Nat} (hfreq : LegalModel c freq) {x : Nat}
    (hx : x ≤ 256) {d : Decoder} (hwide : WideInterval c d.interval) (S : List Byte) :
    WideInterval c (decoderRenorm c S c.arithW { d with interval := narrow freq x d.interval }).interval := by
  obtain ⟨hencoder, -⟩ := encodeSymbol_wide hc hfreq hx (e := ⟨d.interval, 0, []⟩) hwide
  rwa [encodeSymbol, renorm_interval_eq c S _ _ { d with interval := narrow freq x d.interval } rfl] at hencoder

/-- The first ARITH_W bits spell a value below TOP. -/
theorem initDecoder_holds (c : Config) (S : List Byte) : (initDecoder c S).interval.Holds (initDecoder c S).value := by
  have hinit := shiftInBits_eq S (fullInterval c) 0 c.arithW
  simp only [bitsAhead] at hinit
  rw [initDecoder, hinit]
  exact ⟨Nat.zero_le _, by simpa [fullInterval, coderTop] using bitsAhead_lt S 0 c.arithW⟩

/-- Settles O56: V lies in one symbol's slice, and each pass moves V with the interval. -/
theorem decoderValueStaysInTheInterval : Obligations.DecoderValueStaysInTheInterval := by
  unfold Obligations.DecoderValueStaysInTheInterval
  intro c S hlegal
  refine ⟨initDecoder_holds c S, fun freq d hfreq hwide hV => ?_⟩
  obtain ⟨hx, hslice⟩ := findSymbol_holds hfreq hV
  exact ⟨hx, hslice, decoderRenorm_wide (coderBounds hlegal) hfreq hx hwide S,
    decoderRenorm_holds (d := { d with interval := _ }) hslice S _⟩

end Sys2Proof.Machine

/-! ## ARITH and UNARITH as instructions (44_arith.md R815, R820, R836, R840) -/

namespace Sys2Proof.Machine

/-- The flush puts out one bit and at least one pending bit (R815). -/
theorem two_le_length_arithBits (c : Config) (S : List Byte) : 2 ≤ (arithBits c S).length := by
  simp only [arithBits, flushEncoder, emitBit_bits, List.length_append, List.length_cons, List.length_replicate]
  omega

/-- Settles O57: ARITH's result is the packed bits if they fit. -/
theorem arithCompletesWithThePackedBits : Obligations.ArithCompletesWithThePackedBits := by
  unfold Obligations.ArithCompletesWithThePackedBits
  intro s hfree hwf hwindow bits
  have hcompletes := completesWith_okWithin (out := packMsb bits)
    (exec_completesWith hfree hwf hwindow (i := .arith) rfl)
  rw [length_packMsb] at hcompletes
  exact ⟨two_le_length_arithBits _ _, hcompletes⟩

/-- The decoding loop ends with an output or without room. -/
theorem decodeSymbols_ok_or_overflow (c : Config) (S : List Byte) (room : Nat) (freq : List Nat) (d : Decoder) :
    (∃ out, decodeSymbols c S room freq d = .ok out) ∨ decodeSymbols c S room freq d = .err .dstOverflow 0 := by
  induction room generalizing freq d with
  | zero =>
    rw [decodeSymbols]
    split
    · exact .inl ⟨[], rfl⟩
    · exact .inr rfl
  | succ room ih =>
    rw [decodeSymbols]
    split
    · exact .inl ⟨[], rfl⟩
    · rcases ih (updateFreq c freq (findSymbol freq d)) (decoderRenorm c S c.arithW
        { d with interval := narrow freq (findSymbol freq d) d.interval }) with ⟨out, hout⟩ | herr
      · exact .inl ⟨_, by simp only [hout]; rfl⟩
      · exact .inr (by simp only [herr]; rfl)

/-- Settles O58: the loop has no other error, and stops before it puts out more bytes than fit. -/
theorem unarithEndsInOutputOrOverflow : Obligations.UnarithEndsInOutputOrOverflow := by
  unfold Obligations.UnarithEndsInOutputOrOverflow
  intro c S cap
  rcases decodeSymbols_ok_or_overflow c S cap initFreq (initDecoder c S) with ⟨out, hout⟩ | herr
  · exact .inl ⟨out, hout, unarithF_le hout⟩
  · exact .inr herr

/-- A decoder with less room decodes the same, as far as the room goes. -/
theorem decodeSymbols_of_room_lt {c : Config} {S out : List Byte} {room room' : Nat} {freq : List Nat} {d : Decoder}
    (h : decodeSymbols c S room freq d = .ok out) (hroom : room' < out.length) :
    decodeSymbols c S room' freq d = .err .dstOverflow 0 := by
  induction room generalizing room' freq d out with
  | zero =>
    have hle := decodeSymbols_le h
    omega
  | succ room ih =>
    rw [decodeSymbols] at h
    split at h
    next heos => cases h; cases hroom
    next hbyte =>
      obtain ⟨out', hout', rfl⟩ := consResult_eq_ok h
      cases room' with
      | zero => rw [decodeSymbols]; exact if_neg hbyte
      | succ room' =>
        have hrest := ih hout' (Nat.lt_of_succ_lt_succ hroom)
        rw [decodeSymbols]
        simp only [if_neg hbyte, hrest]
        rfl

/-- UNARITH of ARITH's stream answers the bytes in whatever room they fit (R836, R841). -/
theorem unarithF_packMsb_arithBits {c : Config} (hlegal : c.legal = true) (S : List Byte) (cap : Nat) :
    unarithF c (packMsb (arithBits c S)) cap = okWithin cap S := by
  have hfull : ∀ room, S.length ≤ room → unarithF c (packMsb (arithBits c S)) room = .ok S := fun room hroom => by
    have hround := unarithInvertsArith c S (packMsb (arithBits c S)) [] _ room hlegal (okWithin_of_le le_rfl) hroom
    rwa [List.append_nil] at hround
  rcases Nat.lt_or_ge cap S.length with hsmall | hfits
  · rw [okWithin_of_lt hsmall]
    exact decodeSymbols_of_room_lt (hfull S.length le_rfl) hsmall
  · rw [okWithin_of_le hfits, hfull cap hfits]

/-- Settles O60: UNARITH of the stream is the bytes if they fit. -/
theorem unarithCompletesWithTheBytes : Obligations.UnarithCompletesWithTheBytes := by
  unfold Obligations.UnarithCompletesWithTheBytes
  intro s S hlegal hfree hwf hwindow hsource
  have hcompletes := exec_completesWith hfree hwf hwindow (i := .unarith) rfl
  rw [hsource, unarithF_packMsb_arithBits hlegal] at hcompletes
  obtain ⟨hok, hoverflow⟩ := completesWith_okWithin hcompletes
  refine ⟨fun hfits => ?_, hoverflow⟩
  obtain ⟨t, hexec, hsucceeds, -⟩ := hok hfits
  exact ⟨t, hexec, hsucceeds⟩

end Sys2Proof.Machine
